-- ==== Sys2Proof/Word.lean ====
section
/-! DEFINITION. The words of the block: a byte of a stream or a buffer, and the 32-bit register word
(spec/10_state.md R22). -/

namespace Sys2Proof

/-- One byte of `IN`, `OUT`, `SRC`, `DST`, and the 8-bit command word (R60, R90). -/
abbrev Byte := BitVec 8

/-- A register is 32 bits wide unless its rule gives another width (R22). -/
abbrev Word := BitVec 32

end Sys2Proof
end

