-- ==== Sys2Proof/Syntax.lean ====
section
/-! DEFINITION. The commands of the block (spec/30_encoding.md), one constructor per row of
spec/opcode_table.json, and the host-program syntax built on them (R96 to R98). -/

namespace Sys2Proof

/-- The five symbols of the waveform; a per-symbol register array is indexed by them (R30). -/
inductive Symbol where
  | pilot
  | sync
  | bit0
  | bit1
  | endMark
  deriving DecidableEq, Repr, Inhabited

/-- One value per symbol: a per-symbol register array `T[s]` (R16, R30). -/
structure PerSymbol (α : Type) where
  pilot : α
  sync : α
  bit0 : α
  bit1 : α
  endMark : α
  deriving DecidableEq, Repr, Inhabited

/-- The element of a per-symbol array at a symbol: `T[s]` (R16). -/
def PerSymbol.get {α : Type} (t : PerSymbol α) : Symbol → α
  | .pilot => t.pilot
  | .sync => t.sync
  | .bit0 => t.bit0
  | .bit1 => t.bit1
  | .endMark => t.endMark

/-- The per-symbol array whose element at `s` is `f s`. -/
def PerSymbol.tabulate {α : Type} (f : Symbol → α) : PerSymbol α :=
  ⟨f .pilot, f .sync, f .bit0, f .bit1, f .endMark⟩

/-- The twenty commands (R92). A command has no operand fields: it reads `ARG0` to `ARG2` (R91). -/
inductive Instr where
  /-- `OPEN`, code 0x01 (R117). -/
  | openSession
  /-- `CLOSE`, code 0x02 (R120). -/
  | closeSession
  /-- `TM.SCALE`, code 0x03 (R111). -/
  | tmScale
  /-- `TM.UNSCALE`, code 0x04 (R115). -/
  | tmUnscale
  /-- `TM.TOL`, code 0x05 (R113). -/
  | tmTol
  /-- `ENC.LEVELS`, code 0x10 (R130). -/
  | encLevels
  /-- `ENC.FRAME`, code 0x11 (R137). -/
  | encFrame
  /-- `ENC.SILENCE`, code 0x12 (R138). -/
  | encSilence
  /-- `ENC.CYCLE`, code 0x13 (R139). -/
  | encCycle
  /-- `ENC.PILOT`, code 0x14 (R140). -/
  | encPilot
  /-- `ENC.BYTE`, code 0x15 (R142). -/
  | encByte
  /-- `ENC.BLOCK`, code 0x16 (R141). -/
  | encBlock
  /-- `ENC.COUNT`, code 0x17 (R143). -/
  | encCount
  /-- `CLS.SAMPLE`, code 0x20 (R176). -/
  | clsSample
  /-- `FLT.CLEAR`, code 0x21 (R179). -/
  | fltClear
  /-- `CLS.PULSE`, code 0x22 (R182). -/
  | clsPulse
  /-- `DEC.RESET`, code 0x30 (R206). -/
  | decReset
  /-- `DEC.STEP`, code 0x31 (R204). -/
  | decStep
  /-- `DEC.CLASSIFY`, code 0x32 (R203). -/
  | decClassify
  /-- `DEC.BLOCK`, code 0x33 (R207). -/
  | decBlock
  deriving DecidableEq, Repr, Inhabited

/-- A line `MNEMONIC a0, a1, a2` of a host program (R96): a command and the values of `ARG0`, `ARG1`,
`ARG2` in order; an operand left off leaves its register unchanged. -/
structure CmdLine where
  instr : Instr
  args : List Word
  deriving DecidableEq, Repr

/-- The pseudo-operations of R97; each is exactly its expansion (Machine/Program.lean). -/
inductive PseudoOp where
  | encBit (b : Bool)
  | encSync
  | encEndMark
  | encHeader (off : Word)
  | encData (off len : Word)
  /-- `ENC.SESSION recs`: each record is (header offset, data offset, data length). -/
  | encSession (recs : List (Word × Word × Word))
  | decPulseStep
  deriving DecidableEq, Repr

end Sys2Proof
end

