-- ==== Sys2Proof/WellFormed.lean ====
section
/-! DEFINITION. Which commands and which host-program lines are well formed. A command of this block
carries no operands, so every term of `Instr` is well formed (R90, R91); what can be ill formed is a
LINE of a host program, whose operands R95, R96 and R130 restrict. -/

namespace Sys2Proof

/-- The family field `FAM` of a command, bits 7..4 of its code (R90). -/
def Instr.family : Instr → Nat
  | .openSession | .closeSession | .tmScale | .tmUnscale | .tmTol => 0
  | .encLevels | .encFrame | .encSilence | .encCycle | .encPilot | .encByte | .encBlock | .encCount => 1
  | .clsSample | .fltClear | .clsPulse => 2
  | .decReset | .decStep | .decClassify | .decBlock => 3

/-- The operation field `OP` of a command, bits 3..0 of its code (R90, R92). -/
def Instr.op : Instr → Nat
  | .openSession => 1
  | .closeSession => 2
  | .tmScale => 3
  | .tmUnscale => 4
  | .tmTol => 5
  | .encLevels => 0
  | .encFrame => 1
  | .encSilence => 2
  | .encCycle => 3
  | .encPilot => 4
  | .encByte => 5
  | .encBlock => 6
  | .encCount => 7
  | .clsSample => 0
  | .fltClear => 1
  | .clsPulse => 2
  | .decReset => 0
  | .decStep => 1
  | .decClassify => 2
  | .decBlock => 3

/-- A command fits the format C8: one of the four families and a 4-bit operation (R90). -/
def Instr.wellFormed (i : Instr) : Bool := decide (i.family < 4) && decide (i.op < 16)

/-- A line gives operands for `ARG0`, `ARG1`, `ARG2` only (R96; `ARG3` is read by no command, R91). -/
def CmdLine.arityOk (l : CmdLine) : Bool := decide (l.args.length ≤ 3)

/-- The operands a line gives are admitted by its command: the level selector is not 3, the symbol is at
most 4, an `EOS` image has no width bits (R95), a volume is at most 100 (R130), and the source bytes
`off .. off + len - 1` lie inside a `SRC` of `srcLen` bytes (R95, R70). -/
def CmdLine.operandsOk (srcLen : Nat) (l : CmdLine) : Bool :=
  match l.instr, l.args with
  | .encFrame, a :: _ => decide (a.toNat % 4 ≠ 3)
  | .encCycle, a :: _ => decide (a.toNat % 8 ≤ 4)
  | .encLevels, a :: _ => decide (a.toNat ≤ 100)
  | .encBlock, a :: b :: _ => decide (a.toNat + b.toNat ≤ srcLen)
  | .decStep, a :: _ => decide (a.toNat ≤ 2 ^ 31)
  | .decClassify, a :: _ => decide (a.toNat ≤ 2 ^ 31)
  | _, _ => true

/-- A host-program line is well formed. -/
def CmdLine.wellFormed (srcLen : Nat) (l : CmdLine) : Bool :=
  l.instr.wellFormed && l.arityOk && l.operandsOk srcLen

end Sys2Proof
end

