-- ==== Sys2Proof/Decode.lean ====
section
/-! DEFINITION. The decoder of `CMD`, total on every byte and rejecting reserved values by name
(spec/30_encoding.md R92, R93, R99), and the encoder (R90). -/

namespace Sys2Proof

/-- Why a byte sequence is no command. -/
inductive DecodeError where
  /-- The command word is reserved (R93). -/
  | reserved (code : Byte)
  /-- There is no command word to read: a command is one 8-bit word (R90). -/
  | empty
  deriving DecidableEq, Repr

/-- One row of the opcode map: the full 8-bit value and the command it selects (R92, mask 0xFF). -/
structure OpcodeRow where
  code : Byte
  instr : Instr
  deriving DecidableEq, Repr

/-- The session and timing rows of R92. -/
def sessionRows : List OpcodeRow :=
  [⟨0x01#8, .openSession⟩, ⟨0x02#8, .closeSession⟩, ⟨0x03#8, .tmScale⟩, ⟨0x04#8, .tmUnscale⟩,
   ⟨0x05#8, .tmTol⟩]

/-- The encoder rows of R92. -/
def encoderRows : List OpcodeRow :=
  [⟨0x10#8, .encLevels⟩, ⟨0x11#8, .encFrame⟩, ⟨0x12#8, .encSilence⟩, ⟨0x13#8, .encCycle⟩,
   ⟨0x14#8, .encPilot⟩, ⟨0x15#8, .encByte⟩, ⟨0x16#8, .encBlock⟩, ⟨0x17#8, .encCount⟩]

/-- The classifier and filter rows of R92. -/
def classifierRows : List OpcodeRow :=
  [⟨0x20#8, .clsSample⟩, ⟨0x21#8, .fltClear⟩, ⟨0x22#8, .clsPulse⟩]

/-- The decoder rows of R92. -/
def decoderRows : List OpcodeRow :=
  [⟨0x30#8, .decReset⟩, ⟨0x31#8, .decStep⟩, ⟨0x32#8, .decClassify⟩, ⟨0x33#8, .decBlock⟩]

/-- The opcode map (R92). -/
def opcodeMap : List OpcodeRow := sessionRows ++ encoderRows ++ classifierRows ++ decoderRows

/-- The command a command word selects, or its rejection by name (R92, R93). -/
def decode (w : Byte) : Except DecodeError Instr :=
  match opcodeMap.find? (fun r => r.code == w) with
  | some r => .ok r.instr
  | none => .error (.reserved w)

/-- The command at the head of a byte sequence, with the bytes after it. -/
def decodeBytes : List Byte → Except DecodeError (Instr × List Byte)
  | [] => .error .empty
  | w :: rest => (decode w).map fun i => (i, rest)

/-- The commands of a byte sequence, one word each (R90: no second words), or the first rejection. -/
def decodeProgram : List Byte → Except DecodeError (List Instr)
  | [] => .ok []
  | w :: rest =>
    match decode w with
    | .error e => .error e
    | .ok i =>
      match decodeProgram rest with
      | .error e => .error e
      | .ok is => .ok (i :: is)

/-- The command word: `FAM` in bits 7..4, `OP` in bits 3..0 (R90). -/
def Instr.code (i : Instr) : Byte := BitVec.ofNat 8 (16 * i.family + i.op)

/-- The words of a command: the one command word (R90: no prefixes, no second word). -/
def encode (i : Instr) : List Byte := [i.code]

/-- The instruction this decoder reads from a table row's bits: the first word is bits 7..0, and a command
has no further word. -/
def decodeTableWord (nbits w : Nat) : Option Instr :=
  if nbits = 0 then none
  else
    match decodeBytes [BitVec.ofNat 8 w] with
    | .ok (i, _) => some i
    | .error _ => none

end Sys2Proof
end

