-- ==== Sys2Proof/Config.lean ====
section
/-! DEFINITION. What the spec fixes per machine but gives no value (the parameters of R11 and R12), and the
FREE VALUES: opaque constants with no body, so that nothing in Lean can evaluate one and a claim about
one holds whatever it is. -/

namespace Sys2Proof

/-- The model parameters: "arguments of the model, constant for the whole run" (R11, R12, R20). -/
structure Params where
  /-- `P_CLK`, the emulated-CPU clock constant in Hz. -/
  clk : Nat
  /-- `P_HI_C[s]`, the high-semicycle width of each symbol in clock cycles. -/
  hiC : PerSymbol Nat
  /-- `P_LO_C[s]`, the low-semicycle width of each symbol in clock cycles. -/
  loC : PerSymbol Nat
  /-- `P_PILOT_HDR_N`, the header pilot tone length in cycles. -/
  pilotHdrN : Nat
  /-- `P_PILOT_DATA_N`, the data pilot tone length in cycles. -/
  pilotDataN : Nat
  /-- `P_LEAD_MS`, the leading silence in milliseconds. -/
  leadMs : Nat
  /-- `P_TRAIL_MS`, the trailing silence in milliseconds. -/
  trailMs : Nat
  /-- `P_W_PULSE`, the width of the pulse counter; `none` is the default, unbounded (R12). -/
  wPulse : Option Nat
  /-- `P_W_COUNT`, the width of `ENC_COUNT`; the default is 64 (R12). -/
  wCount : Nat
  deriving DecidableEq, Repr

/-- The types R11 gives the parameters: positive clock, widths and pilot counts, and a data pilot
shorter than the header pilot. -/
abbrev Params.WF (p : Params) : Prop :=
  0 < p.clk ∧
  (0 < p.hiC.pilot ∧ 0 < p.hiC.sync ∧ 0 < p.hiC.bit0 ∧ 0 < p.hiC.bit1 ∧ 0 < p.hiC.endMark) ∧
  (0 < p.loC.pilot ∧ 0 < p.loC.sync ∧ 0 < p.loC.bit0 ∧ 0 < p.loC.bit1 ∧ 0 < p.loC.endMark) ∧
  0 < p.pilotDataN ∧ p.pilotDataN < p.pilotHdrN

/-- What the input oracle answers when it is asked for bytes it has not supplied yet (R9, R61). -/
inductive InputAnswer where
  /-- No answer yet: the read blocks. -/
  | wait
  /-- The rest of the next frame: its bytes in stream order, byte `k` being bits `8k+7 .. 8k` (a frame
  has at most 8 bytes, R35). -/
  | frame (bits : BitVec 64)
  /-- The end of the stream. -/
  | eos
  /-- The read fails. -/
  | fail
  deriving DecidableEq, Repr, Inhabited

/-- What the output sink answers to one write (R9, R64). -/
inductive WriteAnswer where
  | accept
  /-- The write fails after the first `taken` bytes of the frame (all of it, if it has fewer). -/
  | fail (taken : Nat)
  deriving DecidableEq, Repr, Inhabited

namespace Config

/-- `P_CLK - 1` of the unnamed machine (R11, D4; log 5). -/
opaque clkPred : Nat
/-- `P_HI_C[s] - 1` (R11; log 5). -/
opaque hiWidthPred : Symbol → Nat
/-- `P_LO_C[s] - 1` (R11; log 5). -/
opaque loWidthPred : Symbol → Nat
/-- `P_PILOT_DATA_N - 1` (R11; log 5). -/
opaque pilotDataPred : Nat
/-- `P_PILOT_HDR_N - P_PILOT_DATA_N - 1` (R11; log 5). -/
opaque pilotHdrExtraPred : Nat
/-- `P_LEAD_MS` (R11; log 5). -/
opaque leadMs : Nat
/-- `P_TRAIL_MS` (R11; log 5). -/
opaque trailMs : Nat

/-- The parameters of the machine: no value is asserted beyond the types of R11 and the default counter
widths of R12 (log 5). -/
def params : Params where
  clk := clkPred + 1
  hiC := PerSymbol.tabulate fun s => hiWidthPred s + 1
  loC := PerSymbol.tabulate fun s => loWidthPred s + 1
  pilotHdrN := (pilotDataPred + 1) + (pilotHdrExtraPred + 1)
  pilotDataN := pilotDataPred + 1
  leadMs := leadMs
  trailMs := trailMs
  wPulse := none
  wCount := 64

/-- The unspecified power-on content of the register at an index (R51, I5; log 6). -/
opaque powerOnWord : Nat → Word
/-- The unspecified power-on content of `ENC_COUNT` (R43, R51; log 6). -/
opaque powerOnCount : BitVec 64
/-- The unspecified power-on content of a filter cell (R51; log 6). -/
opaque powerOnCell : Nat → Rat
/-- The unspecified power-on value of `FLT_IDX` (R51; log 6). -/
opaque powerOnFltIdx : Fin 55
/-- The unspecified content of the wave table with the given number (0 to 4 a symbol, 5 silence) at the
given draw: at power-on and in a DECODE session (R37, I6; log 6, log 11). -/
opaque freeTable : Nat → Nat → List (List Byte)
/-- The input oracle's answer at a draw (I9; log 3). -/
opaque inputAnswer : Nat → InputAnswer
/-- The output sink's answer at a draw (I8, I9; log 4). -/
opaque sinkAnswer : Nat → WriteAnswer
/-- What a host read of a reserved register index returns at a draw (R22, I7; log 12). -/
opaque reservedRead : Nat → Word
/-- The register image of a natural number too large for its register, which no rule states (log 10; of a pulse
width R41 states bit 31). -/
opaque wideImage : Nat → Word

end Config

end Sys2Proof
end

