-- ==== Sys2Proof/Machine/State.lean ====
section
/-! DEFINITION. The state of the block and of the host and streams around it, as plain data
(spec/10_state.md R20 to R51, spec/20_memory.md R60), and the power-on state (R51, R281). -/

namespace Sys2Proof.Machine

open Sys2Proof

/-! ## The values a field can take -/

/-- `STATUS.SESSION` (R46). -/
inductive Session where
  | closed
  | opened
  | aborted
  deriving DecidableEq, Repr, Inhabited

/-- The session kind, `CFG_FMT.MODE` (R25). -/
inductive Mode where
  | decode
  | encode
  deriving DecidableEq, Repr, Inhabited

/-- The decoder state `STATUS.DSTATE` (R38, R47). -/
inductive DState where
  | searching
  | piloting
  | loading
  | done
  deriving DecidableEq, Repr, Inhabited

/-- Why the last block-load attempt reached DONE, `STATUS.DCAUSE` (R48). -/
inductive DCause where
  | notDone
  | endMark
  | eos
  | overrun
  | ioFail
  deriving DecidableEq, Repr, Inhabited

/-- The error codes of `STATUS.ERR` (R49, R250). -/
inductive ErrCode where
  | noError
  | cfgRate
  | cfgBits
  | cfgChannels
  | cfgChsel
  | cfgVolume
  | cfgDetect
  | cfgHyst
  | streamRead
  | streamWrite
  deriving DecidableEq, Repr, Inhabited

/-- The scan phase `PH` of the edge detector (R41). -/
inductive Phase where
  | idle
  | seekHigh
  | seekLow
  deriving DecidableEq, Repr, Inhabited

/-- A pulse value: a width in samples, or the sentinel `EOS`, distinct from every width (R41, R184). -/
inductive Pulse where
  | eos
  | width (n : Nat)
  deriving DecidableEq, Repr, Inhabited

/-- The region of a sample (R175). -/
inductive Region where
  | dead
  | high
  | low
  deriving DecidableEq, Repr, Inhabited

/-- The bytes of one PCM frame (R19, R63). -/
abbrev Frame := List Byte

/-! ## How a step can stop, and the refusal mark -/

/-- Why the machine stops with a fault: the one fault of the spec (R23, I11). Safe: nothing is proved of what
follows. -/
inductive Fault where
  /-- A host read of a configuration register never written since power-on, of which R23 says that it "faults in
  the model" (I11): raised by the host read of the register map. Safe. -/
  | unwrittenConfigRead (index : Byte)
  deriving DecidableEq, Repr

/-- The refusals of host protocol violations (R256). The block "sets a refusal mark kept for the whole
run and makes no other state change": the mark is the field `State.refusal`, and the step goes on
(log 1). -/
inductive Refusal where
  /-- An instruction without a meaning: raised by no arm of this model. Safe. -/
  | notModelled (mnemonic : String)
  /-- A `CMD` value not in the opcode map (R93): raised by the host's write to `CMD`. Safe (log 1). -/
  | reservedCommand (code : Byte)
  /-- The session precondition of R94 fails: raised by every command. Safe (log 1). -/
  | sessionPrecondition
  /-- The mode precondition of R94 fails: raised by the commands of one session kind. Safe (log 1). -/
  | modePrecondition
  /-- `OPEN` with a configuration register never written (R23): raised by `OPEN`. Safe (log 1). -/
  | openUnconfigured
  /-- An operand value the command does not admit (R95): raised by `ENC.FRAME`, `ENC.CYCLE`, `DEC.STEP`,
  `DEC.CLASSIFY`. Safe (log 1). -/
  | operandNotAdmitted
  /-- `ENC.BLOCK` reading past the end of `SRC` (R70, R95). Safe (log 1). -/
  | srcOutOfRange
  /-- `ENC.LEVELS` with a volume above 100 (R130). Safe (log 1). -/
  | volumeAbove100
  /-- A `TM.*` result of 2^32 or more (R111, R115). Safe (log 1). -/
  | resultTooWide
  /-- A counter exceeding its width (R12): `PCNT`, raised by `CLS.PULSE` and `DEC.BLOCK`, or `ENC_COUNT`,
  raised by the emission commands. Safe (log 1, log 16). -/
  | counterOverflow
  /-- A configuration write while the session is not CLOSED (R23): raised by the host write. Safe (log 1). -/
  | configWriteInSession (index : Byte)
  /-- A host write to a reserved register index (R22). Safe (log 1). -/
  | reservedRegisterWrite (index : Byte)
  /-- A host write to a read-only register (R22). Safe (log 1, log 14). -/
  | readOnlyRegisterWrite (index : Byte)
  deriving DecidableEq, Repr

/-! ## Groups of registers -/

/-- The configuration registers (R23 to R29). `none` is the spec's own "unwritten (no value)" (R51). -/
structure CfgRegs where
  rate : Option Word
  fmt : Option Word
  vol : Option Word
  det : Option Word
  hys : Option Word
  ford : Option Word
  deriving DecidableEq, Repr

/-- The derived registers, written only by `OPEN` (R31 to R36, R40). The sample counts are naturals; their
32-bit register images are in Machine/Regs.lean. The levels are held as their 32-bit images (R34). -/
structure Derived where
  hiS : PerSymbol Nat
  loS : PerSymbol Nat
  ref : PerSymbol Nat
  tol : Nat
  lvlHi : Word
  lvlLo : Word
  lvlMid : Word
  frameBytes : Nat
  leadFrames : Nat
  trailFrames : Nat
  fltOrder : Nat
  deriving DecidableEq, Repr

/-- The wave tables `WT[s]` and `WT_SIL` (R37), each held as its frames in order: a table's bytes are
their concatenation ("always an exact multiple of frameBytes"). -/
structure WaveTables where
  wt : PerSymbol (List Frame)
  sil : List Frame
  deriving DecidableEq, Repr

/-- The filter state `FLT_BUF`, `FLT_IDX` (R42). -/
structure FilterState where
  buf : Vector Rat 55
  idx : Fin 55
  deriving DecidableEq, Repr

/-- The pulse-measurement registers (R41). -/
structure Edge where
  ph : Phase
  pcnt : Nat
  pulse : Pulse
  deriving DecidableEq, Repr

/-- The decoder datapath registers (R39). -/
structure DecRegs where
  shift : BitVec 8
  nbits : BitVec 4
  count : Word
  cap : Word
  deriving DecidableEq, Repr

/-- The fields of `STATUS` (R45 to R49); its register image is in Machine/Flags.lean. -/
structure Status where
  session : Session
  dstate : DState
  dcause : DCause
  err : ErrCode
  deriving DecidableEq, Repr

/-- The command interface registers (R50). -/
structure CmdRegs where
  cmd : Byte
  arg0 : Word
  arg1 : Word
  arg2 : Word
  arg3 : Word
  res : Word
  resHi : Word
  deriving DecidableEq, Repr

/-! ## Streams, buffers, the host -/

/-- What follows the bytes an input source has supplied: the end of the stream, a failing read, or answers
the oracle still owes (R61; log 3). -/
inductive SourceTail where
  | eos
  | fails
  | oracle
  deriving DecidableEq, Repr

/-- The input stream `IN` as far as it is known: the supplied bytes not yet consumed and what follows
them (R60, R61; log 3). -/
structure Source where
  bytes : List Byte
  tail : SourceTail
  deriving DecidableEq, Repr

/-- The answers of the output sink: it accepts every write; it accepts `writes` more and fails the next one
after `taken` bytes; or each answer is free (R9, R64; log 4). -/
inductive Sink where
  | accepts
  | failsAfter (writes taken : Nat)
  | oracle
  deriving DecidableEq, Repr

/-- A byte memory: (address, byte) pairs, addresses strictly rising, no entry equal to what an unlisted
address reads as (`Memory.wf`, Machine/Ops.lean). -/
abbrev Memory := List Host.Cell

/-- A recovered record `(H, D, m)`: the header, the data buffer, and how many data bytes were recovered
(R232). -/
structure Record where
  header : List Byte
  data : List Byte
  got : Nat
  deriving DecidableEq, Repr

/-- The outcome of one `REC.RECORD` attempt (R232, R234). -/
inductive RecResult where
  | stop
  | reject
  | record (r : Record)
  | ioFail
  deriving DecidableEq, Repr

/-- What the host gets back (R267, R295): a register read, a read of `DST`, the `OUT` a `CLOSE` hands back,
the `DST` buffer after a `DEC.BLOCK`, and the results of the record sequencer (log 18). -/
inductive Observation where
  | regRead (index : Byte) (value : Word)
  | dstRead (index : Nat) (value : Byte)
  | outBack (bytes : List Byte)
  | dstAfter (cap : Word) (buffer : Memory)
  | recRecord (result : RecResult)
  | recAll (ok : Bool) (records : List Record)
  deriving DecidableEq, Repr

/-- One access of the host (R96, R267; log 17, log 19). -/
inductive HostAction where
  /-- `WR`: write a register; a write to `CMD` starts a command. -/
  | write (index : Byte) (value : Word)
  /-- `RD`: read a register. -/
  | read (index : Byte)
  /-- Read one register and write its value to another in one step: how an operand named by a register, as in
  `DEC.STEP RES` (R97), reaches `ARG0` (log 26). -/
  | copy (source target : Byte)
  /-- `BufRead(i)` of `DST` after a command (R71); the buffer is the host's, whatever its capacity (log 9). -/
  | bufRead (index : Nat)
  /-- Offer the input stream the next DECODE `OPEN` takes (R78). -/
  | offerIn (source : Source)
  /-- Offer the output sink the next ENCODE `OPEN` takes (R78). -/
  | offerOut (sink : Sink)
  /-- Supply the source bytes `SRC` (R70). -/
  | giveSrc (bytes : List Byte)
  /-- Supply the destination buffer `DST` (R71). -/
  | giveDst (bytes : List Byte)
  /-- Run `REC.RECORD` (R232). -/
  | recRecord
  /-- Run `REC.ALL` (R233). -/
  | recAll
  deriving DecidableEq, Repr

/-- Where the record sequencer stands (R232; log 20). -/
inductive SeqPhase where
  /-- About to issue the header attempt. -/
  | header
  /-- The header attempt has been issued. -/
  | headerDone
  /-- About to issue the data attempt for this header, of this size. -/
  | data (header : List Byte) (size : Nat)
  /-- The data attempt has been issued. -/
  | dataDone (header : List Byte) (size : Nat)
  deriving DecidableEq, Repr

/-- The record sequencer: whether it loops (`REC.ALL`), the records so far, and its phase. -/
structure Sequencer where
  all : Bool
  records : List Record
  phase : SeqPhase
  deriving DecidableEq, Repr

/-- A command in progress: one whose next read the input oracle has not answered (R61, R262, R291). -/
inductive Activity where
  | sample
  | pulse
  | block
  deriving DecidableEq, Repr

/-- The whole machine: the block's registers, tables and buffers (R20), the streams and memories it reaches
(R60), the model parameters (R11), and the host (R9). -/
structure State where
  params : Params
  cfg : CfgRegs
  derived : Derived
  tables : WaveTables
  filter : FilterState
  edge : Edge
  dec : DecRegs
  status : Status
  io : CmdRegs
  inPos : Nat
  encCount : Nat
  inp : Source
  out : List Byte
  sink : Sink
  offeredIn : Source
  offeredSink : Sink
  src : List Byte
  dst : Memory
  running : Option Activity
  seq : Option Sequencer
  queue : List HostAction
  obs : List Observation
  refusal : Option Refusal
  draws : Nat
  deriving DecidableEq, Repr

/-! ## Power-on -/

/-- An input stream nothing is known of: every answer is the oracle's (R9; log 3). -/
def Source.unknown : Source := ⟨[], .oracle⟩

/-- A configuration register file never written (R51). -/
def CfgRegs.unwritten : CfgRegs := ⟨none, none, none, none, none, none⟩

/-- The unspecified natural a derived register holds at power-on (R51; log 6). -/
def powerOnNat (index : Nat) : Nat := (Config.powerOnWord index).toNat

/-- The unspecified power-on content of a per-symbol register array at a base index (R31, R32). -/
def powerOnPerSymbol (base : Nat) : PerSymbol Nat :=
  ⟨powerOnNat base, powerOnNat (base + 1), powerOnNat (base + 2), powerOnNat (base + 3), powerOnNat (base + 4)⟩

/-- The unspecified power-on content of the derived registers (R51; log 6). -/
def Derived.powerOn : Derived where
  hiS := powerOnPerSymbol 0x40
  loS := powerOnPerSymbol 0x48
  ref := powerOnPerSymbol 0x50
  tol := powerOnNat 0x58
  lvlHi := Config.powerOnWord 0x59
  lvlLo := Config.powerOnWord 0x5A
  lvlMid := Config.powerOnWord 0x5B
  frameBytes := powerOnNat 0x5C
  leadFrames := powerOnNat 0x5D
  trailFrames := powerOnNat 0x5E
  fltOrder := powerOnNat 0x5F

/-- Wave tables of unspecified content at a draw (R37, I6; log 6, log 11). -/
def WaveTables.free (draw : Nat) : WaveTables where
  wt := ⟨Config.freeTable draw 0, Config.freeTable draw 1, Config.freeTable draw 2, Config.freeTable draw 3,
    Config.freeTable draw 4⟩
  sil := Config.freeTable draw 5

/-- The unspecified power-on content of the filter (R51; log 6). -/
def FilterState.powerOn : FilterState where
  buf := Vector.ofFn fun i => Config.powerOnCell i.val
  idx := Config.powerOnFltIdx

/-- The phase an unspecified two-bit content stands for (R41; the value 3 is never written; log 6). -/
def Phase.ofBits (n : Nat) : Phase := if n = 1 then .seekHigh else if n = 2 then .seekLow else .idle

/-- The decoder state a two-bit content stands for (R38). -/
def DState.ofBits (n : Nat) : DState :=
  if n = 0 then .searching else if n = 1 then .piloting else if n = 2 then .loading else .done

/-- The cause an unspecified three-bit content stands for (R48; 5 to 7 are never written; log 6). -/
def DCause.ofBits (n : Nat) : DCause :=
  if n = 1 then .endMark else if n = 2 then .eos else if n = 3 then .overrun else if n = 4 then .ioFail
  else .notDone

/-- The pulse value an unspecified register image stands for (R41; log 6). -/
def Pulse.ofPowerOn (w : Word) : Pulse := if w.toNat < 2 ^ 31 then .width w.toNat else .eos

/-- The unspecified power-on content of the edge detector (R51; log 6). -/
def Edge.powerOn : Edge where
  ph := Phase.ofBits (powerOnNat 0x65 % 4)
  pcnt := powerOnNat 0x66
  pulse := Pulse.ofPowerOn (Config.powerOnWord 0x64)

/-- The unspecified power-on content of the decoder registers (R51; log 6). -/
def DecRegs.powerOn : DecRegs where
  shift := BitVec.ofNat 8 (powerOnNat 0x62)
  nbits := BitVec.ofNat 4 (powerOnNat 0x62 / 256)
  count := Config.powerOnWord 0x61
  cap := Config.powerOnWord 0x63

/-- `STATUS` at power-on: SESSION is CLOSED and ERR is 0; DSTATE and DCAUSE are unspecified (R46 to R49,
R51; log 6). -/
def Status.powerOn : Status where
  session := .closed
  dstate := DState.ofBits (powerOnNat 0x60 / 4 % 4)
  dcause := DCause.ofBits (powerOnNat 0x60 / 16 % 8)
  err := .noError

/-- The unspecified power-on content of the command interface (R50, R51; log 6). -/
def CmdRegs.powerOn : CmdRegs where
  cmd := BitVec.ofNat 8 (powerOnNat 0x70)
  arg0 := Config.powerOnWord 0x71
  arg1 := Config.powerOnWord 0x72
  arg2 := Config.powerOnWord 0x73
  arg3 := Config.powerOnWord 0x74
  res := Config.powerOnWord 0x75
  resHi := Config.powerOnWord 0x76

/-- The power-on state (R51, R281): the session is CLOSED, no error, no configuration written, every other
register unspecified; nothing has been handed over and the host has issued nothing. -/
def State.reset : State where
  params := Config.params
  cfg := CfgRegs.unwritten
  derived := Derived.powerOn
  tables := WaveTables.free 0
  filter := FilterState.powerOn
  edge := Edge.powerOn
  dec := DecRegs.powerOn
  status := Status.powerOn
  io := CmdRegs.powerOn
  inPos := powerOnNat 0x6A
  encCount := Config.powerOnCount.toNat
  inp := Source.unknown
  out := []
  sink := .oracle
  offeredIn := Source.unknown
  offeredSink := .oracle
  src := []
  dst := []
  running := none
  seq := none
  queue := []
  obs := []
  refusal := none
  draws := 1

end Sys2Proof.Machine
end

