-- ==== Sys2Proof/Machine/Operands.lean ====
section
/-! DEFINITION. Every field and operand form of the block: the fields of the configuration registers
(R24 to R29), the codes of its enumerations (R38, R46 to R50, R91, R203), the operands a command reads
from the argument registers (R91), and the byte-order and sign-extension helpers (R14, R63, R65). -/

namespace Sys2Proof.Machine

open Sys2Proof

/-! ## Bits and bytes -/

/-- The natural number of a little-endian byte sequence, `b[0] | b[1]<<8 | ...` (R63, R67). -/
def natOfBytes : List Byte → Nat
  | [] => 0
  | b :: bs => b.toNat + 256 * natOfBytes bs

/-- The lowest `n` bytes of a word, least significant first (R65). -/
def bytesOfWord (n : Nat) (w : Word) : List Byte :=
  (List.range n).map fun k => BitVec.ofNat 8 (w.toNat / 256 ^ k)

/-- The eight bytes of a 64-bit answer, in stream order (Config.InputAnswer). -/
def bytesOfAnswer (bits : BitVec 64) : List Byte :=
  (List.range 8).map fun k => BitVec.ofNat 8 (bits.toNat / 256 ^ k)

/-- `sext_N(v)`: an `N`-bit field read as two's complement (R14). -/
def sext (n v : Nat) : Int := (BitVec.ofNat n v).toInt

/-- The bits of a byte in tape order, most significant first (R68, R142). -/
def tapeBits (b : Byte) : List Bool :=
  [b.getLsbD 7, b.getLsbD 6, b.getLsbD 5, b.getLsbD 4, b.getLsbD 3, b.getLsbD 2, b.getLsbD 1, b.getLsbD 0]

/-! ## The configuration registers

A register never written has no value; the fields below then read 0, which no command reaches: only `OPEN`
starts a session, and it is refused (log 7). -/

/-- `sampleRate`, `sext_32(CFG_RATE)` (R24). -/
def CfgRegs.rateHz (c : CfgRegs) : Int := (c.rate.getD 0#32).toInt

/-- The 32-bit content of `CFG_FMT` as a natural (R25). -/
def CfgRegs.fmtNat (c : CfgRegs) : Nat := (c.fmt.getD 0#32).toNat

/-- `CFG_FMT.BITS`, bits 5..0: bits per sample (R25). -/
def CfgRegs.bits (c : CfgRegs) : Nat := c.fmtNat % 64

/-- `CFG_FMT.CHANNELS`, bits 9..8 (R25). -/
def CfgRegs.channels (c : CfgRegs) : Nat := c.fmtNat / 2 ^ 8 % 4

/-- `CFG_FMT.CHSEL`, bits 11..10: 0 mix, 1 left, 2 right (R25). -/
def CfgRegs.chsel (c : CfgRegs) : Nat := c.fmtNat / 2 ^ 10 % 4

/-- `CFG_FMT.INVERT`, bit 12 (R25). -/
def CfgRegs.invert (c : CfgRegs) : Bool := c.fmtNat / 2 ^ 12 % 2 == 1

/-- `CFG_FMT.FILTER_EN`, bit 13 (R25). -/
def CfgRegs.filterEn (c : CfgRegs) : Bool := c.fmtNat / 2 ^ 13 % 2 == 1

/-- `CFG_FMT.MODE`, bit 14: 0 DECODE, 1 ENCODE (R25). -/
def CfgRegs.mode (c : CfgRegs) : Mode := if c.fmtNat / 2 ^ 14 % 2 = 1 then .encode else .decode

/-- `volumePercent`, `CFG_VOL[7:0]` (R26). -/
def CfgRegs.volume (c : CfgRegs) : Nat := (c.vol.getD 0#32).toNat % 256

/-- `detectionLevelPercent`, `sext_8(CFG_DET[7:0])` (R27). -/
def CfgRegs.detect (c : CfgRegs) : Int := sext 8 (c.det.getD 0#32).toNat

/-- `hysteresisPercent`, `CFG_HYS[7:0]` (R28). -/
def CfgRegs.hyst (c : CfgRegs) : Nat := (c.hys.getD 0#32).toNat % 256

/-- The requested filter order, `CFG_FORD[7:0]` (R29). -/
def CfgRegs.fltRequest (c : CfgRegs) : Nat := (c.ford.getD 0#32).toNat % 256

/-- Every configuration register has been written since power-on (R23). -/
def CfgRegs.allWritten (c : CfgRegs) : Bool :=
  c.rate.isSome && c.fmt.isSome && c.vol.isSome && c.det.isSome && c.hys.isSome && c.ford.isSome

/-- The bytes of one sample, `CFG_FMT.BITS / 8` (R63). -/
def CfgRegs.sampleBytes (c : CfgRegs) : Nat := c.bits / 8

/-! ## Codes -/

/-- The code of a decoder state (R38). -/
def DState.code : DState → Nat
  | .searching => 0
  | .piloting => 1
  | .loading => 2
  | .done => 3

/-- The result code of a region (R91, R176). -/
def Region.code : Region → Nat
  | .dead => 0
  | .high => 1
  | .low => 2

/-- The result code of `CLS.SAMPLE` at the end of the stream (R91, R176). -/
def endOfStreamCode : Nat := 3

/-- The 32-bit image of a natural number: itself where it fits, and otherwise a value no rule states
(log 10). -/
def image32 (n : Nat) : Word := if n < 2 ^ 32 then BitVec.ofNat 32 n else Config.wideImage n

/-- The register image of a pulse: `image(EOS) = 0x80000000`, `image(n) = n` (R41, R182). Of a width that bits 30..0
cannot hold, R41 gives bit 31 = 0 alone: the other bits are free (log 10). -/
def Pulse.image : Pulse → Word
  | .eos => 0x80000000#32
  | .width n => if n < 2 ^ 31 then BitVec.ofNat 32 n else BitVec.ofNat 32 ((Config.wideImage n).toNat % 2 ^ 31)

/-! ## Operands (R91) -/

/-- The level selector of `ENC.FRAME`, `ARG0[1:0]`: 0 LO, 1 HI, 2 MID (R91, R137); 3 selects none (R95). -/
def levelSelector (a : Word) (d : Derived) : Option Word :=
  match a.toNat % 4 with
  | 0 => some d.lvlLo
  | 1 => some d.lvlHi
  | 2 => some d.lvlMid
  | _ => none

/-- The symbol of `ENC.CYCLE`, `ARG0[2:0]`; the index values 5 to 7 name no symbol (R30, R91). -/
def symbolOperand (a : Word) : Option Symbol :=
  match a.toNat % 8 with
  | 0 => some .pilot
  | 1 => some .sync
  | 2 => some .bit0
  | 3 => some .bit1
  | 4 => some .endMark
  | _ => none

/-- The byte of `ENC.BYTE`, `ARG0[7:0]` (R91). -/
def byteOperand (a : Word) : Byte := BitVec.ofNat 8 a.toNat

/-- The pulse of `DEC.STEP` and `DEC.CLASSIFY`: bit 31 set means `EOS`, else the width is bits 30..0
(R91); an `EOS` image with width bits set is not admitted (R95). -/
def pulseOperand (a : Word) : Option Pulse :=
  if a.toNat < 2 ^ 31 then some (.width a.toNat)
  else if a.toNat = 2 ^ 31 then some .eos
  else none

/-- The source bytes of `ENC.BLOCK`, `SRC[off .. off+len-1]`; none past the end of `SRC` (R70, R95). -/
def srcOperand (src : List Byte) (off len : Word) : Option (List Byte) :=
  if off.toNat + len.toNat ≤ src.length then some ((src.drop off.toNat).take len.toNat) else none

end Sys2Proof.Machine
end

