-- ==== Sys2Proof/Machine/Flags.lean ====
section
/-! DEFINITION. `STATUS`: its register image (R45 to R49) and every computation of one of its fields: the
configuration check of `OPEN` (R118), the abort of a stream error (R255), and the refusal mark (R256). -/

namespace Sys2Proof.Machine

open Sys2Proof

/-! ## The register image -/

/-- The code of a session state (R46). -/
def Session.code : Session → Nat
  | .closed => 0
  | .opened => 1
  | .aborted => 2

/-- The code of an attempt's end (R48). -/
def DCause.code : DCause → Nat
  | .notDone => 0
  | .endMark => 1
  | .eos => 2
  | .overrun => 3
  | .ioFail => 4

/-- The number of an error code (R250). -/
def ErrCode.code : ErrCode → Nat
  | .noError => 0
  | .cfgRate => 1
  | .cfgBits => 2
  | .cfgChannels => 3
  | .cfgChsel => 4
  | .cfgVolume => 5
  | .cfgDetect => 6
  | .cfgHyst => 7
  | .streamRead => 8
  | .streamWrite => 9

/-- The image of `STATUS`: SESSION in bits 1..0, DSTATE in 3..2, DCAUSE in 6..4, ERR in 11..8, every other
bit 0 (R45 to R49). -/
def Status.image (t : Status) : Word :=
  BitVec.ofNat 32 (t.session.code + 4 * t.dstate.code + 16 * t.dcause.code + 256 * t.err.code)

/-! ## The configuration check -/

/-- The first failing check of R118, in its order; `none` when every check passes. -/
def CfgRegs.configError (c : CfgRegs) : Option ErrCode :=
  if c.rateHz ≤ 0 then some .cfgRate
  else if c.bits ≠ 8 ∧ c.bits ≠ 16 ∧ c.bits ≠ 24 ∧ c.bits ≠ 32 then some .cfgBits
  else if c.channels ≠ 1 ∧ c.channels ≠ 2 then some .cfgChannels
  else if c.chsel = 3 then some .cfgChsel
  else if 100 < c.volume then some .cfgVolume
  else if c.detect < -100 ∨ 100 < c.detect then some .cfgDetect
  else if 100 < c.hyst then some .cfgHyst
  else none

/-! ## Updates of the status fields -/

/-- `STATUS.ERR <- e`. -/
def State.setErr (s : State) (e : ErrCode) : State := { s with status := { s.status with err := e } }

/-- `STATUS.SESSION <- v`. -/
def State.setSession (s : State) (v : Session) : State :=
  { s with status := { s.status with session := v } }

/-- `STATUS.DSTATE <- v`. -/
def State.setDState (s : State) (v : DState) : State := { s with status := { s.status with dstate := v } }

/-- `STATUS.DCAUSE <- v`. -/
def State.setDCause (s : State) (v : DCause) : State := { s with status := { s.status with dcause := v } }

/-- Taking a stream error (R255): `STATUS.ERR` gets its code and the session is ABORTED; `RES` is not
written and everything the steps before the failing access did stays. This block's only error entry: there
is no trap, no saved program counter and no vector (R260). -/
def State.abort (s : State) (e : ErrCode) : State := (s.setErr e).setSession .aborted

/-- Refusing a host action: the refusal mark is set, kept for the whole run, and nothing else changes
(R256); the mark holds the first refusal's reason (log 1). -/
def State.refuse (s : State) (r : Refusal) : State :=
  { s with refusal := match s.refusal with
      | none => some r
      | some first => some first }

end Sys2Proof.Machine
end

