-- ==== Sys2Proof/Machine/Ops.lean ====
section
/-! DEFINITION. The named operations over memory, streams and registers: the byte memory behind `DST`, the
stream primitives `InRead` and `OutWrite` (R61, R64), the command interface (R50), and the shared shape of a
command: its preconditions, its steps, and how it ends (R94, R255, R258, R262). -/

namespace Sys2Proof.Machine

open Sys2Proof

/-! ## Byte memory (R71) -/

/-- What an unlisted byte reads as (log 8). -/
def Memory.blank : Byte := 0#8

/-- The byte at an address. -/
def Memory.read : Memory → Nat → Byte
  | [], _ => Memory.blank
  | c :: cs, a => if c.1 = a then c.2 else Memory.read cs a

/-- Remove the entry of an address. -/
def Memory.erase (m : Memory) (a : Nat) : Memory := m.filter fun c => c.1 ≠ a

/-- Put an entry at its place in the rising order. -/
def Memory.insert : Memory → Nat → Byte → Memory
  | [], a, b => [(a, b)]
  | c :: cs, a, b => if a < c.1 then (a, b) :: c :: cs else c :: Memory.insert cs a b

/-- Write one byte; the value an unlisted byte reads as removes the entry, so equal memories are equal
lists. -/
def Memory.write (m : Memory) (a : Nat) (b : Byte) : Memory :=
  if b = Memory.blank then m.erase a else (m.erase a).insert a b

/-- Write bytes at increasing addresses from `a` on. -/
def Memory.writeBytes : Memory → Nat → List Byte → Memory
  | m, _, [] => m
  | m, a, b :: bs => Memory.writeBytes (m.write a b) (a + 1) bs

/-- The first `n` bytes of the memory. -/
def Memory.readBytes (m : Memory) (n : Nat) : List Byte := (List.range n).map m.read

/-- The canonical form: addresses strictly rising, and no entry equal to what an unlisted byte reads as. -/
def Memory.wf : Memory → Bool
  | [] => true
  | [c] => c.2 != Memory.blank
  | c :: d :: cs => c.2 != Memory.blank && decide (c.1 < d.1) && Memory.wf (d :: cs)

/-! ## The command interface (R50) -/

/-- `RES <- w`. -/
def State.setRes (s : State) (w : Word) : State := { s with io := { s.io with res := w } }

/-- `RES_HI <- w`. -/
def State.setResHi (s : State) (w : Word) : State := { s with io := { s.io with resHi := w } }

/-- `CMD` holds the code of the command that was started (R50; log 13). -/
def State.setCmd (s : State) (i : Instr) : State := { s with io := { s.io with cmd := i.code } }

/-- A natural-number result in `RES` (bytes written are taken modulo 2^32, R91). -/
def State.setResNat (s : State) (n : Nat) : State := s.setRes (BitVec.ofNat 32 n)

/-- `PH <- v`. -/
def State.setPhase (s : State) (v : Phase) : State := { s with edge := { s.edge with ph := v } }

/-- `PCNT <- n`. -/
def State.setPcnt (s : State) (n : Nat) : State := { s with edge := { s.edge with pcnt := n } }

/-- `PULSE <- p`. -/
def State.setPulse (s : State) (p : Pulse) : State := { s with edge := { s.edge with pulse := p } }

/-- What the host gets back is recorded (R295). -/
def State.observe (s : State) (o : Observation) : State := { s with obs := s.obs ++ [o] }

/-! ## The input stream (R61, R62) -/

/-- The answer to one `InRead`. -/
inductive ReadResult where
  | frame (bytes : Frame)
  | eos
  | failed
  | pending
  deriving DecidableEq, Repr

/-- The answer the stream gives to one read of a frame of `n` bytes, and the stream after it: the next `n`
bytes if they are there; a shorter rest is never consumed (R62), and what follows it answers. -/
def Source.next (n : Nat) (inp : Source) : ReadResult × Source :=
  if n ≤ inp.bytes.length then (.frame (inp.bytes.take n), { inp with bytes := inp.bytes.drop n })
  else
    match inp.tail with
    | .eos => (.eos, inp)
    | .fails => (.failed, inp)
    | .oracle => (.pending, inp)

/-- `InRead()`: a frame is taken from `IN` and `IN_POS` grows by 1; every other answer changes nothing
(R61). -/
def State.inRead (s : State) : ReadResult × State :=
  match s.inp.next s.derived.frameBytes with
  | (.frame f, rest) => (.frame f, { s with inp := rest, inPos := s.inPos + 1 })
  | (other, _) => (other, s)

/-- One answer of the input oracle to a read it still owes: no answer yet, the rest of the frame, the end of
the stream, or a failure; each is a free value (R61, I9; log 3). -/
def State.askInput (s : State) : State :=
  if s.inp.tail = .oracle ∧ s.inp.bytes.length < s.derived.frameBytes then
    let inp := match Config.inputAnswer s.draws with
      | .wait => s.inp
      | .frame bits =>
        { s.inp with
          bytes := s.inp.bytes ++ (bytesOfAnswer bits).take (s.derived.frameBytes - s.inp.bytes.length) }
      | .eos => { s.inp with tail := .eos }
      | .fail => { s.inp with tail := .fails }
    { s with inp := inp, draws := s.draws + 1 }
  else s

/-! ## The output stream (R64) -/

/-- The sink's answer to the next write, and the state after it was given (R9, I9; log 4). -/
def State.sinkAnswer (s : State) : WriteAnswer × State :=
  match s.sink with
  | .accepts => (.accept, s)
  | .failsAfter 0 taken => (.fail taken, s)
  | .failsAfter (n + 1) taken => (.accept, { s with sink := .failsAfter n taken })
  | .oracle => (Config.sinkAnswer s.draws, { s with draws := s.draws + 1 })

/-- The end of one access of a command. -/
inductive Access where
  /-- The access is made. -/
  | ok (s : State)
  /-- The access raised a stream error; the state holds what it left (R64, R255). -/
  | failed (s : State)
  /-- A counter would exceed its width: the run is not admitted (R12). -/
  | overflow
  deriving DecidableEq, Repr

/-- Append bytes to `OUT` and count them in `ENC_COUNT` (R64); `none` if the count would exceed its width
`P_W_COUNT` (R12, R43). -/
def State.append (s : State) (bytes : List Byte) : Option State :=
  if s.encCount + bytes.length < 2 ^ s.params.wCount then
    some { s with out := s.out ++ bytes, encCount := s.encCount + bytes.length }
  else none

/-- `OutWrite(frame)`: the frame is appended, or a prefix of it is and the write fails (R64). -/
def State.outWrite (s : State) (f : Frame) : Access :=
  match s.sinkAnswer with
  | (.accept, s1) =>
    match s1.append f with
    | some s2 => .ok s2
    | none => .overflow
  | (.fail taken, s1) =>
    match s1.append (f.take taken) with
    | some s2 => .failed s2
    | none => .overflow

/-- The frames of an emission command, one `OutWrite` each, in order, stopping at the first failure
(R146). -/
def State.emit : List Frame → State → Access
  | [], s => .ok s
  | f :: fs, s =>
    match s.outWrite f with
    | .ok s1 => State.emit fs s1
    | .failed s1 => .failed s1
    | .overflow => .overflow

/-! ## The filter (R179) -/

/-- The cleared filter: every cell 0 and the index 0 (R179). -/
def FilterState.cleared : FilterState := ⟨Vector.replicate 55 0, 0⟩

/-! ## The shape of a command -/

/-- How the steps of a command end: it completed or was ended by an error; it waits for the input oracle; or
a counter would exceed its width. -/
inductive Run where
  | done (s : State)
  | waiting (a : Activity) (s : State)
  | overflow
  deriving DecidableEq, Repr

/-- The state a command's steps leave, begun from `s₀`: a completed command is no longer in progress, a
waiting one is (R262); a counter overflow is refused and changes nothing but the mark (R12, R256; log 16). -/
def Run.settle (s₀ : State) : Run → State
  | .done s => { s with running := none }
  | .waiting a s => { s with running := some a }
  | .overflow => s₀.refuse .counterOverflow

/-- The session states a command is admitted in (R94). -/
def sessionOk (i : Instr) (v : Session) : Bool :=
  match i with
  | .openSession => v == .closed
  | .closeSession | .encCount => v == .opened || v == .aborted
  | _ => v == .opened

/-- The session kind a command needs; `none` is any (R94). -/
def modeNeeded : Instr → Option Mode
  | .encFrame | .encSilence | .encCycle | .encPilot | .encByte | .encBlock | .encCount => some .encode
  | .clsSample | .fltClear | .clsPulse | .decReset | .decStep | .decClassify | .decBlock => some .decode
  | _ => none

/-- The session and mode preconditions of R94, checked before any operand is read. -/
def preRefusal (i : Instr) (s : State) : Option Refusal :=
  if sessionOk i s.status.session = false then some .sessionPrecondition
  else
    match modeNeeded i with
    | none => none
    | some m => if s.cfg.mode = m then none else some .modePrecondition

/-- A command as the host's write to `CMD` starts it (R50, R258): refused by its preconditions (R94), then by
its operands (`body` answers an error, R95), and otherwise run; its steps start from the state in which `CMD`
holds its code. -/
def command (i : Instr) (s : State) (body : State → Except Refusal Run) :
    Host.Outcome State Fault Refusal :=
  match preRefusal i s with
  | some r => .next (s.refuse r)
  | none =>
    match body (s.setCmd i) with
    | .error r => .next (s.refuse r)
    | .ok run => .next (run.settle s)

end Sys2Proof.Machine
end

