-- ==== Sys2Proof/Machine/Timing.lean ====
section
/-! DEFINITION. The timing model (spec/40_timing_model.md R110 to R116), the PCM levels (spec/41_encoder.md
R130 to R134), frame encoding (R65), and what `OPEN` derives from the configuration and the parameters
(R117): the derived registers and the wave tables (R135). -/

namespace Sys2Proof.Machine

open Sys2Proof

/-! ## Exact arithmetic -/

/-- `round(q) = floor(q + 1/2)`: a value exactly halfway rounds up (R15). -/
def roundHalfUp (q : Rat) : Int := (q + 1 / 2).floor

/-- `scale(c) = round(c × rate / clk)`: clock cycles to samples (R111). -/
def scale (clk rate c : Nat) : Nat := (roundHalfUp ((c : Rat) * (rate : Rat) / (clk : Rat))).toNat

/-- `unscale(n) = round(n × clk / rate)`: samples to clock cycles (R115). -/
def unscale (clk rate n : Nat) : Nat := (roundHalfUp ((n : Rat) * (clk : Rat) / (rate : Rat))).toNat

/-- `tol(h) = round((h / 2) × rate / clk)`, with `h / 2` exact: the classification tolerance (R113). -/
def tolerance (clk rate h : Nat) : Nat :=
  (roundHalfUp ((h : Rat) / 2 * (rate : Rat) / (clk : Rat))).toNat

/-- `silence(ms) = round(ms × rate / 1000)` frames (R134). -/
def silenceFrames (rate ms : Nat) : Nat := (roundHalfUp ((ms : Rat) * (rate : Rat) / 1000)).toNat

/-! ## Levels (R131 to R133) -/

/-- The integer PCM levels of a volume: high, low and silence. -/
structure Levels where
  hi : Int
  lo : Int
  mid : Int
  deriving DecidableEq, Repr

/-- `levels(v)` at a bit depth: the 8-bit formula is the signed one with `maxScale = 127` and the mid-point
offset 128 (R132); at the signed depths `maxScale = 2^(BITS-1) - 1` (R131); the silence level is the mid-point
(R133). -/
def levels (bits v : Nat) : Levels :=
  if bits = 8 then
    let h := roundHalfUp ((127 : Rat) * (v : Rat) / 100)
    ⟨128 + h, 129 - h, 128⟩
  else
    let hi := roundHalfUp (((2 : Rat) ^ (bits - 1) - 1) * (v : Rat) / 100)
    ⟨hi, -hi + 1, 0⟩

/-- The two's-complement 32-bit image of an integer level (R34, R91). -/
def levelImage (v : Int) : Word := BitVec.ofInt 32 v

/-! ## Frames and wave tables -/

/-- `EncodeFrame(v)`: the level's sample, little-endian, once per channel (R65). -/
def encodeFrame (c : CfgRegs) (v : Word) : Frame :=
  (List.replicate c.channels (bytesOfWord c.sampleBytes v)).flatten

/-- The effective filter order, `min(55, max(2, CFG_FORD[7:0]))` (R40). -/
def filterOrder (request : Nat) : Nat := min 55 (max 2 request)

/-- The sample rate of a valid configuration as a natural number (R24). -/
def CfgRegs.rateNat (c : CfgRegs) : Nat := c.rateHz.toNat

/-- The derived registers `OPEN` computes (R112 to R114, R117, R131 to R134, R35, R40). A count of 2^32 or more is no
refusal here, and is kept as the natural it is: the model's choice (log 25). -/
def derive (p : Params) (c : CfgRegs) : Derived where
  hiS := PerSymbol.tabulate fun s => scale p.clk c.rateNat (p.hiC.get s)
  loS := PerSymbol.tabulate fun s => scale p.clk c.rateNat (p.loC.get s)
  ref := PerSymbol.tabulate fun s =>
    scale p.clk c.rateNat (p.hiC.get s) + scale p.clk c.rateNat (p.loC.get s)
  tol := tolerance p.clk c.rateNat p.hiC.sync
  lvlHi := levelImage (levels c.bits c.volume).hi
  lvlLo := levelImage (levels c.bits c.volume).lo
  lvlMid := levelImage (levels c.bits c.volume).mid
  frameBytes := c.channels * (c.bits / 8)
  leadFrames := silenceFrames c.rateNat p.leadMs
  trailFrames := silenceFrames c.rateNat p.trailMs
  fltOrder := filterOrder c.fltRequest

/-- The frames of one cycle: its low semicycle, then its high semicycle (R135). -/
def cycleFrames (c : CfgRegs) (d : Derived) (s : Symbol) : List Frame :=
  List.replicate (d.loS.get s) (encodeFrame c d.lvlLo) ++ List.replicate (d.hiS.get s) (encodeFrame c d.lvlHi)

/-- The wave tables `OPEN` builds in an ENCODE session (R135). -/
def buildTables (c : CfgRegs) (d : Derived) : WaveTables where
  wt := PerSymbol.tabulate (cycleFrames c d)
  sil := [encodeFrame c d.lvlMid]

end Sys2Proof.Machine
end

