-- ==== Sys2Proof/Machine/Classifier.lean ====
section
/-! DEFINITION. The level classifier, the noise filter and the edge detector (spec/42_classifier.md): the
per-sample pipeline (R170 to R175), and the commands `CLS.SAMPLE`, `FLT.CLEAR` and `CLS.PULSE`. -/

namespace Sys2Proof.Machine

open Sys2Proof

/-! ## The per-sample pipeline (R170) -/

/-- The integer sample of one channel: 8-bit unsigned, otherwise little-endian two's complement (R63). -/
def sampleOf (bits : Nat) (bytes : List Byte) : Int :=
  if bits = 8 then (natOfBytes bytes : Int) else sext bits (natOfBytes bytes)

/-- Normalization of one integer sample to a rational in [-1, 1) (R171). -/
def normalized (bits : Nat) (v : Int) : Rat :=
  if bits = 8 then ((v : Rat) - 128) / 128 else (v : Rat) / 2 ^ (bits - 1)

/-- The left value of a frame: channel 0 (R63, R172). -/
def leftValue (c : CfgRegs) (f : Frame) : Rat := normalized c.bits (sampleOf c.bits (f.take c.sampleBytes))

/-- The right value of a frame: channel 1, or the single channel of mono input (R63, R172). -/
def rightValue (c : CfgRegs) (f : Frame) : Rat :=
  if c.channels = 2 then
    normalized c.bits (sampleOf c.bits ((f.drop c.sampleBytes).take c.sampleBytes))
  else leftValue c f

/-- Channel selection: the mean, the left or the right value (R172). -/
def selectChannel (chsel : Nat) (l r : Rat) : Rat :=
  if chsel = 0 then (l + r) / 2 else if chsel = 1 then l else r

/-- The sum of the first `n` cells of the filter buffer (R173). -/
def FilterState.sum (t : FilterState) (n : Nat) : Rat := (t.buf.toList.take n).sum

/-- One filter step: store at the index, advance it modulo the order, and answer the mean of the cells below
the order (R173). -/
def FilterState.step (t : FilterState) (order : Nat) (x : Rat) : Rat × FilterState :=
  let t1 : FilterState := ⟨t.buf.set t.idx.val x, Fin.ofNat 55 ((t.idx.val + 1) % order)⟩
  (t1.sum order / (order : Rat), t1)

/-- The value of one frame and the state after it: the filter advances once when it is enabled (R170). -/
def State.value (s : State) (f : Frame) : Rat × State :=
  let x := selectChannel s.cfg.chsel (leftValue s.cfg f) (rightValue s.cfg f)
  if s.cfg.filterEn then
    ((s.filter.step s.derived.fltOrder x).1, { s with filter := (s.filter.step s.derived.fltOrder x).2 })
  else (x, s)

/-- The region of a value before inversion: both comparisons are strict (R175). -/
def rawRegion (thr hw y : Rat) : Region :=
  if thr + hw < y then .high else if y < thr - hw then .low else .dead

/-- Inversion swaps HIGH and LOW; DEAD stays DEAD (R175). -/
def Region.swap : Region → Region
  | .dead => .dead
  | .high => .low
  | .low => .high

/-- The region of a value under the session's threshold, half-width and inversion (R175). -/
def region (c : CfgRegs) (y : Rat) : Region :=
  let raw := rawRegion ((c.detect : Rat) / 100) ((c.hyst : Rat) / 100) y
  if c.invert then raw.swap else raw

/-- The region of a consumed frame and the state after its value was taken (R170). -/
def State.classify (s : State) (f : Frame) : Region × State :=
  (region s.cfg (s.value f).1, (s.value f).2)

/-! ## CLS.SAMPLE -/

/-- The one access of `CLS.SAMPLE` (R176): at the end of the stream the code 3 and nothing else; a failing
read aborts the session (R255); an unanswered one leaves the command in progress (R61). -/
def sampleAccess (s : State) : Run :=
  match s.inRead with
  | (.eos, _) => .done (s.setResNat endOfStreamCode)
  | (.failed, _) => .done (s.abort .streamRead)
  | (.pending, _) => .waiting .sample s
  | (.frame f, s1) => .done ((s1.classify f).2.setResNat (s1.classify f).1.code)

/-- `CLS.SAMPLE` (R176). -/
def execClsSample (s : State) : Host.Outcome State Fault Refusal :=
  command .clsSample s fun s => .ok (sampleAccess s)

/-! ## FLT.CLEAR -/

/-- `FLT.CLEAR` (R179). -/
def execFltClear (s : State) : Host.Outcome State Fault Refusal :=
  command .fltClear s fun s => .ok (.done ({ s with filter := FilterState.cleared }.setRes 0#32))

/-! ## CLS.PULSE -/

/-- What one access of a pulse measurement gives (R183). -/
inductive PulseAccess where
  /-- The measurement goes on. -/
  | going (s : State)
  /-- The pulse has its result. -/
  | measured (p : Pulse) (s : State)
  /-- The read failed; nothing changed (R188). -/
  | failed
  /-- The oracle has not answered (R61). -/
  | pending
  /-- `PCNT` would exceed `P_W_PULSE` bits (R12, R182). -/
  | overflow
  deriving DecidableEq, Repr

/-- The start of a measurement: `PH <- SEEK_HIGH; PCNT <- 0` (R182). -/
def State.startPulse (s : State) : State := { s with edge := { s.edge with ph := .seekHigh, pcnt := 0 } }

/-- The phase after a counted sample of the given region, and whether the pulse ends with it (R183; a DEAD
sample never ends a phase, R177). -/
def nextPhase (ph : Phase) (r : Region) : Phase × Bool :=
  match ph, r with
  | .seekHigh, .high => (.seekLow, false)
  | .seekLow, .low => (.idle, true)
  | ph, _ => (ph, false)

/-- `PCNT` would exceed its width (R12). -/
def pcntOverflows (p : Params) (n : Nat) : Bool :=
  match p.wPulse with
  | none => false
  | some w => decide (2 ^ w ≤ n)

/-- One row of the sample-step table of `CLS.PULSE` (R183). -/
def pulseAccess (s : State) : PulseAccess :=
  match s.inRead with
  | (.eos, _) => .measured .eos ((s.setPhase .idle).setPulse .eos)
  | (.failed, _) => .failed
  | (.pending, _) => .pending
  | (.frame f, s1) =>
    let n := s.edge.pcnt + 1
    if pcntOverflows s.params n then .overflow
    else
      let r := (s1.classify f).1
      let s2 := (s1.classify f).2.setPcnt n
      match nextPhase s.edge.ph r with
      | (ph, true) => .measured (.width n) ((s2.setPhase ph).setPulse (.width n))
      | (ph, false) => .going (s2.setPhase ph)

/-- The loop of `CLS.PULSE` over the answers the stream already has: `fuel` bounds the accesses made in one
step, and what is left is made in the next one (R182, R262; log 2). -/
def pulseLoop : Nat → State → Run
  | 0, s => .waiting .pulse s
  | k + 1, s =>
    match pulseAccess s with
    | .going t => pulseLoop k t
    | .measured p t => .done (t.setRes p.image)
    | .failed => .done (s.abort .streamRead)
    | .pending => .waiting .pulse s
    | .overflow => .overflow

/-- Enough accesses for every frame the stream has supplied, and one more for what follows them. -/
def State.readFuel (s : State) : Nat := s.inp.bytes.length + 1

/-- `CLS.PULSE` (R182). -/
def execClsPulse (s : State) : Host.Outcome State Fault Refusal :=
  command .clsPulse s fun s => .ok (pulseLoop s.readFuel s.startPulse)

end Sys2Proof.Machine
end

