-- ==== Sys2Proof/Machine/Decoder.lean ====
section
/-! DEFINITION. The pulse-width FSM decoder (spec/43_decoder.md): windows and classification (R201 to R203),
the transition function (R204, R205), and the block-load commands (R206, R207). -/

namespace Sys2Proof.Machine

open Sys2Proof

/-! ## Windows and classes -/

/-- `match(p, s)`: the width is within the tolerance of the symbol's reference width, inclusive at both ends,
the lower bound over the integers; `EOS` matches nothing (R201, R18). -/
def inWindow (d : Derived) (p : Pulse) (y : Symbol) : Bool :=
  match p with
  | .eos => false
  | .width n => decide ((d.ref.get y : Int) - d.tol ≤ n ∧ (n : Int) ≤ d.ref.get y + d.tol)

/-- The class of a pulse in a decoder state, pilot before sync and bit 0 before bit 1 (R202, R203). -/
def classCode (d : Derived) (v : DState) (p : Pulse) : Nat :=
  if p = .eos then 5
  else
    match v with
    | .searching | .piloting =>
      if inWindow d p .pilot then 1 else if inWindow d p .sync then 2 else 0
    | .loading => if inWindow d p .bit0 then 3 else if inWindow d p .bit1 then 4 else 0
    | .done => 0

/-! ## The transition function -/

/-- `DSTATE <- DONE` with its cause (R48). -/
def State.finish (s : State) (c : DCause) : State := (s.setDState .done).setDCause c

/-- The shift register after one more bit: the first bit ends in bit 7 (R205). -/
def shiftIn (sh : BitVec 8) (b : Bool) : BitVec 8 := BitVec.ofNat 8 (2 * sh.toNat + b.toNat)

/-- A byte has been completed: it is stored if the buffer has capacity, and otherwise the attempt ends and
the byte is not stored (R205, R71). -/
def State.storeByte (s : State) (byte : BitVec 8) : State :=
  if s.dec.count.toNat < s.dec.cap.toNat then
    { s with
      dst := s.dst.write s.dec.count.toNat byte
      dec := { s.dec with shift := 0#8, nbits := 0#4, count := s.dec.count + 1#32 } }
  else { s with dec := { s.dec with shift := byte, nbits := 0#4 } }.finish .overrun

/-- `append(b)`: one bit in LOADING; the eighth bit completes a byte (R205). -/
def State.appendBit (s : State) (b : Bool) : State :=
  if s.dec.nbits + 1#4 = 8#4 then s.storeByte (shiftIn s.dec.shift b)
  else { s with dec := { s.dec with shift := shiftIn s.dec.shift b, nbits := s.dec.nbits + 1#4 } }

/-- The transition of the decoder on one pulse (R204): DONE is terminal; `EOS` ends every other state; else
the source's transition table, with the precedence of R202. -/
def State.decStep (s : State) (p : Pulse) : State :=
  match s.status.dstate with
  | .done => s
  | v =>
    if p = .eos then s.finish .eos
    else
      match v with
      | .searching => if inWindow s.derived p .pilot then s.setDState .piloting else s
      | .piloting =>
        if inWindow s.derived p .pilot then s
        else if inWindow s.derived p .sync then
          { s with dec := { s.dec with shift := 0#8, nbits := 0#4 } }.setDState .loading
        else s.setDState .searching
      | .loading =>
        if inWindow s.derived p .bit0 then s.appendBit false
        else if inWindow s.derived p .bit1 then s.appendBit true
        else s.finish .endMark
      | .done => s

/-! ## The commands -/

/-- The start of a block-load attempt (R206): the decoder registers and nothing of the stream, the filter or
`PULSE` (R282). -/
def State.decReset (s : State) (cap : Word) : State :=
  ({ s with dec := ⟨0#8, 0#4, 0#32, cap⟩ }.setDState .searching).setDCause .notDone

/-- `DEC.RESET` (R206). -/
def execDecReset (s : State) : Host.Outcome State Fault Refusal :=
  command .decReset s fun s => .ok (.done ((s.decReset s.io.arg0).setRes 0#32))

/-- `DEC.STEP` (R204). -/
def execDecStep (s : State) : Host.Outcome State Fault Refusal :=
  command .decStep s fun s =>
    match pulseOperand s.io.arg0 with
    | none => .error .operandNotAdmitted
    | some p => .ok (.done ((s.decStep p).setResNat (s.decStep p).status.dstate.code))

/-- `DEC.CLASSIFY` (R203): no state change but the result. -/
def execDecClassify (s : State) : Host.Outcome State Fault Refusal :=
  command .decClassify s fun s =>
    match pulseOperand s.io.arg0 with
    | none => .error .operandNotAdmitted
    | some p => .ok (.done (s.setResNat (classCode s.derived s.status.dstate p)))

/-- The attempt is over and the destination buffer is the host's again (R71, R295; log 18). -/
def State.giveBackDst (s : State) : State := s.observe (.dstAfter s.dec.cap s.dst)

/-- The end of a block-load attempt: `RES <- DEC_COUNT` (R207). -/
def State.blockDone (s : State) : State := s.giveBackDst.setRes s.dec.count

/-- The end of a block-load attempt by a failing read: DONE with IOFAIL, and the session is aborted (R207,
R255). -/
def State.blockFailed (s : State) : State := ((s.finish .ioFail).abort .streamRead).giveBackDst

/-- The loop of `DEC.BLOCK` over the answers the stream already has: each pulse measured is one decoder step,
and the loop ends in DONE (R207). The pulse goes to the decoder as the value R200 names (log 15). A failing
read ends the attempt with IOFAIL and aborts the session (R255). -/
def blockLoop : Nat → State → Run
  | 0, s => .waiting .block s
  | k + 1, s =>
    match pulseAccess s with
    | .going t => blockLoop k t
    | .measured p t =>
      if (t.decStep p).status.dstate = .done then .done (t.decStep p).blockDone
      else blockLoop k (t.decStep p).startPulse
    | .failed => .done s.blockFailed
    | .pending => .waiting .block s
    | .overflow => .overflow

/-- `DEC.BLOCK` (R207). -/
def execDecBlock (s : State) : Host.Outcome State Fault Refusal :=
  command .decBlock s fun s => .ok (blockLoop s.readFuel ((s.decReset s.io.arg0).startPulse))

end Sys2Proof.Machine
end

