-- ==== Sys2Proof/Machine/Encoder.lean ====
section
/-! DEFINITION. The encoder commands (spec/41_encoder.md R130, R137 to R143, R146). Every emission command
is the list of frames its pseudocode writes, in order, one `OutWrite` each, and the value of `RES` when all
of them are written. -/

namespace Sys2Proof.Machine

open Sys2Proof

/-! ## The frames of each emission -/

/-- The frames of `n` repetitions of a frame list. -/
def repeatFrames (n : Nat) (fs : List Frame) : List Frame := (List.replicate n fs).flatten

/-- The symbol of a bit (R142). -/
def bitSymbol (b : Bool) : Symbol := if b then .bit1 else .bit0

/-- The frames of the 8 bit cycles of a byte, most significant bit first (R142, R68). -/
def byteFrames (t : WaveTables) (b : Byte) : List Frame :=
  (tapeBits b).flatMap fun x => t.wt.get (bitSymbol x)

/-- `bitframes(b)`: the number of frames of a byte's bit cycles (R141). -/
def bitFrames (d : Derived) (b : Byte) : Nat :=
  ((tapeBits b).map fun x => d.ref.get (bitSymbol x)).sum

/-- The frames of a block: pilot tone, one sync cycle, the bytes in increasing order, one end mark (R141). -/
def blockFrames (t : WaveTables) (n : Nat) (bytes : List Byte) : List Frame :=
  repeatFrames n t.wt.pilot ++ t.wt.sync ++ bytes.flatMap (byteFrames t) ++ t.wt.endMark

/-- The number of frames R141 gives a block, from the reference widths. -/
def blockFrameCount (d : Derived) (n : Nat) (bytes : List Byte) : Nat :=
  n * d.ref.pilot + d.ref.sync + (bytes.map (bitFrames d)).sum + d.ref.endMark

/-- What an emission command does: the frames it writes, in order, and the value of `RES` when all of them are
written (R146). -/
structure Emission where
  frames : List Frame
  resBytes : Nat
  deriving DecidableEq, Repr

/-- The emission of each command, on admitted operands (R137 to R142); none for an operand that R95 or R70 does not
admit, and for a command that emits nothing. -/
def emissionOf (i : Instr) (s : State) : Option Emission :=
  match i with
  | .encFrame => (levelSelector s.io.arg0 s.derived).map fun v => ⟨[encodeFrame s.cfg v], s.derived.frameBytes⟩
  | .encSilence => some ⟨repeatFrames s.io.arg0.toNat s.tables.sil, s.io.arg0.toNat * s.derived.frameBytes⟩
  | .encCycle => (symbolOperand s.io.arg0).map fun y => ⟨s.tables.wt.get y, s.derived.ref.get y * s.derived.frameBytes⟩
  | .encPilot => some ⟨repeatFrames s.io.arg0.toNat s.tables.wt.pilot,
      s.io.arg0.toNat * s.derived.ref.pilot * s.derived.frameBytes⟩
  | .encByte => some ⟨byteFrames s.tables (byteOperand s.io.arg0),
      bitFrames s.derived (byteOperand s.io.arg0) * s.derived.frameBytes⟩
  | .encBlock => (srcOperand s.src s.io.arg0 s.io.arg1).map fun bytes =>
      ⟨blockFrames s.tables s.io.arg2.toNat bytes,
        blockFrameCount s.derived s.io.arg2.toNat bytes * s.derived.frameBytes⟩
  | _ => none

/-- The steps of an emission command: the frames are written; if all are, `RES` gets the bytes written,
modulo 2^32; a failing write aborts the session and leaves `RES` (R91, R146, R255). -/
def emission (s : State) (e : Emission) : Run :=
  match s.emit e.frames with
  | .ok t => .done (t.setResNat e.resBytes)
  | .failed t => .done (t.abort .streamWrite)
  | .overflow => .overflow

/-- An emission command; an operand without an emission is refused, for this reason. -/
def emissionCommand (i : Instr) (reason : Refusal) (s : State) : Host.Outcome State Fault Refusal :=
  command i s fun s =>
    match emissionOf i s with
    | none => .error reason
    | some e => .ok (emission s e)

/-! ## The commands -/

/-- `ENC.LEVELS` (R130): the levels of the volume `ARG0` at the session's depth; `LVL_*` is not written, and a
volume above 100 is refused. -/
def execEncLevels (s : State) : Host.Outcome State Fault Refusal :=
  command .encLevels s fun s =>
    if 100 < s.io.arg0.toNat then .error .volumeAbove100
    else
      let l := levels s.cfg.bits s.io.arg0.toNat
      .ok (.done ((s.setRes (levelImage l.hi)).setResHi (levelImage l.lo)))

/-- `ENC.FRAME` (R137); level selector 3 is refused (R95). -/
def execEncFrame (s : State) : Host.Outcome State Fault Refusal := emissionCommand .encFrame .operandNotAdmitted s

/-- `ENC.SILENCE` (R138); every operand is admitted. -/
def execEncSilence (s : State) : Host.Outcome State Fault Refusal := emissionCommand .encSilence .operandNotAdmitted s

/-- `ENC.CYCLE` (R139); a symbol above 4 is refused (R95). -/
def execEncCycle (s : State) : Host.Outcome State Fault Refusal := emissionCommand .encCycle .operandNotAdmitted s

/-- `ENC.PILOT` (R140); every operand is admitted. -/
def execEncPilot (s : State) : Host.Outcome State Fault Refusal := emissionCommand .encPilot .operandNotAdmitted s

/-- `ENC.BYTE` (R142); every operand is admitted. -/
def execEncByte (s : State) : Host.Outcome State Fault Refusal := emissionCommand .encByte .operandNotAdmitted s

/-- `ENC.BLOCK` (R141); a read past the end of `SRC` is refused (R70, R95). -/
def execEncBlock (s : State) : Host.Outcome State Fault Refusal := emissionCommand .encBlock .srcOutOfRange s

/-- `ENC.COUNT` (R143). -/
def execEncCount (s : State) : Host.Outcome State Fault Refusal :=
  command .encCount s fun s =>
    .ok (.done ((s.setResNat s.encCount).setResHi (BitVec.ofNat 32 (s.encCount / 2 ^ 32))))

end Sys2Proof.Machine
end

