-- ==== Sys2Proof/Machine/Session.lean ====
section
/-! DEFINITION. The session and timing commands: `OPEN`, `CLOSE`, `TM.SCALE`, `TM.UNSCALE`, `TM.TOL`
(spec/40_timing_model.md). `OPEN` is the block's reset (R280). -/

namespace Sys2Proof.Machine

open Sys2Proof

/-! ## OPEN -/

/-- The decoder registers as `OPEN` leaves them (R39, R51). -/
def DecRegs.cleared : DecRegs := ⟨0#8, 0#4, 0#32, 0#32⟩

/-- The edge detector as `OPEN` leaves it (R41, R51). -/
def Edge.cleared : Edge := ⟨.idle, 0, .eos⟩

/-- `OPEN` takes the stream of its session kind: the offered `IN` in a DECODE session, a new empty `OUT` with
the offered sink in an ENCODE session; what it took is no longer offered (R78, R117; log 19). -/
def State.takeStream (s : State) : State :=
  match s.cfg.mode with
  | .decode => { s with inp := s.offeredIn, offeredIn := Source.unknown }
  | .encode => { s with out := [], sink := s.offeredSink, offeredSink := .oracle }

/-- The wave tables after `OPEN`: built in an ENCODE session, of unspecified content in a DECODE session
(R51, R135, I6; log 11). -/
def State.openTables (s : State) : State :=
  match s.cfg.mode with
  | .decode => { s with tables := WaveTables.free s.draws, draws := s.draws + 1 }
  | .encode => { s with tables := buildTables s.cfg s.derived }

/-- Every session register at its value "after successful `OPEN`" (R51, R117). -/
def State.openRegisters (s : State) : State :=
  { s with
    derived := derive s.params s.cfg
    filter := FilterState.cleared
    edge := Edge.cleared
    dec := DecRegs.cleared
    status := ⟨.opened, .searching, .notDone, .noError⟩
    inPos := 0
    encCount := 0 }

/-- A successful `OPEN`: the registers, the tables, the stream, and `RES <- 0` (R117). -/
def State.opened (s : State) : State := (s.openRegisters.openTables.takeStream).setRes 0#32

/-- `OPEN` (R117): refused with a configuration register never written (R23); otherwise `STATUS.ERR` is
cleared, and a failing check of R118 leaves its code and nothing else (R251). -/
def execOpen (s : State) : Host.Outcome State Fault Refusal :=
  command .openSession s fun s =>
    if s.cfg.allWritten = false then .error .openUnconfigured
    else
      match s.cfg.configError with
      | some e => .ok (.done (s.setErr e))
      | none => .ok (.done s.opened)

/-! ## CLOSE -/

/-- The stream is closed; in an ENCODE session `OUT` goes back to the host (R78, R120; log 18, log 21). -/
def State.handBack (s : State) : State :=
  match s.cfg.mode with
  | .decode => s
  | .encode => { s.observe (.outBack s.out) with out := [] }

/-- `CLOSE` (R120): the stream is handed back, `RES` gets `ENC_COUNT[31:0]`, the session is CLOSED, and every
other register keeps its value (R283). -/
def execClose (s : State) : Host.Outcome State Fault Refusal :=
  command .closeSession s fun s =>
    .ok (.done (((s.handBack).setResNat s.encCount).setSession .closed))

/-! ## The timing commands -/

/-- A timing result in `RES`; a result of 2^32 or more is refused (R111, R115, R256). -/
def timingResult (s : State) (n : Nat) : Except Refusal Run :=
  if n < 2 ^ 32 then .ok (.done (s.setResNat n)) else .error .resultTooWide

/-- `TM.SCALE` (R111). -/
def execTmScale (s : State) : Host.Outcome State Fault Refusal :=
  command .tmScale s fun s => timingResult s (scale s.params.clk s.cfg.rateNat s.io.arg0.toNat)

/-- `TM.UNSCALE` (R115). -/
def execTmUnscale (s : State) : Host.Outcome State Fault Refusal :=
  command .tmUnscale s fun s => timingResult s (unscale s.params.clk s.cfg.rateNat s.io.arg0.toNat)

/-- `TM.TOL` (R113). -/
def execTmTol (s : State) : Host.Outcome State Fault Refusal :=
  command .tmTol s fun s => timingResult s (tolerance s.params.clk s.cfg.rateNat s.io.arg0.toNat)

end Sys2Proof.Machine
end

