-- ==== Sys2Proof/Machine/Dispatch.lean ====
section
/-! DEFINITION. The dispatch: one arm per command (R92), each one direct call of its meaning. -/

namespace Sys2Proof.Machine

open Sys2Proof

def exec (i : Instr) (s : State) : Host.Outcome State Fault Refusal :=
  match i with
  | .openSession => Sys2Proof.Machine.execOpen s
  | .closeSession => Sys2Proof.Machine.execClose s
  | .tmScale => Sys2Proof.Machine.execTmScale s
  | .tmUnscale => Sys2Proof.Machine.execTmUnscale s
  | .tmTol => Sys2Proof.Machine.execTmTol s
  | .encLevels => Sys2Proof.Machine.execEncLevels s
  | .encFrame => Sys2Proof.Machine.execEncFrame s
  | .encSilence => Sys2Proof.Machine.execEncSilence s
  | .encCycle => Sys2Proof.Machine.execEncCycle s
  | .encPilot => Sys2Proof.Machine.execEncPilot s
  | .encByte => Sys2Proof.Machine.execEncByte s
  | .encBlock => Sys2Proof.Machine.execEncBlock s
  | .encCount => Sys2Proof.Machine.execEncCount s
  | .clsSample => Sys2Proof.Machine.execClsSample s
  | .fltClear => Sys2Proof.Machine.execFltClear s
  | .clsPulse => Sys2Proof.Machine.execClsPulse s
  | .decReset => Sys2Proof.Machine.execDecReset s
  | .decStep => Sys2Proof.Machine.execDecStep s
  | .decClassify => Sys2Proof.Machine.execDecClassify s
  | .decBlock => Sys2Proof.Machine.execDecBlock s

end Sys2Proof.Machine
end

