-- ==== Sys2Proof/Machine/Regs.lean ====
section
/-! DEFINITION. The register map: the index of every register (spec/10_state.md R22 to R50), the host's read
of a register, and the host's write of one (R22, R23, R50). -/

namespace Sys2Proof.Machine

open Sys2Proof

/-- The registers a rule names an index for. -/
inductive Reg where
  | cfgRate
  | cfgFmt
  | cfgVol
  | cfgDet
  | cfgHys
  | cfgFord
  | tmHiS (s : Symbol)
  | tmLoS (s : Symbol)
  | tmRef (s : Symbol)
  | tmTol
  | lvlHi
  | lvlLo
  | lvlMid
  | frameBytes
  | leadFrames
  | trailFrames
  | fltOrder
  | status
  | decCount
  | decShift
  | decCap
  | pulse
  | ph
  | pcnt
  | encCountLo
  | encCountHi
  | inPos
  | cmd
  | arg0
  | arg1
  | arg2
  | arg3
  | res
  | resHi
  deriving DecidableEq, Repr

/-- The number of a symbol (R30). -/
def symbolIndex : Symbol → Nat
  | .pilot => 0
  | .sync => 1
  | .bit0 => 2
  | .bit1 => 3
  | .endMark => 4

/-- The index of each register (R24 to R50). -/
def Reg.index : Reg → Nat
  | .cfgRate => 0x00
  | .cfgFmt => 0x01
  | .cfgVol => 0x02
  | .cfgDet => 0x03
  | .cfgHys => 0x04
  | .cfgFord => 0x05
  | .tmHiS s => 0x40 + symbolIndex s
  | .tmLoS s => 0x48 + symbolIndex s
  | .tmRef s => 0x50 + symbolIndex s
  | .tmTol => 0x58
  | .lvlHi => 0x59
  | .lvlLo => 0x5A
  | .lvlMid => 0x5B
  | .frameBytes => 0x5C
  | .leadFrames => 0x5D
  | .trailFrames => 0x5E
  | .fltOrder => 0x5F
  | .status => 0x60
  | .decCount => 0x61
  | .decShift => 0x62
  | .decCap => 0x63
  | .pulse => 0x64
  | .ph => 0x65
  | .pcnt => 0x66
  | .encCountLo => 0x68
  | .encCountHi => 0x69
  | .inPos => 0x6A
  | .cmd => 0x70
  | .arg0 => 0x71
  | .arg1 => 0x72
  | .arg2 => 0x73
  | .arg3 => 0x74
  | .res => 0x75
  | .resHi => 0x76

/-- The symbols in the order of their numbers (R30). -/
def allSymbols : List Symbol := [.pilot, .sync, .bit0, .bit1, .endMark]

/-- Every register of the map. -/
def Reg.all : List Reg :=
  [.cfgRate, .cfgFmt, .cfgVol, .cfgDet, .cfgHys, .cfgFord]
    ++ allSymbols.map .tmHiS ++ allSymbols.map .tmLoS ++ allSymbols.map .tmRef
    ++ [.tmTol, .lvlHi, .lvlLo, .lvlMid, .frameBytes, .leadFrames, .trailFrames, .fltOrder]
    ++ [.status, .decCount, .decShift, .decCap, .pulse, .ph, .pcnt, .encCountLo, .encCountHi, .inPos]
    ++ [.cmd, .arg0, .arg1, .arg2, .arg3, .res, .resHi]

/-- The register an index names; none for a reserved index (R22). -/
def Reg.ofIndex (idx : Byte) : Option Reg := Reg.all.find? fun r => r.index == idx.toNat

/-! ## Register images -/

/-- The code of a scan phase (R41). -/
def Phase.code : Phase → Nat
  | .idle => 0
  | .seekHigh => 1
  | .seekLow => 2

/-- The value a host reads from a register; none from a configuration register never written, which holds
no value (R23, R31 to R50; log 10, log 14). That the bits 31..2 of index 0x65 and the bits 31..8 of `CMD`, of which
R41 and R50 say nothing, read as 0 is the model's choice (log 24). -/
def State.readReg (s : State) : Reg → Option Word
  | .cfgRate => s.cfg.rate
  | .cfgFmt => s.cfg.fmt
  | .cfgVol => s.cfg.vol
  | .cfgDet => s.cfg.det
  | .cfgHys => s.cfg.hys
  | .cfgFord => s.cfg.ford
  | .tmHiS y => some (image32 (s.derived.hiS.get y))
  | .tmLoS y => some (image32 (s.derived.loS.get y))
  | .tmRef y => some (image32 (s.derived.ref.get y))
  | .tmTol => some (image32 s.derived.tol)
  | .lvlHi => some s.derived.lvlHi
  | .lvlLo => some s.derived.lvlLo
  | .lvlMid => some s.derived.lvlMid
  | .frameBytes => some (image32 s.derived.frameBytes)
  | .leadFrames => some (image32 s.derived.leadFrames)
  | .trailFrames => some (image32 s.derived.trailFrames)
  | .fltOrder => some (image32 s.derived.fltOrder)
  | .status => some s.status.image
  | .decCount => some s.dec.count
  | .decShift => some (BitVec.ofNat 32 (s.dec.shift.toNat + 256 * s.dec.nbits.toNat))
  | .decCap => some s.dec.cap
  | .pulse => some s.edge.pulse.image
  | .ph => some (BitVec.ofNat 32 s.edge.ph.code)
  | .pcnt => some (image32 s.edge.pcnt)
  | .encCountLo => some (BitVec.ofNat 32 s.encCount)
  | .encCountHi => some (BitVec.ofNat 32 (s.encCount / 2 ^ 32))
  | .inPos => some (image32 s.inPos)
  | .cmd => some (s.io.cmd.setWidth 32)
  | .arg0 => some s.io.arg0
  | .arg1 => some s.io.arg1
  | .arg2 => some s.io.arg2
  | .arg3 => some s.io.arg3
  | .res => some s.io.res
  | .resHi => some s.io.resHi

/-- The host's read of a register index: the value and the state after it. A read has no side effect (R72),
but a reserved index answers a free draw (R22, I7; log 12), and a configuration register never written
faults (R23, I11). -/
def State.hostRead (s : State) (idx : Byte) : Except Fault (Word × State) :=
  match Reg.ofIndex idx with
  | none => .ok (Config.reservedRead s.draws, { s with draws := s.draws + 1 })
  | some r =>
    match s.readReg r with
    | some w => .ok (w, s)
    | none => .error (.unwrittenConfigRead idx)

/-! ## Host writes -/

/-- A write of a configuration register: admitted only while the session is CLOSED (R23). -/
def State.writeCfg (s : State) (idx : Byte) (c : CfgRegs) : Host.Outcome State Fault Refusal :=
  if s.status.session = .closed then .next { s with cfg := c } else .next (s.refuse (.configWriteInSession idx))

/-- The host's write of a command word to `CMD`: the command it selects runs; a reserved value is refused and
changes nothing (R50, R92, R93). `CMD` is 8 bits wide: it takes the low byte of the value (log 13). -/
def State.writeCmd (s : State) (v : Word) : Host.Outcome State Fault Refusal :=
  match decode (BitVec.ofNat 8 v.toNat) with
  | .ok i => exec i s
  | .error _ => .next (s.refuse (.reservedCommand (BitVec.ofNat 8 v.toNat)))

/-- The host's write of a register (R22, R23, R50; log 14). -/
def State.hostWrite (s : State) (idx : Byte) (v : Word) : Host.Outcome State Fault Refusal :=
  match Reg.ofIndex idx with
  | none => .next (s.refuse (.reservedRegisterWrite idx))
  | some .cfgRate => s.writeCfg idx { s.cfg with rate := some v }
  | some .cfgFmt => s.writeCfg idx { s.cfg with fmt := some v }
  | some .cfgVol => s.writeCfg idx { s.cfg with vol := some v }
  | some .cfgDet => s.writeCfg idx { s.cfg with det := some v }
  | some .cfgHys => s.writeCfg idx { s.cfg with hys := some v }
  | some .cfgFord => s.writeCfg idx { s.cfg with ford := some v }
  | some .cmd => s.writeCmd v
  | some .arg0 => .next { s with io := { s.io with arg0 := v } }
  | some .arg1 => .next { s with io := { s.io with arg1 := v } }
  | some .arg2 => .next { s with io := { s.io with arg2 := v } }
  | some .arg3 => .next { s with io := { s.io with arg3 := v } }
  | some .res => .next (s.setRes v)
  | some .resHi => .next (s.setResHi v)
  | some _ => .next (s.refuse (.readOnlyRegisterWrite idx))

end Sys2Proof.Machine
end

