-- ==== Sys2Proof/Machine/HostIf.lean ====
section
/-! DEFINITION. The host: its accesses (spec/60_exceptions.md R262, R267), the record-recovery sequencer
(spec/44_record_recovery.md R230 to R235), and the continuation of a command that waits for the input
oracle (R61, R262, R291). -/

namespace Sys2Proof.Machine

open Sys2Proof

/-! ## A command in progress -/

/-- The steps of a command in progress, over what the stream has supplied. -/
def Activity.go (a : Activity) (s : State) : Run :=
  match a with
  | .sample => sampleAccess s
  | .pulse => pulseLoop s.readFuel s
  | .block => blockLoop s.readFuel s

/-- One step of a command in progress: the oracle is asked for the answer it owes, and the command goes on
(R61); an unanswered read leaves it in progress (R291). -/
def Activity.resume (a : Activity) (s : State) : State := (a.go s.askInput).settle s

/-! ## The record sequencer -/

/-- `HDR_SIZE`, the size of a header block (R10, R230). -/
def hdrSize : Nat := 27

/-- The data size the header says: LENGTH, little-endian at bytes 12 and 13, plus 2 (R230, R232, R67). -/
def dataSize (header : List Byte) : Nat :=
  (header.getD 12 0#8).toNat + 256 * (header.getD 13 0#8).toNat + 2

/-- An attempt on a new zero-filled buffer: the sequencer supplies the buffer and writes `ARG0` (R232, R96). -/
def State.attempt (s : State) (cap : Nat) : State :=
  { s with dst := [], io := { s.io with arg0 := BitVec.ofNat 32 cap } }

/-- The sequencer issues `DEC.BLOCK cap` (R232). -/
def State.issueBlock (s : State) (cap : Nat) : Host.Outcome State Fault Refusal := exec .decBlock (s.attempt cap)

/-- The record sequencer, which is the host, reads `STATUS`; what it reads is observed (R9, R295). -/
def State.lookStatus (s : State) : State := s.observe (.regRead (BitVec.ofNat 8 Reg.status.index) s.status.image)

/-- The record sequencer reads `RES` (R9, R295). -/
def State.lookRes (s : State) : State := s.observe (.regRead (BitVec.ofNat 8 Reg.res.index) s.io.res)

/-- An attempt has its result: `REC.RECORD` hands it back; `REC.ALL` collects records, goes on after a
record or a reject, and ends at STOP or IOFAIL with the records collected (R232 to R234). -/
def Sequencer.conclude (q : Sequencer) (s : State) (r : RecResult) : State :=
  if q.all then
    match r with
    | .stop => { s.observe (.recAll true q.records) with seq := none }
    | .ioFail => { s.observe (.recAll false q.records) with seq := none }
    | .reject => { s with seq := some { q with phase := .header } }
    | .record x => { s with seq := some { q with records := q.records ++ [x], phase := .header } }
  else { s.observe (.recRecord r) with seq := none }

/-- What the header attempt gave: 0 bytes stop, fewer than 27 or a size of at most 2 reject, and otherwise
the data attempt follows (R232). -/
def Sequencer.headerResult (q : Sequencer) (s : State) : State :=
  if s.io.res.toNat = 0 then q.conclude s .stop
  else if s.io.res.toNat < hdrSize then q.conclude s .reject
  else
    let h := s.dst.readBytes hdrSize
    if dataSize h ≤ 2 then q.conclude s .reject
    else { s with seq := some { q with phase := .data h (dataSize h) } }

/-- What the data attempt gave: the record, whether or not its buffer was filled (R232). -/
def Sequencer.dataResult (q : Sequencer) (s : State) (header : List Byte) (size : Nat) : State :=
  q.conclude s (.record ⟨header, s.dst.readBytes size, s.io.res.toNat⟩)

/-- What an attempt gave: the sequencer reads `STATUS`, and after an abort the attempt is IOFAIL (R234); else it reads
`RES` and judges it. -/
def Sequencer.judge (q : Sequencer) (s : State) (result : State → State) : State :=
  if s.status.session = .aborted then q.conclude s.lookStatus .ioFail else result s.lookStatus.lookRes

/-- One step of the sequencer (R232 to R234; log 20). It runs only in an open DECODE session: outside one its
`DEC.BLOCK` is refused (R94) and it ends. When its `DEC.BLOCK` is refused for a counter overflow, a run R295 says
nothing of, the model's choice is that the sequencer goes on and judges the `RES` left from before (log 23). -/
def Sequencer.step (q : Sequencer) (s : State) : Host.Outcome State Fault Refusal :=
  match q.phase with
  | .header =>
    match preRefusal .decBlock s with
    | some r => .next { s.refuse r with seq := none }
    | none => ({ s with seq := some { q with phase := .headerDone } }).issueBlock hdrSize
  | .headerDone => .next (q.judge s q.headerResult)
  | .data h size => ({ s with seq := some { q with phase := .dataDone h size } }).issueBlock size
  | .dataDone h size => .next (q.judge s fun t => q.dataResult t h size)

/-! ## The host's accesses -/

/-- One access of the host (R96, R267). That an operand named by a register is a host read, observed, and the write of
its value, both in one step, is the model's choice (log 26). -/
def HostAction.perform (a : HostAction) (s : State) : Host.Outcome State Fault Refusal :=
  match a with
  | .write idx v => s.hostWrite idx v
  | .read idx =>
    match s.hostRead idx with
    | .ok (w, t) => .next (t.observe (.regRead idx w))
    | .error f => .fault f
  | .copy source target =>
    match s.hostRead source with
    | .ok (w, t) => (t.observe (.regRead source w)).hostWrite target w
    | .error f => .fault f
  | .bufRead i => .next (s.observe (.dstRead i (s.dst.read i)))
  | .offerIn source => .next { s with offeredIn := source }
  | .offerOut sink => .next { s with offeredSink := sink }
  | .giveSrc bytes => .next { s with src := bytes }
  | .giveDst bytes => .next { s with dst := Memory.writeBytes [] 0 bytes }
  | .recRecord => .next { s with seq := some ⟨false, [], .header⟩ }
  | .recAll => .next { s with seq := some ⟨true, [], .header⟩ }

/-- One step of the machine: a command in progress goes on, and the host touches nothing meanwhile (R262,
R290); else the sequencer takes its step; else the host's next access is performed; with nothing pending
the block does nothing, since it "acts only on host commands" (R281; log 17). -/
def State.advance (s : State) : Host.Outcome State Fault Refusal :=
  match s.running with
  | some a => .next (a.resume s)
  | none =>
    match s.seq with
    | some q => q.step s
    | none =>
      match s.queue with
      | [] => .next s
      | a :: rest => a.perform { s with queue := rest }

/-- The state in which the host's next access is the write of the command word `w` (log 17). -/
def State.withCommandWord (s : State) (w : Nat) : State :=
  { s with
    running := none
    seq := none
    queue := HostAction.write (BitVec.ofNat 8 Reg.cmd.index) (BitVec.ofNat 32 (w % 256)) :: s.queue }

end Sys2Proof.Machine
end

