-- ==== Sys2Proof/Machine/Step.lean ====
section
/-! DEFINITION. One step of the machine, and the placing of a command word where the next step takes it. -/

namespace Sys2Proof.Machine

open Sys2Proof

/-- One step: what `State.advance` (Machine/HostIf.lean) does. -/
def step (s : State) : Host.Outcome State Fault Refusal := s.advance

/-- `s` with the command word `w` as the host's next access (log 17): a command is one word of 8 bits, so
`nbits` beyond it holds zeros and no further word. -/
def State.withFetchWord (s : State) (_nbits w : Nat) : State := s.withCommandWord w

end Sys2Proof.Machine
end

