-- ==== Sys2Proof/Machine/Access.lean ====
section
/-! DEFINITION. The machine at the grain of spec/70_reset_and_hazards.md R293: one `InRead` or one `OutWrite` a step,
with the states between the accesses of a command. One `step` (Machine/Step.lean) is some number of these steps
(log 2). -/

namespace Sys2Proof.Machine

open Sys2Proof

/-- The machine between two accesses: its state, and what an emission command in progress has still to write. A
reading command in progress is the field `State.running`. -/
structure FineState where
  state : State
  emitting : Option Emission
  deriving DecidableEq, Repr

/-! ## One access -/

/-- The emission after its frames so far: it goes on, or with none left it is complete (R146). -/
def Emission.continue (e : Emission) (s : State) : FineState :=
  match e.frames with
  | [] => ⟨{ s.setResNat e.resBytes with running := none }, none⟩
  | _ :: _ => ⟨s, some e⟩

/-- One `OutWrite` of an emission command: its next frame; a failing one ends it (R146, R255). -/
def Emission.access (e : Emission) (s : State) : FineState :=
  match e.frames with
  | [] => e.continue s
  | f :: fs =>
    match s.outWrite f with
    | .ok t => Emission.continue { e with frames := fs } t
    | .failed t => ⟨{ t.abort .streamWrite with running := none }, none⟩
    | .overflow => ⟨s.refuse .counterOverflow, none⟩

/-- One `InRead` of a reading command: one row of the table of R183, and for `DEC.BLOCK` the decoder step of a
pulse it completes (R207). -/
def Activity.once (a : Activity) (s : State) : Run :=
  match a with
  | .sample => sampleAccess s
  | .pulse => pulseLoop 1 s
  | .block => blockLoop 1 s

/-- One access of a reading command, of which the oracle is asked when it owes the answer (R61). -/
def Activity.access (a : Activity) (s : State) : FineState := ⟨(a.once s.askInput).settle s, none⟩

/-! ## The start of a command -/

/-- The reading commands, and the state in which each makes its first access (R176, R182, R207). -/
def readingOf (i : Instr) (s : State) : Option (Activity × State) :=
  match i with
  | .clsSample => some (.sample, s)
  | .clsPulse => some (.pulse, s.startPulse)
  | .decBlock => some (.block, (s.decReset s.io.arg0).startPulse)
  | _ => none

/-- A command is started: an admitted command that reads or writes a stream is in progress with none of its accesses
made, and every other command is done (R50, R94, R262). -/
def startCommand (i : Instr) (s : State) : Host.Outcome FineState Fault Refusal :=
  let whole : Host.Outcome FineState Fault Refusal :=
    match exec i s with
    | .next t => .next ⟨t, none⟩
    | .fault f => .fault f
    | .refused r => .refused r
  match preRefusal i s with
  | some _ => whole
  | none =>
    match emissionOf i (s.setCmd i) with
    | some e => .next (e.continue (s.setCmd i))
    | none =>
      match readingOf i (s.setCmd i) with
      | some (a, t) => .next ⟨{ t with running := some a }, none⟩
      | none => whole

/-! ## One step -/

/-- The command a write of this word to this register starts (R50, R93). -/
def commandWritten (idx : Byte) (v : Word) : Option Instr :=
  if Reg.ofIndex idx = some .cmd then (decode (BitVec.ofNat 8 v.toNat)).toOption else none

/-- The command an access of the host starts, and the state it starts in; none for an access that starts none. -/
def HostAction.command (a : HostAction) (s : State) : Option (Instr × State) :=
  match a with
  | .write idx v => (commandWritten idx v).map fun i => (i, s)
  | .copy source target =>
    match s.hostRead source with
    | .ok (w, t) => (commandWritten target w).map fun i => (i, t.observe (.regRead source w))
    | .error _ => none
  | _ => none

/-- The attempt the record sequencer issues, and the state it starts in; none where it issues none (R232). -/
def Sequencer.command (q : Sequencer) (s : State) : Option (Instr × State) :=
  match q.phase with
  | .header =>
    match preRefusal .decBlock s with
    | some _ => none
    | none => some (.decBlock, ({ s with seq := some { q with phase := .headerDone } }).attempt hdrSize)
  | .data h size => some (.decBlock, ({ s with seq := some { q with phase := .dataDone h size } }).attempt size)
  | _ => none

/-- The command the next access of the record sequencer or of the host starts. -/
def State.nextCommand (s : State) : Option (Instr × State) :=
  match s.seq with
  | some q => q.command s
  | none =>
    match s.queue with
    | [] => none
    | a :: rest => a.command { s with queue := rest }

/-- One step of R293: the next access of the command in progress; with none in progress the host's next access,
where a command that uses a stream is only started. -/
def fineStep (m : FineState) : Host.Outcome FineState Fault Refusal :=
  match m.emitting with
  | some e => .next (e.access m.state)
  | none =>
    match m.state.running with
    | some a => .next (a.access m.state)
    | none =>
      match m.state.nextCommand with
      | some (i, s) => startCommand i s
      | none =>
        match step m.state with
        | .next t => .next ⟨t, none⟩
        | .fault f => .fault f
        | .refused r => .refused r

/-- `n` steps of one access each. -/
def fineSteps : Nat → FineState → Host.Outcome FineState Fault Refusal
  | 0, m => .next m
  | n + 1, m =>
    match fineStep m with
    | .next m' => fineSteps n m'
    | other => other

end Sys2Proof.Machine
end

