-- ==== Sys2Proof/Machine/Program.lean ====
section
/-! DEFINITION. Host programs as lists of host accesses (spec/30_encoding.md R96, R97): a command line is
register writes, and a pseudo-operation is exactly its expansion. -/

namespace Sys2Proof.Machine

open Sys2Proof

/-- `WR name, value` (R96). -/
def wr (r : Reg) (v : Word) : HostAction := .write (BitVec.ofNat 8 r.index) v

/-- `RD name` (R96). -/
def rd (r : Reg) : HostAction := .read (BitVec.ofNat 8 r.index)

/-- The write that starts a command (R50, R96). -/
def start (i : Instr) : HostAction := wr .cmd (i.code.setWidth 32)

/-- The encoding of a command line: its argument writes in order, then the write to `CMD`; operands left off
leave their registers unchanged (R96). -/
def CmdLine.accesses (l : CmdLine) : List HostAction :=
  (List.zipWith wr [Reg.arg0, Reg.arg1, Reg.arg2] l.args) ++ [start l.instr]

/-- A command line with the given operands. -/
def line (i : Instr) (args : List Word) : List HostAction := CmdLine.accesses ⟨i, args⟩

/-- The number of a symbol as an operand (R96). -/
def symbolWord (y : Symbol) : Word := BitVec.ofNat 32 (symbolIndex y)

/-- The lines of one record of `ENC.SESSION`: header block, data block (R97). -/
def recordLines (p : Params) (r : Word × Word × Word) : List HostAction :=
  line .encBlock [r.1, 27#32, BitVec.ofNat 32 p.pilotHdrN]
    ++ line .encBlock [r.2.1, r.2.2, BitVec.ofNat 32 p.pilotDataN]

/-- `ENC.SILENCE` of the number of frames a register holds: the register is copied to `ARG0` (R97; log 26). -/
def silenceOf (r : Reg) : List HostAction :=
  [.copy (BitVec.ofNat 8 r.index) (BitVec.ofNat 8 Reg.arg0.index), start .encSilence]

/-- The expansion of a pseudo-operation (R97); a pilot count wider than its register gives its low 32 bits
(log 10), and an operand named by a register is a copy to `ARG0` (log 26). -/
def PseudoOp.expand (p : Params) : PseudoOp → List HostAction
  | .encBit b => line .encCycle [symbolWord (bitSymbol b)]
  | .encSync => line .encCycle [symbolWord .sync]
  | .encEndMark => line .encCycle [symbolWord .endMark]
  | .encHeader off => line .encBlock [off, 27#32, BitVec.ofNat 32 p.pilotHdrN]
  | .encData off len => line .encBlock [off, len, BitVec.ofNat 32 p.pilotDataN]
  | .encSession recs =>
    silenceOf .leadFrames ++ recs.flatMap (recordLines p) ++ silenceOf .trailFrames
  | .decPulseStep =>
    [start .clsPulse, .copy (BitVec.ofNat 8 Reg.res.index) (BitVec.ofNat 8 Reg.arg0.index), start .decStep]

end Sys2Proof.Machine
end

