-- ==== Sys2Proof/Machine/RunEnd.lean ====
section
/-! DEFINITION. The end of a run and its observation (spec/70_reset_and_hazards.md R295; log 18). -/

namespace Sys2Proof.Machine

open Sys2Proof

/-- The run has ended: the host program is over, its record sequencer too, no command is in progress, and the session
is CLOSED (R295). -/
def State.hasEnded (s : State) : Bool :=
  s.queue.isEmpty && s.seq.isNone && s.running.isNone && s.status.session == .closed

/-- What R295 observes of all that is recorded: every `OUT` handed back, every `DST` after its `DEC.BLOCK`, and every
`RES` and `STATUS` value the host read, its record sequencer included. What the sequencer makes of them (its results)
and other reads are recorded beside it (log 18). -/
def Observation.ofRun : Observation → Bool
  | .outBack _ | .dstAfter _ _ => true
  | .regRead index _ => index.toNat == Reg.res.index || index.toNat == Reg.status.index
  | .dstRead _ _ | .recRecord _ | .recAll _ _ => false

/-- The observation of a run: what the host got back, the refusal mark (R256) and the fault mark (R257). -/
structure RunObservation where
  got : List Observation
  refusal : Option Refusal
  fault : Option Fault
  deriving DecidableEq, Repr

/-- What a run has shown so far. -/
def State.shown (s : State) (fault : Option Fault) : RunObservation := ⟨s.obs.filter Observation.ofRun, s.refusal, fault⟩

/-- The observation of the run from `s`, if it ends within `n` steps; a run that does not end has none (R291,
R295). A fault ends the run with its mark. -/
def State.observeRun : Nat → State → Option RunObservation
  | 0, s => if s.hasEnded then some (s.shown none) else none
  | n + 1, s =>
    if s.hasEnded then some (s.shown none)
    else
      match step s with
      | .next t => State.observeRun n t
      | .fault f => some (s.shown (some f))
      | .refused _ => none

end Sys2Proof.Machine
end

