-- ==== Sys2Proof/Safety.lean ====
section
/-! DEFINITION. The terms the statements use: admitted runs (spec/60_exceptions.md R256, R295), the invariants
every step keeps, and the plain mathematical descriptions the instructions' results are compared with. -/

namespace Sys2Proof.Safety

open Sys2Proof Sys2Proof.Machine

/-! ## Invariants -/

/-- No host action has been refused so far: the run is one the spec speaks of (R256, R295). -/
abbrev Admitted (s : State) : Prop := s.refusal = none

/-- The destination memory has its canonical form. -/
abbrev MemoryCanonical (s : State) : Prop := Memory.wf s.dst = true

/-- Outside CLOSED, the configuration passed the checks of `OPEN`, the derived registers are what `OPEN`
computes from it, and in an ENCODE session so are the wave tables: they are constant for the session (R23,
R118, R119, R77). -/
abbrev SessionConstants (s : State) : Prop :=
  s.status.session ≠ .closed →
    s.cfg.allWritten = true ∧ s.cfg.configError = none ∧ s.derived = derive s.params s.cfg ∧
      (s.cfg.mode = .encode → s.tables = buildTables s.cfg s.derived)

/-- The error code agrees with the session: none while OPEN, a stream error while ABORTED (R49, R255, R261). -/
abbrev ErrorAgrees (s : State) : Prop :=
  (s.status.session = .opened → s.status.err = .noError) ∧
    (s.status.session = .aborted → s.status.err = .streamRead ∨ s.status.err = .streamWrite)

/-- A command is in progress only in an open DECODE session: only a read can block (R61, R94). -/
abbrev ProgressAgrees (s : State) : Prop :=
  s.running ≠ none → s.status.session = .opened ∧ s.cfg.mode = .decode

/-- The session invariant. -/
abbrev SessionInv (s : State) : Prop := SessionConstants s ∧ ErrorAgrees s ∧ ProgressAgrees s

/-- The bounds of R209: outside CLOSED, `DEC_COUNT ≤ DEC_CAP` and `DEC_NBITS ≤ 7`. -/
abbrev DecoderBounds (s : State) : Prop :=
  s.status.session ≠ .closed → s.dec.count.toNat ≤ s.dec.cap.toNat ∧ s.dec.nbits.toNat ≤ 7

/-- In an ENCODE session `ENC_COUNT` is the number of bytes of `OUT` (R43, R64, R145). -/
abbrev OutputCounted (s : State) : Prop :=
  s.status.session ≠ .closed → s.cfg.mode = .encode → s.encCount = s.out.length

/-- In an open ENCODE session `OUT` holds whole frames (R69, R145). -/
abbrev WholeFrames (s : State) : Prop :=
  s.status.session = .opened → s.cfg.mode = .encode → s.derived.frameBytes ∣ s.out.length

/-! ## Rounding -/

/-- `n` is `round(num / den)`, the integer form of `floor(num/den + 1/2)` (R15). -/
abbrev HalfUp (num den n : Nat) : Prop := 2 * den * n ≤ 2 * num + den ∧ 2 * num + den < 2 * den * (n + 1)

/-! ## The shape of a command's effect -/

/-- A command of an open session of the given kind is admitted (R94). -/
abbrev Ready (m : Mode) (s : State) : Prop := s.status.session = .opened ∧ s.cfg.mode = m

/-- `s` after command `i` was admitted and has ended: `CMD` holds its code and nothing is in progress; a
command's effect is stated as an update of this state. -/
def ran (i : Instr) (s : State) : State := { s.setCmd i with running := none }

/-- The sink after accepting `n` more writes; none if it fails one of them or its answers are not known. -/
def sinkAfter (n : Nat) : Sink → Option Sink
  | .accepts => some .accepts
  | .failsAfter k taken => if n ≤ k then some (.failsAfter (k - n) taken) else none
  | .oracle => none

/-- `ENC_COUNT` does not exceed its width when these frames are written (R12). -/
abbrev CountFits (s : State) (fs : List Frame) : Prop :=
  s.encCount + fs.flatten.length < 2 ^ s.params.wCount

/-- `s` with these frames appended to `OUT` and counted (R64), the sink as given. -/
def wrote (s : State) (fs : List Frame) (sink : Sink) : State :=
  { s with out := s.out ++ fs.flatten, encCount := s.encCount + fs.flatten.length, sink := sink }

/-- The frames an emission command writes when it completes (R137 to R142), for admitted operands. -/
def emissionFrames (i : Instr) (s : State) : Option (List Frame) := (emissionOf i s).map (·.frames)

/-! ## Reading a stream of frames -/

/-- The regions of consecutive frames and the state after they were classified: the filter advances once a
frame (R170). -/
def scanRegions (s : State) : List Frame → List Region × State
  | [] => ([], s)
  | f :: fs => ((s.classify f).1 :: (scanRegions (s.classify f).2 fs).1, (scanRegions (s.classify f).2 fs).2)

/-- These frames are the next ones of `IN`, and `rest` follows them. -/
abbrev NextFrames (s : State) (fs : List Frame) (rest : List Byte) : Prop :=
  s.inp.bytes = fs.flatten ++ rest ∧ ∀ f ∈ fs, f.length = s.derived.frameBytes

/-- `PCNT` does not exceed its width over `n` samples (R12). -/
abbrev PcntFits (s : State) (n : Nat) : Prop := pcntOverflows s.params n = false

/-- Regions that complete no pulse and leave the scan in the given phase: no HIGH at all, or a first HIGH
with no LOW after it (R182, R183). -/
abbrev ScansTo (ph : Phase) (rs : List Region) : Prop :=
  (ph = .seekHigh ∧ Region.high ∉ rs) ∨
    (ph = .seekLow ∧ ∃ a b, rs = a ++ Region.high :: b ∧ Region.high ∉ a ∧ Region.low ∉ b)

/-- Regions that are exactly one pulse: up to and including the first LOW after the first HIGH (R182). -/
abbrev OnePulse (rs : List Region) : Prop :=
  ∃ a b, rs = a ++ Region.high :: (b ++ [Region.low]) ∧ Region.high ∉ a ∧ Region.low ∉ b

/-- The widths of the pulses a region sequence completes, from a phase and a count (R182, R183). -/
def pulseWidths : Phase → Nat → List Region → List Nat
  | _, _, [] => []
  | ph, n, r :: rs =>
    match nextPhase ph r with
    | (_, true) => (n + 1) :: pulseWidths .seekHigh 0 rs
    | (ph', false) => pulseWidths ph' (n + 1) rs

/-- `s` with `n` frames read, leaving these bytes. -/
def readFrames (s : State) (n : Nat) (rest : List Byte) : State :=
  { s with inp := { s.inp with bytes := rest }, inPos := s.inPos + n }

/-- A block-load attempt after these complete pulses: `DEC.RESET`, and one decoder transition on each width (R207). -/
def afterPulses (s : State) (pulses : List (List Region)) : State :=
  (pulses.map fun p => Pulse.width p.length).foldl State.decStep ((ran .decBlock s).decReset s.io.arg0)

/-- The region of a frame when the filter is disabled (R170). -/
def frameRegion (c : CfgRegs) (f : Frame) : Region :=
  region c (selectChannel c.chsel (leftValue c f) (rightValue c f))

/-- The stream is clean (R185): with the filter disabled, the encoder's frames fall in their regions. -/
abbrev CleanLevels (c : CfgRegs) (d : Derived) : Prop :=
  c.filterEn = false ∧ frameRegion c (encodeFrame c d.lvlLo) = .low ∧
    frameRegion c (encodeFrame c d.lvlHi) = .high ∧ frameRegion c (encodeFrame c d.lvlMid) = .dead

/-! ## Encoder cycles and windows -/

/-- The frames of one cycle of a symbol: the low semicycle, then the high one (R135). -/
def symbolCycle (s : State) (y : Symbol) : List Frame :=
  List.replicate (s.derived.loS.get y) (encodeFrame s.cfg s.derived.lvlLo) ++
    List.replicate (s.derived.hiS.get y) (encodeFrame s.cfg s.derived.lvlHi)

/-- The cycles of a byte, most significant bit first (R142). -/
def byteCycles (s : State) (b : Byte) : List Frame :=
  [7, 6, 5, 4, 3, 2, 1, 0].flatMap fun j => symbolCycle s (if b.getLsbD j then .bit1 else .bit0)

/-- `bitframes(b)` (R141). -/
def byteWidth (d : Derived) (b : Byte) : Nat :=
  ([7, 6, 5, 4, 3, 2, 1, 0].map fun j => if b.getLsbD j then d.ref.bit1 else d.ref.bit0).sum

/-- The window of a symbol, over the integers (R201). -/
def Matches (d : Derived) (p : Nat) (y : Symbol) : Prop :=
  (d.ref.get y : Int) - d.tol ≤ p ∧ (p : Int) ≤ d.ref.get y + d.tol

end Sys2Proof.Safety
end

