-- ==== Sys2Proof/Certificates/Slice0/Obligations.lean ====
section
/-! DEFINITION. The statements about the model, each a formal reading of rules of spec/ (OBLIGATIONS.json
gives the rules). `ran i s` is `s` after the admitted command `i` has ended, before its effect is written
(Safety.lean); an equation `exec i s = .next t` states the result, that the command completes, and its whole
frame. -/

open Sys2Proof Sys2Proof.Machine Sys2Proof.Safety

/-! ## Encoding and fetching -/

/-- Decoding and encoding agree over whole programs, in both directions (R90, R92, R99): the commands of a
byte sequence are `is` exactly when the bytes are the words of `is`. -/
def Obligations.DecodeEncodePrograms : Prop :=
  ∀ (is : List Instr) (ws : List Byte),
    (∀ i ∈ is, i.wellFormed = true) → (decodeProgram ws = .ok is ↔ ws = is.flatMap encode)

/-- A few words of R92, one per family, written out from `FAM` and `OP` (R90). -/
def Obligations.WordsSelectTheirRows : Prop :=
  decode 0b00000001#8 = .ok .openSession ∧ decode 0b00010110#8 = .ok .encBlock ∧
    decode 0b00100010#8 = .ok .clsPulse ∧ decode 0b00110011#8 = .ok .decBlock

/-- The host's write of a command word runs the command it decodes to, on the state without that access
(R50, R92, R262); a word placed by `withFetchWord` is such a write. That host accesses stand in a queue, that a
refusal uses one up, and that `CMD` takes the low 8 bits of any written word are the model's choices (log 17, log 1,
log 13). -/
def Obligations.StepRunsDecodedCommand : Prop :=
  (∀ (s : State) (v : Word) (rest : List HostAction) (i : Instr),
    s.running = none → s.seq = none → s.queue = .write 0x70#8 v :: rest →
      decode (BitVec.ofNat 8 v.toNat) = .ok i → step s = exec i { s with queue := rest }) ∧
  ∀ (s : State) (i : Instr),
    step (s.withFetchWord 8 i.code.toNat) = exec i { s with running := none, seq := none }

/-- A reserved command value is refused: the refusal mark is set and no other state changes (R93). That the host's
access is used up, and that the command value of a word is its low 8 bits, are the model's choices (log 1, log 17,
log 13). -/
def Obligations.ReservedCommandRefused : Prop :=
  ∀ (s : State) (v : Word) (rest : List HostAction),
    s.running = none → s.seq = none → s.queue = .write 0x70#8 v :: rest →
      (let w := v.toNat % 256
       w = 0x00 ∨ (0x06 ≤ w ∧ w ≤ 0x0F) ∨ (0x18 ≤ w ∧ w ≤ 0x1F) ∨ (0x23 ≤ w ∧ w ≤ 0x2F) ∨ 0x34 ≤ w) →
      ∃ t, step s = .next t ∧ t.refusal ≠ none ∧ t.queue = rest ∧
        { t with refusal := s.refusal, queue := s.queue } = s

/-! ## Preconditions and refusals -/

/-- The session and mode preconditions of R94, for every command: one that fails refuses the command. -/
def Obligations.PreconditionsRefuse : Prop :=
  ∀ s : State,
    (s.status.session ≠ .closed → exec .openSession s = .next (s.refuse .sessionPrecondition)) ∧
    (∀ i ∈ [Instr.closeSession, .encCount],
      s.status.session = .closed → exec i s = .next (s.refuse .sessionPrecondition)) ∧
    (∀ i ∈ [Instr.tmScale, .tmUnscale, .tmTol, .encLevels, .encFrame, .encSilence, .encCycle, .encPilot, .encByte,
        .encBlock, .clsSample, .fltClear, .clsPulse, .decReset, .decStep, .decClassify, .decBlock],
      s.status.session ≠ .opened → exec i s = .next (s.refuse .sessionPrecondition)) ∧
    (∀ i ∈ [Instr.encFrame, .encSilence, .encCycle, .encPilot, .encByte, .encBlock],
      s.status.session = .opened → s.cfg.mode = .decode → exec i s = .next (s.refuse .modePrecondition)) ∧
    (s.status.session ≠ .closed → s.cfg.mode = .decode →
      exec .encCount s = .next (s.refuse .modePrecondition)) ∧
    (∀ i ∈ [Instr.clsSample, .fltClear, .clsPulse, .decReset, .decStep, .decClassify, .decBlock],
      s.status.session = .opened → s.cfg.mode = .encode → exec i s = .next (s.refuse .modePrecondition))

/-- Operand values a command does not admit are refused (R95): level selector 3, a symbol above 4, source
bytes past the end of `SRC` (R70), an `EOS` image with width bits. And a counter that would exceed its width is refused
(R12, R256): `ENC_COUNT` by a frame an emission command writes, or by the part of a failing frame; `PCNT` by a frame
that `CLS.PULSE` or `DEC.BLOCK`, after complete pulses, would count. That nothing the command did before is kept is
the model's choice (log 16). -/
def Obligations.OperandsAndOverflowsRefused : Prop :=
  (∀ s : State, s.status.session = .opened →
    (s.cfg.mode = .encode → s.io.arg0.toNat % 4 = 3 →
      exec .encFrame s = .next (s.refuse .operandNotAdmitted)) ∧
    (s.cfg.mode = .encode → 4 < s.io.arg0.toNat % 8 →
      exec .encCycle s = .next (s.refuse .operandNotAdmitted)) ∧
    (s.cfg.mode = .encode → s.src.length < s.io.arg0.toNat + s.io.arg1.toNat →
      exec .encBlock s = .next (s.refuse .srcOutOfRange)) ∧
    (s.cfg.mode = .decode → s.io.arg0.getLsbD 31 = true → s.io.arg0.toNat % 2 ^ 31 ≠ 0 →
      exec .decStep s = .next (s.refuse .operandNotAdmitted) ∧
      exec .decClassify s = .next (s.refuse .operandNotAdmitted))) ∧
  (∀ (i : Instr) (s : State) (fs : List Frame) (k : Nat) (f : Frame), Ready .encode s →
    emissionFrames i s = some fs → fs[k]? = some f → sinkAfter (k + 1) s.sink ≠ none →
    ¬CountFits s (fs.take (k + 1)) → exec i s = .next (s.refuse .counterOverflow)) ∧
  (∀ (i : Instr) (s : State) (fs : List Frame) (k taken : Nat) (f : Frame), Ready .encode s →
    emissionFrames i s = some fs → s.sink = .failsAfter k taken → fs[k]? = some f →
    ¬CountFits s (fs.take k ++ [f.take taken]) → exec i s = .next (s.refuse .counterOverflow)) ∧
  ∀ (s : State) (fs : List Frame) (f : Frame) (rest : List Byte) (pulses : List (List Region)) (tail : List Region)
    (ph : Phase), Ready .decode s → 0 < s.derived.frameBytes → NextFrames s (fs ++ [f]) rest →
    (scanRegions s fs).1 = pulses.flatten ++ tail → (∀ p ∈ pulses, OnePulse p ∧ PcntFits s p.length) →
    ScansTo ph tail → PcntFits s tail.length → ¬PcntFits s (tail.length + 1) →
    (pulses = [] → exec .clsPulse s = .next (s.refuse .counterOverflow)) ∧
    ((afterPulses s pulses).status.dstate ≠ .done → exec .decBlock s = .next (s.refuse .counterOverflow))

/-- A refusal mark, once set, is kept by every step with its first reason, and a refusal changes nothing but
the mark (R256; that the first reason is the one kept is the model's choice, log 1). -/
def Obligations.RefusalMarkIsKept : Prop :=
  (∀ (s t : State) (r : Refusal), step s = .next t → s.refusal = some r → t.refusal = some r) ∧
  ∀ (s : State) (r : Refusal),
    (s.refuse r).refusal ≠ none ∧ { s.refuse r with refusal := s.refusal } = s

/-! ## The session -/

/-- `OPEN` with a configuration register never written is refused (R23). Otherwise it makes the checks of R118
in their order; the first failing one is reported in `STATUS.ERR`, the session stays CLOSED, `RES` is not
written and nothing else changes (R251). That it opens where a derived count is 2^32 or more is the model's choice
(log 25). -/
def Obligations.OpenReportsFirstFailingCheck : Prop :=
  (∀ s : State, s.status.session = .closed →
    (s.cfg.rate = none ∨ s.cfg.fmt = none ∨ s.cfg.vol = none ∨ s.cfg.det = none ∨ s.cfg.hys = none ∨
      s.cfg.ford = none) →
    exec .openSession s = .next (s.refuse .openUnconfigured)) ∧
  ∀ (s : State) (rate fmt vol det hys ford : Word),
    s.status.session = .closed →
    s.cfg = ⟨some rate, some fmt, some vol, some det, some hys, some ford⟩ →
    let bits := (fmt.extractLsb' 0 6).toNat
    let channels := (fmt.extractLsb' 8 2).toNat
    let chsel := (fmt.extractLsb' 10 2).toNat
    let volume := (vol.extractLsb' 0 8).toNat
    let detect := (det.extractLsb' 0 8).toInt
    let hyst := (hys.extractLsb' 0 8).toNat
    let fails (e : ErrCode) : Prop := exec .openSession s = .next ((ran .openSession s).setErr e)
    let c1 := 0 < rate.toInt
    let c2 := bits = 8 ∨ bits = 16 ∨ bits = 24 ∨ bits = 32
    let c3 := channels = 1 ∨ channels = 2
    let c4 := chsel ≠ 3
    let c5 := volume ≤ 100
    let c6 := -100 ≤ detect ∧ detect ≤ 100
    let c7 := hyst ≤ 100
    (¬c1 → fails .cfgRate) ∧ (c1 → ¬c2 → fails .cfgBits) ∧ (c1 → c2 → ¬c3 → fails .cfgChannels) ∧
    (c1 → c2 → c3 → ¬c4 → fails .cfgChsel) ∧ (c1 → c2 → c3 → c4 → ¬c5 → fails .cfgVolume) ∧
    (c1 → c2 → c3 → c4 → c5 → ¬c6 → fails .cfgDetect) ∧
    (c1 → c2 → c3 → c4 → c5 → c6 → ¬c7 → fails .cfgHyst) ∧
    (c1 → c2 → c3 → c4 → c5 → c6 → c7 → ∃ t, exec .openSession s = .next t ∧ t.status.session = .opened)

/-- A successful `OPEN` (R117, R51): every session register at its value after `OPEN`, the stream taken, `RES`
0; the configuration, the arguments, the buffers and the parameters are unchanged. That it succeeds where a derived
count is 2^32 or more is the model's choice (log 25). -/
def Obligations.OpenEstablishesSession : Prop :=
  ∀ s : State, s.status.session = .closed → s.cfg.allWritten = true → s.cfg.configError = none →
    ∃ t, exec .openSession s = .next t ∧
      t.status = ⟨.opened, .searching, .notDone, .noError⟩ ∧
      t.derived = derive s.params s.cfg ∧
      (s.cfg.mode = .encode → t.tables = buildTables s.cfg t.derived ∧ t.out = [] ∧ t.sink = s.offeredSink ∧
        t.inp = s.inp) ∧
      (s.cfg.mode = .decode → t.inp = s.offeredIn ∧ t.out = s.out ∧ t.sink = s.sink) ∧
      (∀ i : Fin 55, t.filter.buf[i] = 0) ∧ t.filter.idx = 0 ∧
      t.edge = ⟨.idle, 0, .eos⟩ ∧ t.dec = ⟨0#8, 0#4, 0#32, 0#32⟩ ∧ t.inPos = 0 ∧ t.encCount = 0 ∧
      t.io = { s.io with cmd := 0x01#8, res := 0#32 } ∧ t.running = none ∧
      t.params = s.params ∧ t.cfg = s.cfg ∧ t.src = s.src ∧ t.dst = s.dst ∧ t.obs = s.obs ∧
      t.queue = s.queue ∧ t.seq = s.seq ∧ t.refusal = s.refusal

/-- `CLOSE` (R120, R78): `RES` gets `ENC_COUNT[31:0]` and the session is CLOSED; an ENCODE session hands `OUT`
back to the host; every other register keeps its value (that `OUT` is empty afterwards, and that the closed
input keeps its bytes, are the model's choices, log 21). After the last `CLOSE` of a host program the run has ended:
it has ended exactly where nothing is pending or in progress and the session is CLOSED, nothing moves any more, and
its observation is what the host got back (R295; log 18). -/
def Obligations.CloseCompletes : Prop :=
  (∀ s : State, s.status.session = .opened ∨ s.status.session = .aborted →
    (s.cfg.mode = .decode → exec .closeSession s =
      .next (((ran .closeSession s).setRes (BitVec.ofNat 32 s.encCount)).setSession .closed)) ∧
    (s.cfg.mode = .encode → exec .closeSession s =
      .next (({ ran .closeSession s with out := [], obs := s.obs ++ [Observation.outBack s.out] }.setRes
        (BitVec.ofNat 32 s.encCount)).setSession .closed)) ∧
    (s.queue = [] → s.seq = none → ∃ t, exec .closeSession s = .next t ∧ t.hasEnded = true)) ∧
  (∀ s : State, s.hasEnded = true ↔
    s.queue = [] ∧ s.seq = none ∧ s.running = none ∧ s.status.session = .closed) ∧
  ∀ (s : State) (n : Nat), s.hasEnded = true → step s = .next s ∧
    s.observeRun n = some ⟨s.obs.filter Observation.ofRun, s.refusal, none⟩

/-- ABORTED is left only by `CLOSE` (R261): after any step from an aborted session it is still aborted, or the
step was the host's `CLOSE` and it is CLOSED. -/
def Obligations.AbortedLeftOnlyByClose : Prop :=
  ∀ s t : State, SessionInv s → step s = .next t → s.status.session = .aborted →
    t.status.session = .aborted ∨ (t.status.session = .closed ∧ t.io.cmd = Instr.code .closeSession)

/-! ## Timing -/

/-- The derived registers after a successful `OPEN` are the rounded quotients of R112, R114 and R134, `TM_TOL` is
that of R113, `FRAME_BYTES` and `FLT_ORDER` are those of R35 and R40, and `LVL_HI`, `LVL_LO` and `LVL_MID` are the
32-bit images (R34) of the levels of R131 to R133: `(2·maxScale·v + 100) / 200` is `round(maxScale·v/100)`.
That a count of 2^32 or more is kept, and `OPEN` not refused, is the model's choice (log 25). -/
def Obligations.OpenRoundsDerivedRegisters : Prop :=
  ∀ s : State, s.status.session = .closed → s.cfg.allWritten = true → s.cfg.configError = none →
    0 < s.params.clk →
    ∃ t, exec .openSession s = .next t ∧
      let d := t.derived
      let rate := s.cfg.rateHz.toNat
      let v := s.cfg.volume
      (∀ y, HalfUp (s.params.hiC.get y * rate) s.params.clk (d.hiS.get y) ∧
        HalfUp (s.params.loC.get y * rate) s.params.clk (d.loS.get y) ∧
        d.ref.get y = d.hiS.get y + d.loS.get y) ∧
      HalfUp (s.params.hiC.sync * rate) (2 * s.params.clk) d.tol ∧
      HalfUp (s.params.leadMs * rate) 1000 d.leadFrames ∧ HalfUp (s.params.trailMs * rate) 1000 d.trailFrames ∧
      d.frameBytes = s.cfg.channels * (s.cfg.bits / 8) ∧ d.fltOrder = min 55 (max 2 s.cfg.fltRequest) ∧
      (s.cfg.bits = 8 →
        let h : Int := (2 * 127 * v + 100) / 200
        d.lvlHi = BitVec.ofInt 32 (128 + h) ∧ d.lvlLo = BitVec.ofInt 32 (129 - h) ∧ d.lvlMid = 128#32) ∧
      (s.cfg.bits ≠ 8 →
        let m : Int := 2 ^ (s.cfg.bits - 1) - 1
        let hi : Int := (2 * m * v + 100) / 200
        d.lvlHi = BitVec.ofInt 32 hi ∧ d.lvlLo = BitVec.ofInt 32 (-hi + 1) ∧ d.lvlMid = 0#32)

/-- `TM.SCALE` (R111): `RES` is `round(ARG0 × CFG_RATE / P_CLK)` and no other register changes; a result of
2^32 or more is refused. -/
def Obligations.TmScaleRounds : Prop :=
  Instr.code .tmScale = 0x03#8 ∧
  ∀ (s : State) (n : Nat), s.status.session = .opened → 0 < s.params.clk → 0 < s.cfg.rateHz →
    HalfUp (s.io.arg0.toNat * s.cfg.rateHz.toNat) s.params.clk n →
    exec .tmScale s =
      .next (if n < 2 ^ 32 then (ran .tmScale s).setRes (BitVec.ofNat 32 n) else s.refuse .resultTooWide)

/-- `TM.UNSCALE` (R115): `RES` is `round(ARG0 × P_CLK / CFG_RATE)`; a result of 2^32 or more is refused. -/
def Obligations.TmUnscaleRounds : Prop :=
  Instr.code .tmUnscale = 0x04#8 ∧
  ∀ (s : State) (n : Nat), s.status.session = .opened → 0 < s.params.clk → 0 < s.cfg.rateHz →
    HalfUp (s.io.arg0.toNat * s.params.clk) s.cfg.rateHz.toNat n →
    exec .tmUnscale s =
      .next (if n < 2 ^ 32 then (ran .tmUnscale s).setRes (BitVec.ofNat 32 n) else s.refuse .resultTooWide)

/-- `TM.TOL` (R113): `RES` is `round((ARG0 / 2) × CFG_RATE / P_CLK)` with an exact half; a result of 2^32 or
more is refused (R91). -/
def Obligations.TmTolRoundsExactHalf : Prop :=
  ∀ (s : State) (n : Nat), s.status.session = .opened → 0 < s.params.clk → 0 < s.cfg.rateHz →
    HalfUp (s.io.arg0.toNat * s.cfg.rateHz.toNat) (2 * s.params.clk) n →
    exec .tmTol s =
      .next (if n < 2 ^ 32 then (ran .tmTol s).setRes (BitVec.ofNat 32 n) else s.refuse .resultTooWide)

/-- Timing stability (R116): with a clock at least the sample rate, samples to cycles to samples is the
identity, so cycles to samples to cycles to samples has no drift. -/
def Obligations.TimingStability : Prop :=
  ∀ clk rate n c : Nat, 0 < rate → rate ≤ clk →
    scale clk rate (unscale clk rate n) = n ∧
      scale clk rate (unscale clk rate (scale clk rate c)) = scale clk rate c

/-! ## Levels and frames -/

/-- The levels of R131 to R133 in integers: `(2·maxScale·v + 100) / 200` is `round(maxScale·v/100)`. -/
def Obligations.LevelsFollowFormulas : Prop :=
  ∀ v : Nat, v ≤ 100 →
    (let h : Int := (2 * 127 * v + 100) / 200
     levels 8 v = ⟨128 + h, 129 - h, 128⟩ ∧ 0 ≤ h ∧ h ≤ 127) ∧
    ∀ bits ∈ [16, 24, 32],
      let m : Int := 2 ^ (bits - 1) - 1
      let hi : Int := (2 * m * v + 100) / 200
      levels bits v = ⟨hi, -hi + 1, 0⟩ ∧ 0 ≤ hi ∧ hi ≤ m

/-- `ENC.LEVELS` (R130): the levels' 32-bit images in `RES` and `RES_HI`; `LVL_HI`, `LVL_LO` and `LVL_MID` are not
written and nothing else changes; a volume above 100 is refused. -/
def Obligations.EncLevelsCompletes : Prop :=
  Instr.code .encLevels = 0x10#8 ∧
  ∀ s : State, s.status.session = .opened →
    (s.io.arg0.toNat ≤ 100 → exec .encLevels s = .next (((ran .encLevels s).setRes
      (BitVec.ofInt 32 (levels s.cfg.bits s.io.arg0.toNat).hi)).setResHi
      (BitVec.ofInt 32 (levels s.cfg.bits s.io.arg0.toNat).lo))) ∧
    (100 < s.io.arg0.toNat → exec .encLevels s = .next (s.refuse .volumeAbove100))

/-- Frame encoding (R65): `BITS/8` bytes, least significant first, once per channel, `FRAME_BYTES` in all. -/
def Obligations.EncodedFrameBytes : Prop :=
  ∀ (c : CfgRegs) (v : Word), c.configError = none →
    (encodeFrame c v).length = c.channels * (c.bits / 8) ∧
    ∀ ch k, ch < c.channels → k < c.bits / 8 →
      (encodeFrame c v)[ch * (c.bits / 8) + k]? = some (v.extractLsb' (8 * k) 8)

/-- A sample decoded from the bytes of an encoded level is that level (R63, R65). -/
def Obligations.PcmRoundTrip : Prop :=
  (∀ v : Int, 0 ≤ v → v ≤ 255 → sampleOf 8 (bytesOfWord 1 (levelImage v)) = v) ∧
  ∀ bits ∈ [16, 24, 32], ∀ v : Int, -(2 ^ (bits - 1)) ≤ v → v < 2 ^ (bits - 1) →
    sampleOf bits (bytesOfWord (bits / 8) (levelImage v)) = v

/-- The value of a frame (R170): its samples (R63, R171, R172) are their bytes, least significant first, unsigned at
8 bits and two's complement otherwise; normalized they are `(u - 128) / 128` or `v / 2^(N-1)`, in [-1, 1); the left value
is that of channel 0, the right one that of channel 1 or of the single channel; `CFG_FMT.CHSEL` selects the mean, the
left or the right value (R25); with `CFG_FMT.FILTER_EN` set it passes through one filter step, which stores it at
`FLT_IDX`, advances the index modulo the order and answers the mean of the cells below the order (R173), and otherwise
the filter stays as it is; nothing else changes. The region of the frame is that of its value. (`OPEN` admits no `CHSEL`
of 3, R118, and no order outside 2 to 55, R40.) -/
def Obligations.NormalizedSamples : Prop :=
  let unsigned (b : List Byte) : Nat := b.foldr (fun x n => x.toNat + 256 * n) 0
  (∀ b : Byte, normalized 8 (sampleOf 8 [b]) = ((b.toNat : Rat) - 128) / 128) ∧
  (∀ bits ∈ [16, 24, 32], ∀ b : List Byte, b.length = bits / 8 →
    (unsigned b < 2 ^ (bits - 1) → normalized bits (sampleOf bits b) = (unsigned b : Rat) / 2 ^ (bits - 1)) ∧
    (2 ^ (bits - 1) ≤ unsigned b →
      normalized bits (sampleOf bits b) = ((unsigned b : Rat) - 2 ^ bits) / 2 ^ (bits - 1))) ∧
  (∀ bits ∈ [8, 16, 24, 32], ∀ b : List Byte, b.length = bits / 8 →
    -1 ≤ normalized bits (sampleOf bits b) ∧ normalized bits (sampleOf bits b) < 1) ∧
  (∀ (c : CfgRegs) (f g : Frame), f.length = c.bits / 8 → g.length = c.bits / 8 →
    (c.channels = 1 → leftValue c f = normalized c.bits (sampleOf c.bits f) ∧ rightValue c f = leftValue c f) ∧
    (c.channels = 2 → leftValue c (f ++ g) = normalized c.bits (sampleOf c.bits f) ∧
      rightValue c (f ++ g) = normalized c.bits (sampleOf c.bits g))) ∧
  (∀ l r : Rat, selectChannel 0 l r = (l + r) / 2 ∧ selectChannel 1 l r = l ∧ selectChannel 2 l r = r ∧
    ∀ k, selectChannel k l l = l) ∧
  ∀ (s : State) (w : Word) (f : Frame), s.cfg.fmt = some w → (w.extractLsb' 10 2).toNat ≠ 3 →
    2 ≤ s.derived.fltOrder → s.derived.fltOrder ≤ 55 →
    let order := s.derived.fltOrder
    let chsel := (w.extractLsb' 10 2).toNat
    let l := leftValue s.cfg f
    let r := rightValue s.cfg f
    let x := if chsel = 0 then (l + r) / 2 else if chsel = 1 then l else r
    (w.getLsbD 13 = false → s.value f = (x, s)) ∧
    (w.getLsbD 13 = true → ∃ t : FilterState,
      s.value f = (((List.range order).map fun i => t.buf.toList.getD i 0).sum / order, { s with filter := t }) ∧
      (∀ i : Fin 55, t.buf[i] = if i = s.filter.idx then x else s.filter.buf[i]) ∧
      t.idx.val = (s.filter.idx.val + 1) % order) ∧
    s.classify f = (region s.cfg (s.value f).1, (s.value f).2)

/-! ## Emission -/

/-- `ENC.FRAME` (R137): one frame of the selected level; `RES` is `FRAME_BYTES`. -/
def Obligations.EncFrameCompletes : Prop :=
  ∀ (s : State) (k : Sink), Ready .encode s → s.io.arg0.toNat % 4 ≠ 3 →
    let v := if s.io.arg0.toNat % 4 = 0 then s.derived.lvlLo
      else if s.io.arg0.toNat % 4 = 1 then s.derived.lvlHi else s.derived.lvlMid
    let fs := [encodeFrame s.cfg v]
    sinkAfter 1 s.sink = some k → CountFits s fs →
    exec .encFrame s = .next ((wrote (ran .encFrame s) fs k).setRes (BitVec.ofNat 32 s.derived.frameBytes))

/-- `ENC.SILENCE` (R138): `ARG0` silence frames; `RES` is the bytes written modulo 2^32. -/
def Obligations.EncSilenceCompletes : Prop :=
  ∀ (s : State) (k : Sink), Ready .encode s → SessionConstants s →
    let n := s.io.arg0.toNat
    let fs := List.replicate n (encodeFrame s.cfg s.derived.lvlMid)
    sinkAfter n s.sink = some k → CountFits s fs →
    exec .encSilence s =
      .next ((wrote (ran .encSilence s) fs k).setRes (BitVec.ofNat 32 (n * s.derived.frameBytes)))

/-- `ENC.CYCLE` (R139): one cycle of the symbol; `RES` is the bytes written modulo 2^32. -/
def Obligations.EncCycleCompletes : Prop :=
  ∀ (s : State) (k : Sink) (y : Symbol), Ready .encode s → SessionConstants s →
    s.io.arg0.toNat % 8 = symbolIndex y →
    sinkAfter (symbolCycle s y).length s.sink = some k → CountFits s (symbolCycle s y) →
    exec .encCycle s = .next ((wrote (ran .encCycle s) (symbolCycle s y) k).setRes
      (BitVec.ofNat 32 (s.derived.ref.get y * s.derived.frameBytes)))

/-- `ENC.PILOT` (R140): `ARG0` pilot cycles; `RES` is the bytes written modulo 2^32. -/
def Obligations.EncPilotCompletes : Prop :=
  ∀ (s : State) (k : Sink), Ready .encode s → SessionConstants s →
    let n := s.io.arg0.toNat
    let fs := (List.replicate n (symbolCycle s .pilot)).flatten
    sinkAfter fs.length s.sink = some k → CountFits s fs →
    exec .encPilot s = .next ((wrote (ran .encPilot s) fs k).setRes
      (BitVec.ofNat 32 (n * s.derived.ref.pilot * s.derived.frameBytes)))

/-- `ENC.BYTE` (R142): eight bit cycles, most significant bit first; `RES` is the bytes written. -/
def Obligations.EncByteCompletes : Prop :=
  ∀ (s : State) (k : Sink), Ready .encode s → SessionConstants s →
    let b := s.io.arg0.extractLsb' 0 8
    let fs := byteCycles s b
    sinkAfter fs.length s.sink = some k → CountFits s fs →
    exec .encByte s = .next ((wrote (ran .encByte s) fs k).setRes
      (BitVec.ofNat 32 (byteWidth s.derived b * s.derived.frameBytes)))

/-- `ENC.BLOCK` (R141): pilot tone, sync cycle, the source bytes in increasing order, end mark; `RES` is the
bytes written modulo 2^32. -/
def Obligations.EncBlockCompletes : Prop :=
  ∀ (s : State) (k : Sink), Ready .encode s → SessionConstants s →
    s.io.arg0.toNat + s.io.arg1.toNat ≤ s.src.length →
    let n := s.io.arg2.toNat
    let bytes := (s.src.drop s.io.arg0.toNat).take s.io.arg1.toNat
    let fs := (List.replicate n (symbolCycle s .pilot)).flatten ++ symbolCycle s .sync ++
      bytes.flatMap (byteCycles s) ++ symbolCycle s .endMark
    sinkAfter fs.length s.sink = some k → CountFits s fs →
    exec .encBlock s = .next ((wrote (ran .encBlock s) fs k).setRes (BitVec.ofNat 32
      ((n * s.derived.ref.pilot + s.derived.ref.sync + (bytes.map (byteWidth s.derived)).sum +
        s.derived.ref.endMark) * s.derived.frameBytes)))

/-- The counts the emission results are made of are the bytes written (R37, R65, R141): a table of `TM_REF[s]`
frames has `TM_REF[s] × FRAME_BYTES` bytes, a byte's cycles `bitframes(b) × FRAME_BYTES`. -/
def Obligations.EmissionCountsBytes : Prop :=
  ∀ (s : State), s.status.session ≠ .closed → SessionConstants s →
    (∀ v, (encodeFrame s.cfg v).length = s.derived.frameBytes) ∧
    (∀ y, (symbolCycle s y).flatten.length = s.derived.ref.get y * s.derived.frameBytes) ∧
    ∀ b, (byteCycles s b).flatten.length = byteWidth s.derived b * s.derived.frameBytes

/-- A failing write (R146, R255): the frames before it are in `OUT` and counted, the failing frame leaves the
bytes the sink took, `RES` is not written, `ERR` is 9 and the session is ABORTED; every emission command. -/
def Obligations.FailingWriteAborts : Prop :=
  ∀ (i : Instr) (s : State) (fs : List Frame) (k taken : Nat) (f : Frame), Ready .encode s →
    emissionFrames i s = some fs → s.sink = .failsAfter k taken → fs[k]? = some f →
    CountFits s (fs.take k ++ [f.take taken]) →
    exec i s = .next (((wrote (ran i s) (fs.take k ++ [f.take taken]) (.failsAfter 0 taken)).setErr
      .streamWrite).setSession .aborted)

/-- `ENC.COUNT` (R143): the 64-bit byte count, in an aborted session too; nothing else changes. -/
def Obligations.EncCountCompletes : Prop :=
  ∀ s : State, s.status.session = .opened ∨ s.status.session = .aborted → s.cfg.mode = .encode →
    exec .encCount s = .next (((ran .encCount s).setRes (BitVec.ofNat 32 s.encCount)).setResHi
      (BitVec.ofNat 32 (s.encCount / 2 ^ 32)))

/-! ## The classifier and the filter -/

/-- Regions (R175): strict comparisons with the band, so a value at `thr ± hw` is DEAD; inversion swaps HIGH
and LOW. -/
def Obligations.RegionFollowsBand : Prop :=
  ∀ (c : CfgRegs) (y : Rat),
    let thr : Rat := (c.detect : Rat) / 100
    let hw : Rat := (c.hyst : Rat) / 100
    let hi := if c.invert then Region.low else Region.high
    let lo := if c.invert then Region.high else Region.low
    (y > thr + hw → region c y = hi) ∧ (y < thr - hw → region c y = lo) ∧
    (thr - hw ≤ y → y ≤ thr + hw → region c y = .dead)

/-- `CLS.SAMPLE` (R176): a frame is consumed, the filter advances when enabled, and `RES` is the region's code;
at the end of the stream `RES` is 3 and nothing is consumed; `PH`, `PCNT` and `PULSE` do not change. -/
def Obligations.ClsSampleCompletes : Prop :=
  Instr.code .clsSample = 0x20#8 ∧
  ∀ s : State, Ready .decode s →
    (∀ (f : Frame) (rest : List Byte), NextFrames s [f] rest →
      exec .clsSample s = .next ({ readFrames (ran .clsSample s) 1 rest with
        filter := (s.value f).2.filter }.setRes (match region s.cfg (s.value f).1 with
          | .dead => 0#32
          | .high => 1#32
          | .low => 2#32))) ∧
    (s.inp.bytes.length < s.derived.frameBytes →
      (s.inp.tail = .eos → exec .clsSample s = .next ((ran .clsSample s).setRes 3#32)) ∧
      (s.inp.tail = .fails →
        exec .clsSample s = .next (((ran .clsSample s).setErr .streamRead).setSession .aborted)))

/-- The filter on a constant input (R174): after a clear, output `k` is `min(k, order) × v / order`. -/
def Obligations.FilterSteadyState : Prop :=
  ∀ (order k : Nat) (v : Rat), 2 ≤ order → order ≤ 55 → 1 ≤ k →
    (((fun t : FilterState => (t.step order v).2)^[k - 1] FilterState.cleared).step order v).1 =
      (min k order : Nat) * v / order

/-- `FLT.CLEAR` (R179): every cell 0, the index 0, `RES` 0, and nothing else. -/
def Obligations.FltClearCompletes : Prop :=
  Instr.code .fltClear = 0x21#8 ∧
  ∀ s : State, Ready .decode s →
    ∃ t : FilterState, (∀ i : Fin 55, t.buf[i] = 0) ∧ t.idx = 0 ∧
      exec .fltClear s = .next ({ ran .fltClear s with filter := t }.setRes 0#32)

/-! ## Pulses -/

/-- `CLS.PULSE` on a stream that completes a pulse (R182): every sample up to and including the first LOW
after the first HIGH is consumed and counted once, and the count is the pulse; `RES` is its image (R41): bit 31 is 0,
and a count below 2^31 is its own image. -/
def Obligations.ClsPulseMeasures : Prop :=
  ∀ (s : State) (fs : List Frame) (rest : List Byte), Ready .decode s → 0 < s.derived.frameBytes →
    NextFrames s fs rest → PcntFits s fs.length → OnePulse (scanRegions s fs).1 →
    ∃ r : Word, r.getLsbD 31 = false ∧ (fs.length < 2 ^ 31 → r = BitVec.ofNat 32 fs.length) ∧
      exec .clsPulse s = .next ({ readFrames (ran .clsPulse s) fs.length rest with
        filter := (scanRegions s fs).2.filter
        edge := ⟨.idle, fs.length, .width fs.length⟩ }.setRes r)

/-- `CLS.PULSE` on a stream that ends first (R183, R184, R188): at the end of the stream the result is `EOS`;
a failing read aborts the session and `PULSE`, `PH` and `PCNT` stay; an unanswered read leaves the command in
progress (R61). -/
def Obligations.ClsPulseStreamEnds : Prop :=
  ∀ (s : State) (fs : List Frame) (rest : List Byte) (ph : Phase), Ready .decode s → 0 < s.derived.frameBytes →
    NextFrames s fs rest → rest.length < s.derived.frameBytes → PcntFits s fs.length →
    ScansTo ph (scanRegions s fs).1 →
    let u := { readFrames (ran .clsPulse s) fs.length rest with filter := (scanRegions s fs).2.filter }
    (s.inp.tail = .eos → exec .clsPulse s =
      .next ({ u with edge := ⟨.idle, fs.length, .eos⟩ }.setRes 0x80000000#32)) ∧
    (s.inp.tail = .fails → exec .clsPulse s =
      .next (({ u with edge := ⟨ph, fs.length, s.edge.pulse⟩ }.setErr .streamRead).setSession .aborted)) ∧
    (s.inp.tail = .oracle → exec .clsPulse s =
      .next { u with edge := ⟨ph, fs.length, s.edge.pulse⟩, running := some .pulse })

/-- Clean-signal measurement (R185): a `CLS.PULSE` that starts right after the first frame of one encoder cycle
which another cycle follows gives the reference width of the first, and stops right after the first frame of
the second. -/
def Obligations.CleanCycleMeasured : Prop :=
  ∀ (s : State) (y z : Symbol) (rest : List Byte), Ready .decode s → SessionConstants s → s.params.wPulse = none →
    CleanLevels s.cfg s.derived → (∀ x, 0 < s.derived.hiS.get x ∧ 0 < s.derived.loS.get x) →
    s.inp.bytes = ((symbolCycle s y).drop 1 ++ (symbolCycle s z).take 1).flatten ++ rest →
    ∃ t, exec .clsPulse s = .next t ∧ t.edge.pulse = .width (s.derived.ref.get y) ∧ t.inp.bytes = rest ∧
      t.inPos = s.inPos + s.derived.ref.get y ∧ t.running = none

/-- A command in progress whose next frame the stream has not supplied takes what the oracle answers, a free
value (R61; log 3): no answer, and nothing moves; a frame, and it is consumed; the end of the stream, and the
command ends; a failure, and the session is ABORTED (R255) with the edge detector as it was (R188). -/
def Obligations.OracleAnswersBlockedRead : Prop :=
  ∀ (s : State) (a : Activity), s.running = some a → s.inp.tail = .oracle →
    s.inp.bytes.length < s.derived.frameBytes → s.derived.frameBytes ≤ 8 → s.params.wPulse = none →
    match Config.inputAnswer s.draws with
    | .wait => step s = .next { s with draws := s.draws + 1 }
    | .frame _ => ∃ t, step s = .next t ∧ t.inPos = s.inPos + 1
    | .eos => ∃ t, step s = .next t ∧ t.running = none ∧ t.inPos = s.inPos ∧
        t.status.session = s.status.session ∧ t.inp = ⟨s.inp.bytes, .eos⟩
    | .fail => ∃ t, step s = .next t ∧ t.running = none ∧ t.inPos = s.inPos ∧ t.edge = s.edge ∧
        t.status.session = .aborted ∧ t.status.err = .streamRead ∧ t.io = s.io

/-- How many accesses one step makes does not matter (R293; log 2): the loops of `CLS.PULSE` and of `DEC.BLOCK` over
`m + n` accesses are `m` accesses and then `n`, and so are the writes of an emission (R183, R146). In the machine that
makes one access a step (Machine/Access.lean), a step of a command in progress is one `InRead` or one `OutWrite`, and
every step of the model that ends without a refusal is one or more of its steps. -/
def Obligations.AccessesCompose : Prop :=
  (∀ (m n : Nat) (s : State),
    (pulseLoop (m + n) s = match pulseLoop m s with
      | .waiting _ t => pulseLoop n t
      | other => other) ∧
    (blockLoop (m + n) s = match blockLoop m s with
      | .waiting _ t => blockLoop n t
      | other => other)) ∧
  (∀ (fs gs : List Frame) (s : State), s.emit (fs ++ gs) = match s.emit fs with
    | .ok t => t.emit gs
    | other => other) ∧
  (∀ (s : State) (a : Activity), s.running = some a → ∃ m : FineState, fineStep ⟨s, none⟩ = .next m ∧
    m.emitting = none ∧ (m.state.inPos = s.inPos ∨ m.state.inPos = s.inPos + 1) ∧ m.state.out = s.out) ∧
  (∀ (s : State) (f : Frame) (fs : List Frame) (n : Nat), ∃ m : FineState,
    fineStep ⟨s, some ⟨f :: fs, n⟩⟩ = .next m ∧ m.state.inPos = s.inPos ∧
      ∃ b, b <+: f ∧ m.state.out = s.out ++ b) ∧
  ∀ s t : State, step s = .next t → t.refusal = none →
    ∃ n, 0 < n ∧ fineSteps n ⟨s, none⟩ = .next ⟨t, none⟩

/-! ## The decoder -/

/-- `DEC.RESET` (R206): the decoder state and registers, `RES` 0, and nothing else. -/
def Obligations.DecResetCompletes : Prop :=
  Instr.code .decReset = 0x30#8 ∧
  ∀ s : State, Ready .decode s →
    exec .decReset s = .next ({ ran .decReset s with
      dec := ⟨0#8, 0#4, 0#32, s.io.arg0⟩
      status := { s.status with dstate := .searching, dcause := .notDone } }.setRes 0#32)

/-- `DEC.STEP` outside the bit windows of LOADING (R204): the transition table, DONE terminal, `EOS` before any
window, pilot before sync. -/
def Obligations.DecStepFollowsTable : Prop :=
  ∀ (s : State), Ready .decode s →
    let p := s.io.arg0.toNat
    let ended (c : DCause) : State :=
      { ran .decStep s with status := { s.status with dstate := .done, dcause := c } }.setRes 3#32
    let moved (v : DState) (r : Word) : State := ((ran .decStep s).setDState v).setRes r
    (s.status.dstate = .done → p ≤ 2 ^ 31 → exec .decStep s = .next ((ran .decStep s).setRes 3#32)) ∧
    (s.status.dstate ≠ .done → p = 2 ^ 31 → exec .decStep s = .next (ended .eos)) ∧
    (p < 2 ^ 31 →
      (s.status.dstate = .searching → Matches s.derived p .pilot → exec .decStep s = .next (moved .piloting 1#32)) ∧
      (s.status.dstate = .searching → ¬Matches s.derived p .pilot →
        exec .decStep s = .next (moved .searching 0#32)) ∧
      (s.status.dstate = .piloting → Matches s.derived p .pilot → exec .decStep s = .next (moved .piloting 1#32)) ∧
      (s.status.dstate = .piloting → ¬Matches s.derived p .pilot → Matches s.derived p .sync →
        exec .decStep s =
          .next { moved .loading 2#32 with dec := { s.dec with shift := 0#8, nbits := 0#4 } }) ∧
      (s.status.dstate = .piloting → ¬Matches s.derived p .pilot → ¬Matches s.derived p .sync →
        exec .decStep s = .next (moved .searching 0#32)) ∧
      (s.status.dstate = .loading → ¬Matches s.derived p .bit0 → ¬Matches s.derived p .bit1 →
        exec .decStep s = .next (ended .endMark)))

/-- `DEC.STEP` on a bit in LOADING (R205): the bit enters at the low end; the eighth bit completes a byte, which
is stored at `DEC_COUNT` if the buffer has capacity, and otherwise ends the attempt with OVERRUN; no other
byte of `DST` changes. -/
def Obligations.BitsAssembleBytes : Prop :=
  ∀ (s : State) (b : Bool), Ready .decode s → s.status.dstate = .loading → s.dec.nbits.toNat ≤ 7 →
    s.io.arg0.toNat < 2 ^ 31 →
    (b = false → Matches s.derived s.io.arg0.toNat .bit0) →
    (b = true → ¬Matches s.derived s.io.arg0.toNat .bit0 ∧ Matches s.derived s.io.arg0.toNat .bit1) →
    let byte := (s.dec.shift <<< 1) ||| (if b then 1#8 else 0#8)
    (s.dec.nbits.toNat < 7 → exec .decStep s = .next ({ ran .decStep s with
      dec := { s.dec with shift := byte, nbits := s.dec.nbits + 1#4 } }.setRes 2#32)) ∧
    (s.dec.nbits.toNat = 7 → s.dec.count.toNat < s.dec.cap.toNat →
      ∃ m : Memory, exec .decStep s = .next ({ ran .decStep s with
          dst := m
          dec := { s.dec with shift := 0#8, nbits := 0#4, count := s.dec.count + 1#32 } }.setRes 2#32) ∧
        m.read s.dec.count.toNat = byte ∧
        ∀ a, a ≠ s.dec.count.toNat → m.read a = s.dst.read a) ∧
    (s.dec.nbits.toNat = 7 → ¬s.dec.count.toNat < s.dec.cap.toNat →
      exec .decStep s = .next ({ ran .decStep s with
        dec := { s.dec with shift := byte, nbits := 0#4 }
        status := { s.status with dstate := .done, dcause := .overrun } }.setRes 3#32))

/-- `DEC.CLASSIFY` (R203, R202): the class of the pulse in the current state, and no state change but `RES`. -/
def Obligations.DecClassifyCompletes : Prop :=
  Instr.code .decClassify = 0x32#8 ∧
  ∀ (s : State), Ready .decode s →
    let p := s.io.arg0.toNat
    let gives (r : Word) : Prop := exec .decClassify s = .next ((ran .decClassify s).setRes r)
    let seeking := s.status.dstate = .searching ∨ s.status.dstate = .piloting
    (p = 2 ^ 31 → gives 5#32) ∧
    (p < 2 ^ 31 →
      (seeking → Matches s.derived p .pilot → gives 1#32) ∧
      (seeking → ¬Matches s.derived p .pilot → Matches s.derived p .sync → gives 2#32) ∧
      (seeking → ¬Matches s.derived p .pilot → ¬Matches s.derived p .sync → gives 0#32) ∧
      (s.status.dstate = .loading → Matches s.derived p .bit0 → gives 3#32) ∧
      (s.status.dstate = .loading → ¬Matches s.derived p .bit0 → Matches s.derived p .bit1 → gives 4#32) ∧
      (s.status.dstate = .loading → ¬Matches s.derived p .bit0 → ¬Matches s.derived p .bit1 → gives 0#32) ∧
      (s.status.dstate = .done → gives 0#32))

/-- `DEC.BLOCK` is `DEC.RESET` and then `DEC.STEP` on every pulse the stream holds, until DONE (R207): on a
stream that ends, it completes with the decoder registers, the decoder status and the buffer that those
transitions give (a step in DONE changes nothing), and `RES` is `DEC_COUNT`. It consumes exactly the frames of the pulses
up to the one that reaches DONE, whatever follows them, and at the end of the stream every whole frame (R206, R288);
the bytes after them stay, the filter has advanced once a consumed frame, and `PH`, `PCNT` and `PULSE` are those of the
last measurement (R183, R184). That a transition gets the pulse itself and not its register image (log 15), and that
the host is shown the buffer at the end (log 18), are the model's choices, here and below. -/
def Obligations.DecBlockIsResetAndSteps : Prop :=
  (∀ (s : State) (fs : List Frame) (rest : List Byte), Ready .decode s → 0 < s.derived.frameBytes →
    NextFrames s fs rest → rest.length < s.derived.frameBytes → s.inp.tail = .eos → PcntFits s fs.length →
    let pulses := (pulseWidths .seekHigh 0 (scanRegions s fs).1).map Pulse.width ++ [Pulse.eos]
    let u := pulses.foldl State.decStep ((ran .decBlock s).decReset s.io.arg0)
    u.status.dstate = .done ∧
    ∃ (i : Source) (n : Nat) (f : FilterState) (e : Edge), exec .decBlock s = .next ({ u with
      inp := i, inPos := n, filter := f, edge := e, obs := s.obs ++ [Observation.dstAfter u.dec.cap u.dst] }.setRes
        u.dec.count)) ∧
  (∀ (s : State) (fs : List Frame) (rest : List Byte) (pulses : List (List Region)) (last : List Region),
    Ready .decode s → 0 < s.derived.frameBytes → NextFrames s fs rest →
    (scanRegions s fs).1 = pulses.flatten ++ last → (∀ p ∈ pulses, OnePulse p ∧ PcntFits s p.length) →
    OnePulse last → PcntFits s last.length →
    let u := (afterPulses s pulses).decStep (.width last.length)
    (afterPulses s pulses).status.dstate ≠ .done → u.status.dstate = .done →
    exec .decBlock s = .next ({ readFrames u fs.length rest with
      filter := (scanRegions s fs).2.filter
      edge := ⟨.idle, last.length, .width last.length⟩
      obs := s.obs ++ [Observation.dstAfter u.dec.cap u.dst] }.setRes u.dec.count)) ∧
  ∀ (s : State) (fs : List Frame) (rest : List Byte) (pulses : List (List Region)) (tail : List Region) (ph : Phase),
    Ready .decode s → 0 < s.derived.frameBytes → NextFrames s fs rest → rest.length < s.derived.frameBytes →
    s.inp.tail = .eos → (scanRegions s fs).1 = pulses.flatten ++ tail →
    (∀ p ∈ pulses, OnePulse p ∧ PcntFits s p.length) → ScansTo ph tail → PcntFits s tail.length →
    let u := (afterPulses s pulses).decStep .eos
    (afterPulses s pulses).status.dstate ≠ .done →
    exec .decBlock s = .next ({ readFrames u fs.length rest with
      filter := (scanRegions s fs).2.filter
      edge := ⟨.idle, tail.length, .eos⟩
      obs := s.obs ++ [Observation.dstAfter u.dec.cap u.dst] }.setRes u.dec.count)

/-- Noise robustness (R211): if no pulse the stream holds matches the pilot window, `DEC.BLOCK` ends in DONE at the
end of the stream with no byte captured and none written. -/
def Obligations.NoPilotYieldsNoBytes : Prop :=
  ∀ (s : State) (fs : List Frame) (rest : List Byte), Ready .decode s → 0 < s.derived.frameBytes →
    NextFrames s fs rest → rest.length < s.derived.frameBytes → s.inp.tail = .eos → PcntFits s fs.length →
    (∀ w ∈ pulseWidths .seekHigh 0 (scanRegions s fs).1, ¬Matches s.derived w .pilot) →
    ∃ t, exec .decBlock s = .next t ∧ t.status.dstate = .done ∧ t.status.dcause = .eos ∧ t.dec.count = 0#32 ∧
      t.io.res = 0#32 ∧ t.dst = s.dst ∧ t.running = none

/-- A failing read inside `DEC.BLOCK`, after any number of complete pulses that did not end the attempt (R207, R255,
R205): the decoder registers and the buffer are those the decoder's transitions on these pulses left; DONE with
IOFAIL, ERR 8, ABORTED, `RES` not written; `PULSE` is the last complete pulse, and `PH` and `PCNT` are those of the
one being measured (R188; log 15, log 18). -/
def Obligations.DecBlockReadFailure : Prop :=
  ∀ (s : State) (fs : List Frame) (rest : List Byte) (pulses : List (List Region)) (tail : List Region) (ph : Phase),
    Ready .decode s → 0 < s.derived.frameBytes → NextFrames s fs rest → rest.length < s.derived.frameBytes →
    s.inp.tail = .fails → (scanRegions s fs).1 = pulses.flatten ++ tail →
    (∀ p ∈ pulses, OnePulse p ∧ PcntFits s p.length) → ScansTo ph tail → PcntFits s tail.length →
    let u := afterPulses s pulses
    u.status.dstate ≠ .done →
    exec .decBlock s = .next { readFrames u fs.length rest with
      filter := (scanRegions s fs).2.filter
      edge := ⟨ph, tail.length, match pulses.getLast? with
        | some p => .width p.length
        | none => s.edge.pulse⟩
      status := ⟨.aborted, .done, .ioFail, .streamRead⟩
      obs := s.obs ++ [Observation.dstAfter u.dec.cap u.dst] }

/-- The stream of one encoded block of `n` pilot cycles, with `lead` silence frames before it and `trail` after
it, and then the end of the stream (R141, R144). -/
def BlockStream (s : State) (lead trail n : Nat) (block : List Byte) : Prop :=
  s.inp.tail = .eos ∧ s.inp.bytes =
    (List.replicate lead (encodeFrame s.cfg s.derived.lvlMid) ++
      (List.replicate n (symbolCycle s .pilot)).flatten ++ symbolCycle s .sync ++
      block.flatMap (byteCycles s) ++ symbolCycle s .endMark ++
      List.replicate trail (encodeFrame s.cfg s.derived.lvlMid)).flatten

/-- The conditions (a) to (d) of R210 on the session. -/
def RoundTripConditions (s : State) : Prop :=
  CleanLevels s.cfg s.derived ∧ (∀ y, 0 < s.derived.hiS.get y ∧ 0 < s.derived.loS.get y) ∧
    ¬Matches s.derived (s.derived.ref.get .sync) .pilot ∧ ¬Matches s.derived (s.derived.ref.get .bit1) .bit0

/-- The round trip of one block (R210, R144): a stream of leading silence, one encoded block and trailing
silence, read by a DECODE session with the same configuration, gives back exactly the block's bytes and ends
with `EOS`, under the conditions of R210 with two pilot cycles or more. It leaves out the single pilot cycle of R210 (f)
with `LEAD_FRAMES + 1` within the tolerance, and a block that follows another block. -/
def Obligations.BlockRoundTrip : Prop :=
  ∀ (s : State) (lead trail n : Nat) (block : List Byte), Ready .decode s → SessionConstants s →
    s.params.wPulse = none → RoundTripConditions s → 2 ≤ n → block.length ≤ s.io.arg0.toNat →
    BlockStream s lead trail n block →
    ∃ t, exec .decBlock s = .next t ∧ t.io.res = BitVec.ofNat 32 block.length ∧
      t.dst.readBytes block.length = block ∧ t.status.dstate = .done ∧ t.status.dcause = .eos ∧
      t.running = none

/-- Overrun safety for one block (R212): with less capacity than the block has bytes, the result is exactly the
capacity, the bytes below it are the block's, no byte at or above it changes, and the attempt ends with
OVERRUN. It does not state the position of the stream after the attempt. -/
def Obligations.BlockOverrunIsSafe : Prop :=
  ∀ (s : State) (lead trail n : Nat) (block : List Byte), Ready .decode s → SessionConstants s →
    s.params.wPulse = none → RoundTripConditions s → 2 ≤ n → s.io.arg0.toNat < block.length →
    BlockStream s lead trail n block →
    ∃ t, exec .decBlock s = .next t ∧ t.io.res = s.io.arg0 ∧
      t.dst.readBytes s.io.arg0.toNat = block.take s.io.arg0.toNat ∧
      (∀ a, s.io.arg0.toNat ≤ a → t.dst.read a = s.dst.read a) ∧
      t.status.dstate = .done ∧ t.status.dcause = .overrun ∧ t.running = none

/-! ## What commands leave alone -/

/-- No command but `DEC.STEP` and `DEC.BLOCK` changes a byte of `DST`; `DEC.BLOCK` changes none at an index of
its capacity or above, and `DEC.STEP` none but the byte at `DEC_COUNT` (R71, R205). -/
def Obligations.DestinationWrites : Prop :=
  ∀ (i : Instr) (s t : State), exec i s = .next t →
    (i ≠ .decStep → i ≠ .decBlock → t.dst = s.dst) ∧
    (i = .decBlock → ∀ a, s.io.arg0.toNat ≤ a → t.dst.read a = s.dst.read a) ∧
    (i = .decStep → ∀ a, a ≠ s.dec.count.toNat ∨ s.dec.cap.toNat ≤ a → t.dst.read a = s.dst.read a)

/-- No command but `OPEN` writes a derived register or a wave table, and outside CLOSED none does (R119); none
writes a configuration register (R77, R23), an argument register (R50), `SRC` (R70) or a model parameter
(R20). -/
def Obligations.CommandsKeepSessionConstants : Prop :=
  ∀ (i : Instr) (s t : State), exec i s = .next t →
    (i ≠ .openSession ∨ s.status.session ≠ .closed → t.derived = s.derived ∧ t.tables = s.tables) ∧
    t.cfg = s.cfg ∧ t.io.arg0 = s.io.arg0 ∧ t.io.arg1 = s.io.arg1 ∧ t.io.arg2 = s.io.arg2 ∧
    t.io.arg3 = s.io.arg3 ∧ t.src = s.src ∧ t.params = s.params

/-- The encoder's commands leave the decoder side alone: the input stream, `IN_POS`, the filter, the edge
detector, the decoder registers and state (R136). The decode side's commands leave the output side alone:
`OUT`, `ENC_COUNT`, the sink and `RES_HI`; of them only the `DEC.*` commands write the decoder registers, and
`DEC.RESET`, `DEC.STEP` and `DEC.CLASSIFY` touch no stream, filter or edge detector (R60, R282). -/
def Obligations.SidesLeaveEachOtherAlone : Prop :=
  (∀ i ∈ [Instr.encLevels, .encFrame, .encSilence, .encCycle, .encPilot, .encByte, .encBlock, .encCount],
    ∀ s t : State, exec i s = .next t →
      t.inp = s.inp ∧ t.inPos = s.inPos ∧ t.filter = s.filter ∧ t.edge = s.edge ∧ t.dec = s.dec ∧ t.dst = s.dst ∧
      t.status.dstate = s.status.dstate ∧ t.status.dcause = s.status.dcause) ∧
  ∀ i ∈ [Instr.clsSample, .fltClear, .clsPulse, .decReset, .decStep, .decClassify, .decBlock],
    ∀ s t : State, exec i s = .next t →
      t.out = s.out ∧ t.encCount = s.encCount ∧ t.sink = s.sink ∧ t.io.resHi = s.io.resHi ∧
      (i = .clsSample ∨ i = .fltClear ∨ i = .clsPulse → t.dec = s.dec ∧
        t.status.dstate = s.status.dstate ∧ t.status.dcause = s.status.dcause) ∧
      (i = .decReset ∨ i = .decStep ∨ i = .decClassify →
        t.inp = s.inp ∧ t.inPos = s.inPos ∧ t.filter = s.filter ∧ t.edge = s.edge)

/-! ## The host -/

/-- The host's write of a configuration register (R23): stored while CLOSED, refused otherwise; of a reserved
index or a read-only register (R22): refused; of `ARG0` to `ARG3` (R50): stored. That `PULSE`, `PH` and `PCNT` are
read-only and `RES` and `RES_HI` are not is the model's choice (log 14). -/
def Obligations.HostRegisterWrites : Prop :=
  ∀ (s : State) (v : Word),
    (s.status.session = .closed →
      s.hostWrite 0x00#8 v = .next { s with cfg := { s.cfg with rate := some v } } ∧
      s.hostWrite 0x01#8 v = .next { s with cfg := { s.cfg with fmt := some v } } ∧
      s.hostWrite 0x02#8 v = .next { s with cfg := { s.cfg with vol := some v } } ∧
      s.hostWrite 0x03#8 v = .next { s with cfg := { s.cfg with det := some v } } ∧
      s.hostWrite 0x04#8 v = .next { s with cfg := { s.cfg with hys := some v } } ∧
      s.hostWrite 0x05#8 v = .next { s with cfg := { s.cfg with ford := some v } }) ∧
    (s.status.session ≠ .closed → ∀ x : Byte, x.toNat ≤ 5 →
      s.hostWrite x v = .next (s.refuse (.configWriteInSession x))) ∧
    (∀ x : Byte, (let n := x.toNat
        (0x06 ≤ n ∧ n ≤ 0x3F) ∨ (0x45 ≤ n ∧ n ≤ 0x47) ∨ (0x4D ≤ n ∧ n ≤ 0x4F) ∨ (0x55 ≤ n ∧ n ≤ 0x57) ∨ n = 0x67 ∨
          (0x6B ≤ n ∧ n ≤ 0x6F) ∨ 0x77 ≤ n) →
      s.hostWrite x v = .next (s.refuse (.reservedRegisterWrite x))) ∧
    (∀ x : Byte, (let n := x.toNat
        (0x40 ≤ n ∧ n ≤ 0x44) ∨ (0x48 ≤ n ∧ n ≤ 0x4C) ∨ (0x50 ≤ n ∧ n ≤ 0x54) ∨ (0x58 ≤ n ∧ n ≤ 0x66) ∨
          (0x68 ≤ n ∧ n ≤ 0x6A)) →
      s.hostWrite x v = .next (s.refuse (.readOnlyRegisterWrite x))) ∧
    s.hostWrite 0x71#8 v = .next { s with io := { s.io with arg0 := v } } ∧
    s.hostWrite 0x72#8 v = .next { s with io := { s.io with arg1 := v } } ∧
    s.hostWrite 0x73#8 v = .next { s with io := { s.io with arg2 := v } } ∧
    s.hostWrite 0x74#8 v = .next { s with io := { s.io with arg3 := v } } ∧
    s.hostWrite 0x75#8 v = .next { s with io := { s.io with res := v } } ∧
    s.hostWrite 0x76#8 v = .next { s with io := { s.io with resHi := v } }

/-- The host reads `STATUS` as its fields, with the numbers of R38, R46, R48 and R250; each configuration register as
written last, and one never written faults (R23); the command, argument and result registers (R50); the derived
registers (R31 to R36, R40) and the counters (R41, R44) where their values fit 32 bits, beyond which the image is free
(log 10); the decoder registers (R39), `PH` in bits 1..0 and `PULSE` by its image (R41), `ENC_COUNT` in two halves (R43). A
read changes nothing (R72). -/
def Obligations.HostRegisterReads : Prop :=
  ∀ s : State,
    let reads (x : Byte) (w : Word) : Prop := s.hostRead x = .ok (w, s)
    (∃ w : Word, reads 0x60#8 w ∧
      (w.extractLsb' 0 2).toNat = (match s.status.session with
        | .closed => 0
        | .opened => 1
        | .aborted => 2) ∧
      (w.extractLsb' 2 2).toNat = (match s.status.dstate with
        | .searching => 0
        | .piloting => 1
        | .loading => 2
        | .done => 3) ∧
      (w.extractLsb' 4 3).toNat = (match s.status.dcause with
        | .notDone => 0
        | .endMark => 1
        | .eos => 2
        | .overrun => 3
        | .ioFail => 4) ∧
      w.getLsbD 7 = false ∧
      (w.extractLsb' 8 4).toNat = (match s.status.err with
        | .noError => 0
        | .cfgRate => 1
        | .cfgBits => 2
        | .cfgChannels => 3
        | .cfgChsel => 4
        | .cfgVolume => 5
        | .cfgDetect => 6
        | .cfgHyst => 7
        | .streamRead => 8
        | .streamWrite => 9) ∧
      (w.extractLsb' 12 20).toNat = 0) ∧
    (∀ r ∈ [(0x00#8, s.cfg.rate), (0x01#8, s.cfg.fmt), (0x02#8, s.cfg.vol), (0x03#8, s.cfg.det), (0x04#8, s.cfg.hys),
        (0x05#8, s.cfg.ford)],
      (∀ v, r.2 = some v → reads r.1 v) ∧ (r.2 = none → s.hostRead r.1 = .error (.unwrittenConfigRead r.1))) ∧
    (∀ r ∈ [(0x71#8, s.io.arg0), (0x72#8, s.io.arg1), (0x73#8, s.io.arg2), (0x74#8, s.io.arg3), (0x75#8, s.io.res),
        (0x76#8, s.io.resHi), (0x61#8, s.dec.count), (0x63#8, s.dec.cap)], reads r.1 r.2) ∧
    (∃ w : Word, reads 0x62#8 w ∧ w.extractLsb' 0 8 = s.dec.shift ∧ w.extractLsb' 8 4 = s.dec.nbits ∧
      (w.extractLsb' 12 20).toNat = 0) ∧
    (s.edge.pulse = .eos → reads 0x64#8 0x80000000#32) ∧
    (∀ n, s.edge.pulse = .width n → ∃ w : Word, reads 0x64#8 w ∧ w.getLsbD 31 = false ∧
      (n < 2 ^ 31 → w.toNat = n)) ∧
    (∃ lo hi : Word, reads 0x68#8 lo ∧ reads 0x69#8 hi ∧ lo.toNat = s.encCount % 2 ^ 32 ∧
      hi.toNat = s.encCount / 2 ^ 32 % 2 ^ 32) ∧
    (∀ r ∈ [(0x40#8, s.derived.hiS.pilot), (0x41#8, s.derived.hiS.sync), (0x42#8, s.derived.hiS.bit0),
        (0x43#8, s.derived.hiS.bit1), (0x44#8, s.derived.hiS.endMark), (0x48#8, s.derived.loS.pilot),
        (0x49#8, s.derived.loS.sync), (0x4A#8, s.derived.loS.bit0), (0x4B#8, s.derived.loS.bit1),
        (0x4C#8, s.derived.loS.endMark), (0x50#8, s.derived.ref.pilot), (0x51#8, s.derived.ref.sync),
        (0x52#8, s.derived.ref.bit0), (0x53#8, s.derived.ref.bit1), (0x54#8, s.derived.ref.endMark),
        (0x58#8, s.derived.tol), (0x5C#8, s.derived.frameBytes), (0x5D#8, s.derived.leadFrames),
        (0x5E#8, s.derived.trailFrames), (0x5F#8, s.derived.fltOrder), (0x66#8, s.edge.pcnt), (0x6A#8, s.inPos)],
      r.2 < 2 ^ 32 → reads r.1 (BitVec.ofNat 32 r.2)) ∧
    (∀ r ∈ [(0x59#8, s.derived.lvlHi), (0x5A#8, s.derived.lvlLo), (0x5B#8, s.derived.lvlMid)], reads r.1 r.2) ∧
    (∃ w : Word, reads 0x65#8 w ∧ (w.extractLsb' 0 2).toNat = match s.edge.ph with
      | .idle => 0
      | .seekHigh => 1
      | .seekLow => 2) ∧
    ∃ w : Word, reads 0x70#8 w ∧ w.extractLsb' 0 8 = s.io.cmd

/-- The record sequencer (R232 to R234): the header attempt is a `DEC.BLOCK 27` on a zero-filled buffer; 0 bytes stop,
fewer than 27 or a size of at most 2 reject, and otherwise the data attempt of LENGTH + 2 bytes follows and gives
the record, whether or not its buffer was filled; an aborted session gives IOFAIL. `REC.RECORD` hands the result to the
host; `REC.ALL` collects records, goes on after a record or a reject, and ends at STOP or IOFAIL with the records so
far. The `STATUS` and `RES` values it reads are observed (R295). That the sequencer is a state machine of the host, one
phase a step, and that it reads `STATUS` before `RES` and `RES` only in an open session, are the model's choices
(log 20). -/
def Obligations.RecordSequencerFollowsRules : Prop :=
  ∀ (s : State) (q : Sequencer), s.running = none → s.seq = some q →
    let n := s.io.res.toNat
    let size := (s.dst.read 12).toNat + 256 * (s.dst.read 13).toNat + 2
    let status := Observation.regRead 0x60#8 s.status.image
    let res := Observation.regRead 0x75#8 s.io.res
    let goesTo (p : SeqPhase) (rs : List Record) : State :=
      { s with seq := some ⟨q.all, rs, p⟩, obs := s.obs ++ [status, res] }
    let answers (os : List Observation) : State := { s with obs := s.obs ++ os, seq := none }
    let attempt (p : SeqPhase) (cap : Nat) : State :=
      { s with seq := some ⟨q.all, q.records, p⟩, dst := [], io := { s.io with arg0 := BitVec.ofNat 32 cap } }
    let stopped := answers [status, res, if q.all then .recAll true q.records else .recRecord .stop]
    let failed := answers [status, if q.all then .recAll false q.records else .recRecord .ioFail]
    let rejected := if q.all then goesTo .header q.records else answers [status, res, .recRecord .reject]
    let recorded (r : Record) : State :=
      if q.all then goesTo .header (q.records ++ [r]) else answers [status, res, .recRecord (.record r)]
    (q.phase = .header → Ready .decode s → step s = exec .decBlock (attempt .headerDone 27)) ∧
    (q.phase = .headerDone → s.status.session = .aborted → step s = .next failed) ∧
    (q.phase = .headerDone → s.status.session ≠ .aborted →
      (n = 0 → step s = .next stopped) ∧ (0 < n → n < 27 → step s = .next rejected) ∧
      (27 ≤ n → size ≤ 2 → step s = .next rejected) ∧
      (27 ≤ n → 2 < size → step s = .next (goesTo (.data (s.dst.readBytes 27) size) q.records))) ∧
    (∀ h m, q.phase = .data h m → step s = exec .decBlock (attempt (.dataDone h m) m)) ∧
    ∀ h m, q.phase = .dataDone h m →
      (s.status.session = .aborted → step s = .next failed) ∧
      (s.status.session ≠ .aborted → step s = .next (recorded ⟨h, s.dst.readBytes m, n⟩))

/-! ## Reset and the invariants -/

/-- Power-on (R51, R281): SESSION is CLOSED, ERR is 0, no configuration register holds a value, nothing is
refused or in progress; and the invariants hold, and the parameters have the types of R11. -/
def Obligations.PowerOnStateHasInvariants : Prop :=
  State.reset.status.session = .closed ∧ State.reset.status.err = .noError ∧
    State.reset.cfg = ⟨none, none, none, none, none, none⟩ ∧ State.reset.refusal = none ∧
    State.reset.running = none ∧
    SessionInv State.reset ∧ MemoryCanonical State.reset ∧ DecoderBounds State.reset ∧
    OutputCounted State.reset ∧ WholeFrames State.reset ∧ State.reset.params.WF

/-- Every step keeps the session invariant: outside CLOSED the configuration stays valid and the derived
registers and tables stay what `OPEN` computed; the error code agrees with the session; only an open DECODE
session has a command in progress (R23, R77, R119, R255). -/
def Obligations.StepKeepsSessionInv : Prop :=
  ∀ s t : State, SessionInv s → step s = .next t → SessionInv t

/-- Every step keeps the canonical form of the destination memory. -/
def Obligations.StepKeepsMemoryCanonical : Prop :=
  ∀ s t : State, MemoryCanonical s → step s = .next t → MemoryCanonical t

/-- Every step keeps `DEC_COUNT ≤ DEC_CAP` and `DEC_NBITS ≤ 7` (R209), given the session invariant. -/
def Obligations.StepKeepsDecoderBounds : Prop :=
  ∀ s t : State, SessionInv s → DecoderBounds s → step s = .next t → DecoderBounds t

/-- Every step keeps `ENC_COUNT` equal to the length of `OUT` in an ENCODE session (R43, R64, R145), given the
session invariant. -/
def Obligations.StepKeepsOutputCounted : Prop :=
  ∀ s t : State, SessionInv s → OutputCounted s → step s = .next t → OutputCounted t

/-- Every step keeps `OUT` a whole number of frames in an open ENCODE session (R69, R145), given the session
invariant. -/
def Obligations.StepKeepsWholeFrames : Prop :=
  ∀ s t : State, SessionInv s → WholeFrames s → step s = .next t → WholeFrames t
end

