-- ==== Sys2Proof/Laws/Memory.lean ====
section
/-! SUPPORT. The laws of the byte memory behind `DST`: a read after a write, and that every operation keeps
the canonical form. -/

namespace Sys2Proof.Laws

open Sys2Proof Sys2Proof.Machine

/-- Every entry's address is at least `a`. -/
def Above (a : Nat) (m : Memory) : Prop := ∀ c ∈ m, a ≤ c.1

theorem wf_nil : Memory.wf [] = true := rfl

/-- The canonical form of a nonempty memory: its first entry is listed for good reason, the others lie above
it and are canonical. -/
theorem wf_cons (c : Host.Cell) (m : Memory) :
    Memory.wf (c :: m) = true ↔ c.2 ≠ Memory.blank ∧ Above (c.1 + 1) m ∧ Memory.wf m = true := by
  induction m generalizing c with
  | nil => simp [Memory.wf, Above]
  | cons d m ih =>
    simp only [Memory.wf, Bool.and_eq_true, bne_iff_ne, ne_eq, decide_eq_true_eq]
    constructor
    · rintro ⟨⟨h1, h2⟩, h3⟩
      refine ⟨h1, ?_, h3⟩
      obtain ⟨-, hab, -⟩ := (ih d).1 h3
      intro e he
      rcases List.mem_cons.1 he with rfl | he
      · omega
      · have := hab e he
        omega
    · rintro ⟨h1, h2, h3⟩
      have := h2 d (by simp)
      exact ⟨⟨h1, by omega⟩, h3⟩

theorem wf_erase (m : Memory) (a : Nat) (h : Memory.wf m = true) : Memory.wf (m.erase a) = true := by
  induction m with
  | nil => rfl
  | cons c m ih =>
    obtain ⟨h1, h2, h3⟩ := (wf_cons c m).1 h
    unfold Memory.erase at ih ⊢
    by_cases hc : c.1 = a
    · simpa [hc] using ih h3
    · rw [List.filter_cons_of_pos (by simpa using hc), wf_cons]
      exact ⟨h1, fun e he => h2 e (List.mem_filter.1 he).1, ih h3⟩

theorem above_insert (m : Memory) (k a : Nat) (b : Byte) (hm : Above k m) (ha : k ≤ a) :
    Above k (m.insert a b) := by
  induction m with
  | nil => simpa [Memory.insert, Above] using ha
  | cons c m ih =>
    have hc : k ≤ c.1 := hm c (by simp)
    have hm' : Above k m := fun e he => hm e (by simp [he])
    unfold Memory.insert
    split
    · intro e he
      rcases List.mem_cons.1 he with rfl | he
      · exact ha
      · exact hm e he
    · intro e he
      rcases List.mem_cons.1 he with rfl | he
      · exact hc
      · exact ih hm' e he

theorem wf_insert (m : Memory) (a : Nat) (b : Byte) (h : Memory.wf m = true) (hb : b ≠ Memory.blank)
    (ha : ∀ c ∈ m, c.1 ≠ a) : Memory.wf (m.insert a b) = true := by
  induction m with
  | nil => simpa [Memory.insert, Memory.wf] using hb
  | cons c m ih =>
    obtain ⟨h1, h2, h3⟩ := (wf_cons c m).1 h
    have hca : c.1 ≠ a := ha c (by simp)
    unfold Memory.insert
    split
    · rename_i hlt
      rw [wf_cons]
      refine ⟨hb, ?_, h⟩
      intro e he
      rcases List.mem_cons.1 he with rfl | he
      · exact hlt
      · have := h2 e he
        show a + 1 ≤ e.1
        omega
    · rw [wf_cons]
      exact ⟨h1, above_insert m _ a b h2 (by omega), ih h3 (fun e he => ha e (by simp [he]))⟩

/-- A write keeps the canonical form. -/
theorem wf_write (m : Memory) (a : Nat) (b : Byte) (h : Memory.wf m = true) :
    Memory.wf (m.write a b) = true := by
  unfold Memory.write
  split
  · exact wf_erase m a h
  · rename_i hb
    refine wf_insert _ a b (wf_erase m a h) hb ?_
    intro c hc
    simpa using (List.mem_filter.1 hc).2

/-- Writing a run of bytes keeps the canonical form. -/
theorem wf_writeBytes (bs : List Byte) : ∀ (m : Memory) (a : Nat), Memory.wf m = true →
    Memory.wf (m.writeBytes a bs) = true := by
  induction bs with
  | nil => intro m a h; exact h
  | cons b bs ih => intro m a h; exact ih _ _ (wf_write m a b h)

theorem read_erase (m : Memory) (a x : Nat) :
    (m.erase a).read x = if x = a then Memory.blank else m.read x := by
  unfold Memory.erase
  induction m with
  | nil => simp [Memory.read]
  | cons c m ih =>
    by_cases hc : c.1 = a
    · rw [List.filter_cons_of_neg (by simpa using hc), ih]
      by_cases hx : x = a
      · simp [hx]
      · have : c.1 ≠ x := by omega
        simp [hx, Memory.read, this]
    · rw [List.filter_cons_of_pos (by simpa using hc)]
      by_cases hcx : c.1 = x
      · have : x ≠ a := by omega
        simp [Memory.read, hcx, this]
      · rw [Memory.read, if_neg hcx, ih, Memory.read, if_neg hcx]

theorem read_insert (m : Memory) (a x : Nat) (b : Byte) (ha : ∀ c ∈ m, c.1 ≠ a) :
    (m.insert a b).read x = if x = a then b else m.read x := by
  induction m with
  | nil =>
    by_cases hx : x = a
    · simp [Memory.insert, Memory.read, hx]
    · simp [Memory.insert, Memory.read, hx, Ne.symm hx]
  | cons c m ih =>
    have hca : c.1 ≠ a := ha c (by simp)
    have ih := ih (fun e he => ha e (by simp [he]))
    unfold Memory.insert
    split
    · by_cases hx : x = a
      · simp [Memory.read, hx]
      · simp [Memory.read, hx, Ne.symm hx]
    · by_cases hcx : c.1 = x
      · have : x ≠ a := by omega
        simp [Memory.read, hcx, this]
      · simp [Memory.read, hcx, ih]

/-- A read after a write: the byte written at its address, and every other byte as before. -/
theorem read_write (m : Memory) (a x : Nat) (b : Byte) :
    (m.write a b).read x = if x = a then b else m.read x := by
  unfold Memory.write
  split
  · rename_i hb
    rw [read_erase, hb]
  · rw [read_insert _ a x b ?_, read_erase]
    · by_cases hx : x = a <;> simp [hx]
    · intro c hc
      simpa using (List.mem_filter.1 hc).2

@[simp] theorem read_write_same (m : Memory) (a : Nat) (b : Byte) : (m.write a b).read a = b := by
  rw [read_write]
  simp

theorem read_write_other (m : Memory) (a x : Nat) (b : Byte) (h : x ≠ a) :
    (m.write a b).read x = m.read x := by
  rw [read_write]
  simp [h]

end Sys2Proof.Laws
end

