-- ==== Sys2Proof/Laws/State.lean ====
section
/-! SUPPORT. What each named update of the state does to each field, each true by `rfl`: with these no proof
unfolds a record update. -/

namespace Sys2Proof.Laws

open Sys2Proof Sys2Proof.Machine

variable (s : State)

/-! ## `setErr` -/

@[simp] theorem setErr_params (e : ErrCode) : (s.setErr e).params = s.params := rfl
@[simp] theorem setErr_cfg (e : ErrCode) : (s.setErr e).cfg = s.cfg := rfl
@[simp] theorem setErr_derived (e : ErrCode) : (s.setErr e).derived = s.derived := rfl
@[simp] theorem setErr_tables (e : ErrCode) : (s.setErr e).tables = s.tables := rfl
@[simp] theorem setErr_filter (e : ErrCode) : (s.setErr e).filter = s.filter := rfl
@[simp] theorem setErr_edge (e : ErrCode) : (s.setErr e).edge = s.edge := rfl
@[simp] theorem setErr_dec (e : ErrCode) : (s.setErr e).dec = s.dec := rfl
@[simp] theorem setErr_status_session (e : ErrCode) : (s.setErr e).status.session = s.status.session := rfl
@[simp] theorem setErr_status_dstate (e : ErrCode) : (s.setErr e).status.dstate = s.status.dstate := rfl
@[simp] theorem setErr_status_dcause (e : ErrCode) : (s.setErr e).status.dcause = s.status.dcause := rfl
@[simp] theorem setErr_status_err (e : ErrCode) : (s.setErr e).status.err = e := rfl
@[simp] theorem setErr_io (e : ErrCode) : (s.setErr e).io = s.io := rfl
@[simp] theorem setErr_inPos (e : ErrCode) : (s.setErr e).inPos = s.inPos := rfl
@[simp] theorem setErr_encCount (e : ErrCode) : (s.setErr e).encCount = s.encCount := rfl
@[simp] theorem setErr_inp (e : ErrCode) : (s.setErr e).inp = s.inp := rfl
@[simp] theorem setErr_out (e : ErrCode) : (s.setErr e).out = s.out := rfl
@[simp] theorem setErr_sink (e : ErrCode) : (s.setErr e).sink = s.sink := rfl
@[simp] theorem setErr_offeredIn (e : ErrCode) : (s.setErr e).offeredIn = s.offeredIn := rfl
@[simp] theorem setErr_offeredSink (e : ErrCode) : (s.setErr e).offeredSink = s.offeredSink := rfl
@[simp] theorem setErr_src (e : ErrCode) : (s.setErr e).src = s.src := rfl
@[simp] theorem setErr_dst (e : ErrCode) : (s.setErr e).dst = s.dst := rfl
@[simp] theorem setErr_running (e : ErrCode) : (s.setErr e).running = s.running := rfl
@[simp] theorem setErr_seq (e : ErrCode) : (s.setErr e).seq = s.seq := rfl
@[simp] theorem setErr_queue (e : ErrCode) : (s.setErr e).queue = s.queue := rfl
@[simp] theorem setErr_obs (e : ErrCode) : (s.setErr e).obs = s.obs := rfl
@[simp] theorem setErr_refusal (e : ErrCode) : (s.setErr e).refusal = s.refusal := rfl
@[simp] theorem setErr_draws (e : ErrCode) : (s.setErr e).draws = s.draws := rfl

/-! ## `setSession` -/

@[simp] theorem setSession_params (v : Session) : (s.setSession v).params = s.params := rfl
@[simp] theorem setSession_cfg (v : Session) : (s.setSession v).cfg = s.cfg := rfl
@[simp] theorem setSession_derived (v : Session) : (s.setSession v).derived = s.derived := rfl
@[simp] theorem setSession_tables (v : Session) : (s.setSession v).tables = s.tables := rfl
@[simp] theorem setSession_filter (v : Session) : (s.setSession v).filter = s.filter := rfl
@[simp] theorem setSession_edge (v : Session) : (s.setSession v).edge = s.edge := rfl
@[simp] theorem setSession_dec (v : Session) : (s.setSession v).dec = s.dec := rfl
@[simp] theorem setSession_status_session (v : Session) : (s.setSession v).status.session = v := rfl
@[simp] theorem setSession_status_dstate (v : Session) : (s.setSession v).status.dstate = s.status.dstate := rfl
@[simp] theorem setSession_status_dcause (v : Session) : (s.setSession v).status.dcause = s.status.dcause := rfl
@[simp] theorem setSession_status_err (v : Session) : (s.setSession v).status.err = s.status.err := rfl
@[simp] theorem setSession_io (v : Session) : (s.setSession v).io = s.io := rfl
@[simp] theorem setSession_inPos (v : Session) : (s.setSession v).inPos = s.inPos := rfl
@[simp] theorem setSession_encCount (v : Session) : (s.setSession v).encCount = s.encCount := rfl
@[simp] theorem setSession_inp (v : Session) : (s.setSession v).inp = s.inp := rfl
@[simp] theorem setSession_out (v : Session) : (s.setSession v).out = s.out := rfl
@[simp] theorem setSession_sink (v : Session) : (s.setSession v).sink = s.sink := rfl
@[simp] theorem setSession_offeredIn (v : Session) : (s.setSession v).offeredIn = s.offeredIn := rfl
@[simp] theorem setSession_offeredSink (v : Session) : (s.setSession v).offeredSink = s.offeredSink := rfl
@[simp] theorem setSession_src (v : Session) : (s.setSession v).src = s.src := rfl
@[simp] theorem setSession_dst (v : Session) : (s.setSession v).dst = s.dst := rfl
@[simp] theorem setSession_running (v : Session) : (s.setSession v).running = s.running := rfl
@[simp] theorem setSession_seq (v : Session) : (s.setSession v).seq = s.seq := rfl
@[simp] theorem setSession_queue (v : Session) : (s.setSession v).queue = s.queue := rfl
@[simp] theorem setSession_obs (v : Session) : (s.setSession v).obs = s.obs := rfl
@[simp] theorem setSession_refusal (v : Session) : (s.setSession v).refusal = s.refusal := rfl
@[simp] theorem setSession_draws (v : Session) : (s.setSession v).draws = s.draws := rfl

/-! ## `setDState` -/

@[simp] theorem setDState_params (v : DState) : (s.setDState v).params = s.params := rfl
@[simp] theorem setDState_cfg (v : DState) : (s.setDState v).cfg = s.cfg := rfl
@[simp] theorem setDState_derived (v : DState) : (s.setDState v).derived = s.derived := rfl
@[simp] theorem setDState_tables (v : DState) : (s.setDState v).tables = s.tables := rfl
@[simp] theorem setDState_filter (v : DState) : (s.setDState v).filter = s.filter := rfl
@[simp] theorem setDState_edge (v : DState) : (s.setDState v).edge = s.edge := rfl
@[simp] theorem setDState_dec (v : DState) : (s.setDState v).dec = s.dec := rfl
@[simp] theorem setDState_status_session (v : DState) : (s.setDState v).status.session = s.status.session := rfl
@[simp] theorem setDState_status_dstate (v : DState) : (s.setDState v).status.dstate = v := rfl
@[simp] theorem setDState_status_dcause (v : DState) : (s.setDState v).status.dcause = s.status.dcause := rfl
@[simp] theorem setDState_status_err (v : DState) : (s.setDState v).status.err = s.status.err := rfl
@[simp] theorem setDState_io (v : DState) : (s.setDState v).io = s.io := rfl
@[simp] theorem setDState_inPos (v : DState) : (s.setDState v).inPos = s.inPos := rfl
@[simp] theorem setDState_encCount (v : DState) : (s.setDState v).encCount = s.encCount := rfl
@[simp] theorem setDState_inp (v : DState) : (s.setDState v).inp = s.inp := rfl
@[simp] theorem setDState_out (v : DState) : (s.setDState v).out = s.out := rfl
@[simp] theorem setDState_sink (v : DState) : (s.setDState v).sink = s.sink := rfl
@[simp] theorem setDState_offeredIn (v : DState) : (s.setDState v).offeredIn = s.offeredIn := rfl
@[simp] theorem setDState_offeredSink (v : DState) : (s.setDState v).offeredSink = s.offeredSink := rfl
@[simp] theorem setDState_src (v : DState) : (s.setDState v).src = s.src := rfl
@[simp] theorem setDState_dst (v : DState) : (s.setDState v).dst = s.dst := rfl
@[simp] theorem setDState_running (v : DState) : (s.setDState v).running = s.running := rfl
@[simp] theorem setDState_seq (v : DState) : (s.setDState v).seq = s.seq := rfl
@[simp] theorem setDState_queue (v : DState) : (s.setDState v).queue = s.queue := rfl
@[simp] theorem setDState_obs (v : DState) : (s.setDState v).obs = s.obs := rfl
@[simp] theorem setDState_refusal (v : DState) : (s.setDState v).refusal = s.refusal := rfl
@[simp] theorem setDState_draws (v : DState) : (s.setDState v).draws = s.draws := rfl

/-! ## `setDCause` -/

@[simp] theorem setDCause_params (v : DCause) : (s.setDCause v).params = s.params := rfl
@[simp] theorem setDCause_cfg (v : DCause) : (s.setDCause v).cfg = s.cfg := rfl
@[simp] theorem setDCause_derived (v : DCause) : (s.setDCause v).derived = s.derived := rfl
@[simp] theorem setDCause_tables (v : DCause) : (s.setDCause v).tables = s.tables := rfl
@[simp] theorem setDCause_filter (v : DCause) : (s.setDCause v).filter = s.filter := rfl
@[simp] theorem setDCause_edge (v : DCause) : (s.setDCause v).edge = s.edge := rfl
@[simp] theorem setDCause_dec (v : DCause) : (s.setDCause v).dec = s.dec := rfl
@[simp] theorem setDCause_status_session (v : DCause) : (s.setDCause v).status.session = s.status.session := rfl
@[simp] theorem setDCause_status_dstate (v : DCause) : (s.setDCause v).status.dstate = s.status.dstate := rfl
@[simp] theorem setDCause_status_dcause (v : DCause) : (s.setDCause v).status.dcause = v := rfl
@[simp] theorem setDCause_status_err (v : DCause) : (s.setDCause v).status.err = s.status.err := rfl
@[simp] theorem setDCause_io (v : DCause) : (s.setDCause v).io = s.io := rfl
@[simp] theorem setDCause_inPos (v : DCause) : (s.setDCause v).inPos = s.inPos := rfl
@[simp] theorem setDCause_encCount (v : DCause) : (s.setDCause v).encCount = s.encCount := rfl
@[simp] theorem setDCause_inp (v : DCause) : (s.setDCause v).inp = s.inp := rfl
@[simp] theorem setDCause_out (v : DCause) : (s.setDCause v).out = s.out := rfl
@[simp] theorem setDCause_sink (v : DCause) : (s.setDCause v).sink = s.sink := rfl
@[simp] theorem setDCause_offeredIn (v : DCause) : (s.setDCause v).offeredIn = s.offeredIn := rfl
@[simp] theorem setDCause_offeredSink (v : DCause) : (s.setDCause v).offeredSink = s.offeredSink := rfl
@[simp] theorem setDCause_src (v : DCause) : (s.setDCause v).src = s.src := rfl
@[simp] theorem setDCause_dst (v : DCause) : (s.setDCause v).dst = s.dst := rfl
@[simp] theorem setDCause_running (v : DCause) : (s.setDCause v).running = s.running := rfl
@[simp] theorem setDCause_seq (v : DCause) : (s.setDCause v).seq = s.seq := rfl
@[simp] theorem setDCause_queue (v : DCause) : (s.setDCause v).queue = s.queue := rfl
@[simp] theorem setDCause_obs (v : DCause) : (s.setDCause v).obs = s.obs := rfl
@[simp] theorem setDCause_refusal (v : DCause) : (s.setDCause v).refusal = s.refusal := rfl
@[simp] theorem setDCause_draws (v : DCause) : (s.setDCause v).draws = s.draws := rfl

/-! ## `setRes` -/

@[simp] theorem setRes_params (w : Word) : (s.setRes w).params = s.params := rfl
@[simp] theorem setRes_cfg (w : Word) : (s.setRes w).cfg = s.cfg := rfl
@[simp] theorem setRes_derived (w : Word) : (s.setRes w).derived = s.derived := rfl
@[simp] theorem setRes_tables (w : Word) : (s.setRes w).tables = s.tables := rfl
@[simp] theorem setRes_filter (w : Word) : (s.setRes w).filter = s.filter := rfl
@[simp] theorem setRes_edge (w : Word) : (s.setRes w).edge = s.edge := rfl
@[simp] theorem setRes_dec (w : Word) : (s.setRes w).dec = s.dec := rfl
@[simp] theorem setRes_status (w : Word) : (s.setRes w).status = s.status := rfl
@[simp] theorem setRes_io_cmd (w : Word) : (s.setRes w).io.cmd = s.io.cmd := rfl
@[simp] theorem setRes_io_arg0 (w : Word) : (s.setRes w).io.arg0 = s.io.arg0 := rfl
@[simp] theorem setRes_io_arg1 (w : Word) : (s.setRes w).io.arg1 = s.io.arg1 := rfl
@[simp] theorem setRes_io_arg2 (w : Word) : (s.setRes w).io.arg2 = s.io.arg2 := rfl
@[simp] theorem setRes_io_arg3 (w : Word) : (s.setRes w).io.arg3 = s.io.arg3 := rfl
@[simp] theorem setRes_io_res (w : Word) : (s.setRes w).io.res = w := rfl
@[simp] theorem setRes_io_resHi (w : Word) : (s.setRes w).io.resHi = s.io.resHi := rfl
@[simp] theorem setRes_inPos (w : Word) : (s.setRes w).inPos = s.inPos := rfl
@[simp] theorem setRes_encCount (w : Word) : (s.setRes w).encCount = s.encCount := rfl
@[simp] theorem setRes_inp (w : Word) : (s.setRes w).inp = s.inp := rfl
@[simp] theorem setRes_out (w : Word) : (s.setRes w).out = s.out := rfl
@[simp] theorem setRes_sink (w : Word) : (s.setRes w).sink = s.sink := rfl
@[simp] theorem setRes_offeredIn (w : Word) : (s.setRes w).offeredIn = s.offeredIn := rfl
@[simp] theorem setRes_offeredSink (w : Word) : (s.setRes w).offeredSink = s.offeredSink := rfl
@[simp] theorem setRes_src (w : Word) : (s.setRes w).src = s.src := rfl
@[simp] theorem setRes_dst (w : Word) : (s.setRes w).dst = s.dst := rfl
@[simp] theorem setRes_running (w : Word) : (s.setRes w).running = s.running := rfl
@[simp] theorem setRes_seq (w : Word) : (s.setRes w).seq = s.seq := rfl
@[simp] theorem setRes_queue (w : Word) : (s.setRes w).queue = s.queue := rfl
@[simp] theorem setRes_obs (w : Word) : (s.setRes w).obs = s.obs := rfl
@[simp] theorem setRes_refusal (w : Word) : (s.setRes w).refusal = s.refusal := rfl
@[simp] theorem setRes_draws (w : Word) : (s.setRes w).draws = s.draws := rfl

/-! ## `setResHi` -/

@[simp] theorem setResHi_params (w : Word) : (s.setResHi w).params = s.params := rfl
@[simp] theorem setResHi_cfg (w : Word) : (s.setResHi w).cfg = s.cfg := rfl
@[simp] theorem setResHi_derived (w : Word) : (s.setResHi w).derived = s.derived := rfl
@[simp] theorem setResHi_tables (w : Word) : (s.setResHi w).tables = s.tables := rfl
@[simp] theorem setResHi_filter (w : Word) : (s.setResHi w).filter = s.filter := rfl
@[simp] theorem setResHi_edge (w : Word) : (s.setResHi w).edge = s.edge := rfl
@[simp] theorem setResHi_dec (w : Word) : (s.setResHi w).dec = s.dec := rfl
@[simp] theorem setResHi_status (w : Word) : (s.setResHi w).status = s.status := rfl
@[simp] theorem setResHi_io_cmd (w : Word) : (s.setResHi w).io.cmd = s.io.cmd := rfl
@[simp] theorem setResHi_io_arg0 (w : Word) : (s.setResHi w).io.arg0 = s.io.arg0 := rfl
@[simp] theorem setResHi_io_arg1 (w : Word) : (s.setResHi w).io.arg1 = s.io.arg1 := rfl
@[simp] theorem setResHi_io_arg2 (w : Word) : (s.setResHi w).io.arg2 = s.io.arg2 := rfl
@[simp] theorem setResHi_io_arg3 (w : Word) : (s.setResHi w).io.arg3 = s.io.arg3 := rfl
@[simp] theorem setResHi_io_res (w : Word) : (s.setResHi w).io.res = s.io.res := rfl
@[simp] theorem setResHi_io_resHi (w : Word) : (s.setResHi w).io.resHi = w := rfl
@[simp] theorem setResHi_inPos (w : Word) : (s.setResHi w).inPos = s.inPos := rfl
@[simp] theorem setResHi_encCount (w : Word) : (s.setResHi w).encCount = s.encCount := rfl
@[simp] theorem setResHi_inp (w : Word) : (s.setResHi w).inp = s.inp := rfl
@[simp] theorem setResHi_out (w : Word) : (s.setResHi w).out = s.out := rfl
@[simp] theorem setResHi_sink (w : Word) : (s.setResHi w).sink = s.sink := rfl
@[simp] theorem setResHi_offeredIn (w : Word) : (s.setResHi w).offeredIn = s.offeredIn := rfl
@[simp] theorem setResHi_offeredSink (w : Word) : (s.setResHi w).offeredSink = s.offeredSink := rfl
@[simp] theorem setResHi_src (w : Word) : (s.setResHi w).src = s.src := rfl
@[simp] theorem setResHi_dst (w : Word) : (s.setResHi w).dst = s.dst := rfl
@[simp] theorem setResHi_running (w : Word) : (s.setResHi w).running = s.running := rfl
@[simp] theorem setResHi_seq (w : Word) : (s.setResHi w).seq = s.seq := rfl
@[simp] theorem setResHi_queue (w : Word) : (s.setResHi w).queue = s.queue := rfl
@[simp] theorem setResHi_obs (w : Word) : (s.setResHi w).obs = s.obs := rfl
@[simp] theorem setResHi_refusal (w : Word) : (s.setResHi w).refusal = s.refusal := rfl
@[simp] theorem setResHi_draws (w : Word) : (s.setResHi w).draws = s.draws := rfl

/-! ## `setCmd` -/

@[simp] theorem setCmd_params (i : Instr) : (s.setCmd i).params = s.params := rfl
@[simp] theorem setCmd_cfg (i : Instr) : (s.setCmd i).cfg = s.cfg := rfl
@[simp] theorem setCmd_derived (i : Instr) : (s.setCmd i).derived = s.derived := rfl
@[simp] theorem setCmd_tables (i : Instr) : (s.setCmd i).tables = s.tables := rfl
@[simp] theorem setCmd_filter (i : Instr) : (s.setCmd i).filter = s.filter := rfl
@[simp] theorem setCmd_edge (i : Instr) : (s.setCmd i).edge = s.edge := rfl
@[simp] theorem setCmd_dec (i : Instr) : (s.setCmd i).dec = s.dec := rfl
@[simp] theorem setCmd_status (i : Instr) : (s.setCmd i).status = s.status := rfl
@[simp] theorem setCmd_io_cmd (i : Instr) : (s.setCmd i).io.cmd = i.code := rfl
@[simp] theorem setCmd_io_arg0 (i : Instr) : (s.setCmd i).io.arg0 = s.io.arg0 := rfl
@[simp] theorem setCmd_io_arg1 (i : Instr) : (s.setCmd i).io.arg1 = s.io.arg1 := rfl
@[simp] theorem setCmd_io_arg2 (i : Instr) : (s.setCmd i).io.arg2 = s.io.arg2 := rfl
@[simp] theorem setCmd_io_arg3 (i : Instr) : (s.setCmd i).io.arg3 = s.io.arg3 := rfl
@[simp] theorem setCmd_io_res (i : Instr) : (s.setCmd i).io.res = s.io.res := rfl
@[simp] theorem setCmd_io_resHi (i : Instr) : (s.setCmd i).io.resHi = s.io.resHi := rfl
@[simp] theorem setCmd_inPos (i : Instr) : (s.setCmd i).inPos = s.inPos := rfl
@[simp] theorem setCmd_encCount (i : Instr) : (s.setCmd i).encCount = s.encCount := rfl
@[simp] theorem setCmd_inp (i : Instr) : (s.setCmd i).inp = s.inp := rfl
@[simp] theorem setCmd_out (i : Instr) : (s.setCmd i).out = s.out := rfl
@[simp] theorem setCmd_sink (i : Instr) : (s.setCmd i).sink = s.sink := rfl
@[simp] theorem setCmd_offeredIn (i : Instr) : (s.setCmd i).offeredIn = s.offeredIn := rfl
@[simp] theorem setCmd_offeredSink (i : Instr) : (s.setCmd i).offeredSink = s.offeredSink := rfl
@[simp] theorem setCmd_src (i : Instr) : (s.setCmd i).src = s.src := rfl
@[simp] theorem setCmd_dst (i : Instr) : (s.setCmd i).dst = s.dst := rfl
@[simp] theorem setCmd_running (i : Instr) : (s.setCmd i).running = s.running := rfl
@[simp] theorem setCmd_seq (i : Instr) : (s.setCmd i).seq = s.seq := rfl
@[simp] theorem setCmd_queue (i : Instr) : (s.setCmd i).queue = s.queue := rfl
@[simp] theorem setCmd_obs (i : Instr) : (s.setCmd i).obs = s.obs := rfl
@[simp] theorem setCmd_refusal (i : Instr) : (s.setCmd i).refusal = s.refusal := rfl
@[simp] theorem setCmd_draws (i : Instr) : (s.setCmd i).draws = s.draws := rfl

/-! ## `setPhase` -/

@[simp] theorem setPhase_params (v : Phase) : (s.setPhase v).params = s.params := rfl
@[simp] theorem setPhase_cfg (v : Phase) : (s.setPhase v).cfg = s.cfg := rfl
@[simp] theorem setPhase_derived (v : Phase) : (s.setPhase v).derived = s.derived := rfl
@[simp] theorem setPhase_tables (v : Phase) : (s.setPhase v).tables = s.tables := rfl
@[simp] theorem setPhase_filter (v : Phase) : (s.setPhase v).filter = s.filter := rfl
@[simp] theorem setPhase_edge_ph (v : Phase) : (s.setPhase v).edge.ph = v := rfl
@[simp] theorem setPhase_edge_pcnt (v : Phase) : (s.setPhase v).edge.pcnt = s.edge.pcnt := rfl
@[simp] theorem setPhase_edge_pulse (v : Phase) : (s.setPhase v).edge.pulse = s.edge.pulse := rfl
@[simp] theorem setPhase_dec (v : Phase) : (s.setPhase v).dec = s.dec := rfl
@[simp] theorem setPhase_status (v : Phase) : (s.setPhase v).status = s.status := rfl
@[simp] theorem setPhase_io (v : Phase) : (s.setPhase v).io = s.io := rfl
@[simp] theorem setPhase_inPos (v : Phase) : (s.setPhase v).inPos = s.inPos := rfl
@[simp] theorem setPhase_encCount (v : Phase) : (s.setPhase v).encCount = s.encCount := rfl
@[simp] theorem setPhase_inp (v : Phase) : (s.setPhase v).inp = s.inp := rfl
@[simp] theorem setPhase_out (v : Phase) : (s.setPhase v).out = s.out := rfl
@[simp] theorem setPhase_sink (v : Phase) : (s.setPhase v).sink = s.sink := rfl
@[simp] theorem setPhase_offeredIn (v : Phase) : (s.setPhase v).offeredIn = s.offeredIn := rfl
@[simp] theorem setPhase_offeredSink (v : Phase) : (s.setPhase v).offeredSink = s.offeredSink := rfl
@[simp] theorem setPhase_src (v : Phase) : (s.setPhase v).src = s.src := rfl
@[simp] theorem setPhase_dst (v : Phase) : (s.setPhase v).dst = s.dst := rfl
@[simp] theorem setPhase_running (v : Phase) : (s.setPhase v).running = s.running := rfl
@[simp] theorem setPhase_seq (v : Phase) : (s.setPhase v).seq = s.seq := rfl
@[simp] theorem setPhase_queue (v : Phase) : (s.setPhase v).queue = s.queue := rfl
@[simp] theorem setPhase_obs (v : Phase) : (s.setPhase v).obs = s.obs := rfl
@[simp] theorem setPhase_refusal (v : Phase) : (s.setPhase v).refusal = s.refusal := rfl
@[simp] theorem setPhase_draws (v : Phase) : (s.setPhase v).draws = s.draws := rfl

/-! ## `setPcnt` -/

@[simp] theorem setPcnt_params (n : Nat) : (s.setPcnt n).params = s.params := rfl
@[simp] theorem setPcnt_cfg (n : Nat) : (s.setPcnt n).cfg = s.cfg := rfl
@[simp] theorem setPcnt_derived (n : Nat) : (s.setPcnt n).derived = s.derived := rfl
@[simp] theorem setPcnt_tables (n : Nat) : (s.setPcnt n).tables = s.tables := rfl
@[simp] theorem setPcnt_filter (n : Nat) : (s.setPcnt n).filter = s.filter := rfl
@[simp] theorem setPcnt_edge_ph (n : Nat) : (s.setPcnt n).edge.ph = s.edge.ph := rfl
@[simp] theorem setPcnt_edge_pcnt (n : Nat) : (s.setPcnt n).edge.pcnt = n := rfl
@[simp] theorem setPcnt_edge_pulse (n : Nat) : (s.setPcnt n).edge.pulse = s.edge.pulse := rfl
@[simp] theorem setPcnt_dec (n : Nat) : (s.setPcnt n).dec = s.dec := rfl
@[simp] theorem setPcnt_status (n : Nat) : (s.setPcnt n).status = s.status := rfl
@[simp] theorem setPcnt_io (n : Nat) : (s.setPcnt n).io = s.io := rfl
@[simp] theorem setPcnt_inPos (n : Nat) : (s.setPcnt n).inPos = s.inPos := rfl
@[simp] theorem setPcnt_encCount (n : Nat) : (s.setPcnt n).encCount = s.encCount := rfl
@[simp] theorem setPcnt_inp (n : Nat) : (s.setPcnt n).inp = s.inp := rfl
@[simp] theorem setPcnt_out (n : Nat) : (s.setPcnt n).out = s.out := rfl
@[simp] theorem setPcnt_sink (n : Nat) : (s.setPcnt n).sink = s.sink := rfl
@[simp] theorem setPcnt_offeredIn (n : Nat) : (s.setPcnt n).offeredIn = s.offeredIn := rfl
@[simp] theorem setPcnt_offeredSink (n : Nat) : (s.setPcnt n).offeredSink = s.offeredSink := rfl
@[simp] theorem setPcnt_src (n : Nat) : (s.setPcnt n).src = s.src := rfl
@[simp] theorem setPcnt_dst (n : Nat) : (s.setPcnt n).dst = s.dst := rfl
@[simp] theorem setPcnt_running (n : Nat) : (s.setPcnt n).running = s.running := rfl
@[simp] theorem setPcnt_seq (n : Nat) : (s.setPcnt n).seq = s.seq := rfl
@[simp] theorem setPcnt_queue (n : Nat) : (s.setPcnt n).queue = s.queue := rfl
@[simp] theorem setPcnt_obs (n : Nat) : (s.setPcnt n).obs = s.obs := rfl
@[simp] theorem setPcnt_refusal (n : Nat) : (s.setPcnt n).refusal = s.refusal := rfl
@[simp] theorem setPcnt_draws (n : Nat) : (s.setPcnt n).draws = s.draws := rfl

/-! ## `setPulse` -/

@[simp] theorem setPulse_params (p : Pulse) : (s.setPulse p).params = s.params := rfl
@[simp] theorem setPulse_cfg (p : Pulse) : (s.setPulse p).cfg = s.cfg := rfl
@[simp] theorem setPulse_derived (p : Pulse) : (s.setPulse p).derived = s.derived := rfl
@[simp] theorem setPulse_tables (p : Pulse) : (s.setPulse p).tables = s.tables := rfl
@[simp] theorem setPulse_filter (p : Pulse) : (s.setPulse p).filter = s.filter := rfl
@[simp] theorem setPulse_edge_ph (p : Pulse) : (s.setPulse p).edge.ph = s.edge.ph := rfl
@[simp] theorem setPulse_edge_pcnt (p : Pulse) : (s.setPulse p).edge.pcnt = s.edge.pcnt := rfl
@[simp] theorem setPulse_edge_pulse (p : Pulse) : (s.setPulse p).edge.pulse = p := rfl
@[simp] theorem setPulse_dec (p : Pulse) : (s.setPulse p).dec = s.dec := rfl
@[simp] theorem setPulse_status (p : Pulse) : (s.setPulse p).status = s.status := rfl
@[simp] theorem setPulse_io (p : Pulse) : (s.setPulse p).io = s.io := rfl
@[simp] theorem setPulse_inPos (p : Pulse) : (s.setPulse p).inPos = s.inPos := rfl
@[simp] theorem setPulse_encCount (p : Pulse) : (s.setPulse p).encCount = s.encCount := rfl
@[simp] theorem setPulse_inp (p : Pulse) : (s.setPulse p).inp = s.inp := rfl
@[simp] theorem setPulse_out (p : Pulse) : (s.setPulse p).out = s.out := rfl
@[simp] theorem setPulse_sink (p : Pulse) : (s.setPulse p).sink = s.sink := rfl
@[simp] theorem setPulse_offeredIn (p : Pulse) : (s.setPulse p).offeredIn = s.offeredIn := rfl
@[simp] theorem setPulse_offeredSink (p : Pulse) : (s.setPulse p).offeredSink = s.offeredSink := rfl
@[simp] theorem setPulse_src (p : Pulse) : (s.setPulse p).src = s.src := rfl
@[simp] theorem setPulse_dst (p : Pulse) : (s.setPulse p).dst = s.dst := rfl
@[simp] theorem setPulse_running (p : Pulse) : (s.setPulse p).running = s.running := rfl
@[simp] theorem setPulse_seq (p : Pulse) : (s.setPulse p).seq = s.seq := rfl
@[simp] theorem setPulse_queue (p : Pulse) : (s.setPulse p).queue = s.queue := rfl
@[simp] theorem setPulse_obs (p : Pulse) : (s.setPulse p).obs = s.obs := rfl
@[simp] theorem setPulse_refusal (p : Pulse) : (s.setPulse p).refusal = s.refusal := rfl
@[simp] theorem setPulse_draws (p : Pulse) : (s.setPulse p).draws = s.draws := rfl

/-! ## `observe` -/

@[simp] theorem observe_params (o : Observation) : (s.observe o).params = s.params := rfl
@[simp] theorem observe_cfg (o : Observation) : (s.observe o).cfg = s.cfg := rfl
@[simp] theorem observe_derived (o : Observation) : (s.observe o).derived = s.derived := rfl
@[simp] theorem observe_tables (o : Observation) : (s.observe o).tables = s.tables := rfl
@[simp] theorem observe_filter (o : Observation) : (s.observe o).filter = s.filter := rfl
@[simp] theorem observe_edge (o : Observation) : (s.observe o).edge = s.edge := rfl
@[simp] theorem observe_dec (o : Observation) : (s.observe o).dec = s.dec := rfl
@[simp] theorem observe_status (o : Observation) : (s.observe o).status = s.status := rfl
@[simp] theorem observe_io (o : Observation) : (s.observe o).io = s.io := rfl
@[simp] theorem observe_inPos (o : Observation) : (s.observe o).inPos = s.inPos := rfl
@[simp] theorem observe_encCount (o : Observation) : (s.observe o).encCount = s.encCount := rfl
@[simp] theorem observe_inp (o : Observation) : (s.observe o).inp = s.inp := rfl
@[simp] theorem observe_out (o : Observation) : (s.observe o).out = s.out := rfl
@[simp] theorem observe_sink (o : Observation) : (s.observe o).sink = s.sink := rfl
@[simp] theorem observe_offeredIn (o : Observation) : (s.observe o).offeredIn = s.offeredIn := rfl
@[simp] theorem observe_offeredSink (o : Observation) : (s.observe o).offeredSink = s.offeredSink := rfl
@[simp] theorem observe_src (o : Observation) : (s.observe o).src = s.src := rfl
@[simp] theorem observe_dst (o : Observation) : (s.observe o).dst = s.dst := rfl
@[simp] theorem observe_running (o : Observation) : (s.observe o).running = s.running := rfl
@[simp] theorem observe_seq (o : Observation) : (s.observe o).seq = s.seq := rfl
@[simp] theorem observe_queue (o : Observation) : (s.observe o).queue = s.queue := rfl
@[simp] theorem observe_obs (o : Observation) : (s.observe o).obs = s.obs ++ [o] := rfl
@[simp] theorem observe_refusal (o : Observation) : (s.observe o).refusal = s.refusal := rfl
@[simp] theorem observe_draws (o : Observation) : (s.observe o).draws = s.draws := rfl

/-! ## `refuse`: every field but the mark (R256) -/

@[simp] theorem refuse_params (r : Refusal) : (s.refuse r).params = s.params := rfl
@[simp] theorem refuse_cfg (r : Refusal) : (s.refuse r).cfg = s.cfg := rfl
@[simp] theorem refuse_derived (r : Refusal) : (s.refuse r).derived = s.derived := rfl
@[simp] theorem refuse_tables (r : Refusal) : (s.refuse r).tables = s.tables := rfl
@[simp] theorem refuse_filter (r : Refusal) : (s.refuse r).filter = s.filter := rfl
@[simp] theorem refuse_edge (r : Refusal) : (s.refuse r).edge = s.edge := rfl
@[simp] theorem refuse_dec (r : Refusal) : (s.refuse r).dec = s.dec := rfl
@[simp] theorem refuse_status (r : Refusal) : (s.refuse r).status = s.status := rfl
@[simp] theorem refuse_io (r : Refusal) : (s.refuse r).io = s.io := rfl
@[simp] theorem refuse_inPos (r : Refusal) : (s.refuse r).inPos = s.inPos := rfl
@[simp] theorem refuse_encCount (r : Refusal) : (s.refuse r).encCount = s.encCount := rfl
@[simp] theorem refuse_inp (r : Refusal) : (s.refuse r).inp = s.inp := rfl
@[simp] theorem refuse_out (r : Refusal) : (s.refuse r).out = s.out := rfl
@[simp] theorem refuse_sink (r : Refusal) : (s.refuse r).sink = s.sink := rfl
@[simp] theorem refuse_offeredIn (r : Refusal) : (s.refuse r).offeredIn = s.offeredIn := rfl
@[simp] theorem refuse_offeredSink (r : Refusal) : (s.refuse r).offeredSink = s.offeredSink := rfl
@[simp] theorem refuse_src (r : Refusal) : (s.refuse r).src = s.src := rfl
@[simp] theorem refuse_dst (r : Refusal) : (s.refuse r).dst = s.dst := rfl
@[simp] theorem refuse_running (r : Refusal) : (s.refuse r).running = s.running := rfl
@[simp] theorem refuse_seq (r : Refusal) : (s.refuse r).seq = s.seq := rfl
@[simp] theorem refuse_queue (r : Refusal) : (s.refuse r).queue = s.queue := rfl
@[simp] theorem refuse_obs (r : Refusal) : (s.refuse r).obs = s.obs := rfl
@[simp] theorem refuse_draws (r : Refusal) : (s.refuse r).draws = s.draws := rfl

/-- The mark after a refusal is the first refusal's reason. -/
theorem refuse_refusal (r : Refusal) : (s.refuse r).refusal = some (s.refusal.getD r) := by
  unfold State.refuse
  cases s.refusal <;> rfl

/-- A mark once set is kept by a later refusal. -/
theorem refuse_of_marked (r q : Refusal) (h : s.refusal = some q) : s.refuse r = s := by
  cases s
  simp only at h
  subst h
  rfl

/-! ## The composed updates -/

@[simp] theorem abort_eq (e : ErrCode) : s.abort e = (s.setErr e).setSession .aborted := rfl
@[simp] theorem setResNat_eq (n : Nat) : s.setResNat n = s.setRes (BitVec.ofNat 32 n) := rfl
@[simp] theorem finish_eq (c : DCause) : s.finish c = (s.setDState .done).setDCause c := rfl
@[simp] theorem startPulse_eq : s.startPulse = (s.setPhase .seekHigh).setPcnt 0 := rfl
@[simp] theorem decReset_eq (cap : Word) :
    s.decReset cap = ({ s with dec := ⟨0#8, 0#4, 0#32, cap⟩ }.setDState .searching).setDCause .notDone := rfl
@[simp] theorem giveBackDst_eq : s.giveBackDst = s.observe (.dstAfter s.dec.cap s.dst) := rfl
@[simp] theorem blockDone_eq : s.blockDone = s.giveBackDst.setRes s.dec.count := rfl
@[simp] theorem blockFailed_eq : s.blockFailed = ((s.finish .ioFail).abort .streamRead).giveBackDst := rfl
@[simp] theorem lookStatus_eq : s.lookStatus = s.observe (.regRead 0x60#8 s.status.image) := rfl
@[simp] theorem lookRes_eq : s.lookRes = s.observe (.regRead 0x75#8 s.io.res) := rfl

end Sys2Proof.Laws
end

