-- ==== Sys2Proof/Laws/Command.lean ====
section
/-! SUPPORT. What starting a command can do (Machine/Ops.lean, `command`): it always answers a next state, which
is a refusal or the state its steps leave. -/

namespace Sys2Proof.Laws

open Sys2Proof Sys2Proof.Machine Sys2Proof.Safety

/-! ## The refusal mark -/

theorem refuse_ne_none (s : State) (r : Refusal) : (s.refuse r).refusal ≠ none := by
  unfold State.refuse
  cases s.refusal <;> simp

theorem refuse_keeps (s : State) (r q : Refusal) (h : s.refusal = some q) : (s.refuse r).refusal = some q := by
  simp [State.refuse, h]

theorem refuse_frame (s : State) (r : Refusal) : { s.refuse r with refusal := s.refusal } = s := rfl

/-! ## Preconditions -/

theorem preRefusal_session (i : Instr) (s : State) (h : sessionOk i s.status.session = false) :
    preRefusal i s = some .sessionPrecondition := by
  simp [preRefusal, h]

theorem preRefusal_mode (i : Instr) (s : State) (m : Mode) (h : sessionOk i s.status.session = true)
    (hm : modeNeeded i = some m) (hne : s.cfg.mode ≠ m) : preRefusal i s = some .modePrecondition := by
  simp [preRefusal, h, hm, hne]

theorem preRefusal_none_iff (i : Instr) (s : State) :
    preRefusal i s = none ↔ sessionOk i s.status.session = true ∧ ∀ m, modeNeeded i = some m → s.cfg.mode = m := by
  unfold preRefusal
  cases sessionOk i s.status.session
  · simp
  · cases modeNeeded i with
    | none => simp
    | some m => by_cases h : s.cfg.mode = m <;> simp [h]

/-- An open session of the kind a command needs admits every command but `OPEN`. -/
theorem preRefusal_ready (i : Instr) (s : State) (m : Mode) (h : Ready m s) (hi : i ≠ .openSession)
    (hm : modeNeeded i = none ∨ modeNeeded i = some m) : preRefusal i s = none := by
  rw [preRefusal_none_iff]
  constructor
  · rw [h.1]
    cases i <;> first | rfl | exact absurd rfl hi
  · intro m' hm'
    rcases hm with hm | hm <;> rw [hm] at hm' <;> simp_all

/-! ## Commands -/

theorem command_refused (i : Instr) (s : State) (body : State → Except Refusal Run) (r : Refusal)
    (h : preRefusal i s = some r) : command i s body = .next (s.refuse r) := by
  simp [command, h]

theorem command_bad_operand (i : Instr) (s : State) (body : State → Except Refusal Run) (r : Refusal)
    (h : preRefusal i s = none) (hb : body (s.setCmd i) = .error r) : command i s body = .next (s.refuse r) := by
  simp [command, h, hb]

theorem command_runs (i : Instr) (s : State) (body : State → Except Refusal Run) (run : Run)
    (h : preRefusal i s = none) (hb : body (s.setCmd i) = .ok run) :
    command i s body = .next (run.settle s) := by
  simp [command, h, hb]

/-- Everything a command can do. -/
theorem command_cases {i : Instr} {s t : State} {body : State → Except Refusal Run}
    (h : command i s body = .next t) :
    (∃ r, t = s.refuse r) ∨
      (preRefusal i s = none ∧ ∃ run, body (s.setCmd i) = .ok run ∧ t = run.settle s) := by
  unfold command at h
  cases hp : preRefusal i s with
  | some r =>
    rw [hp] at h
    injection h with h
    exact .inl ⟨r, h.symm⟩
  | none =>
    rw [hp] at h
    cases hb : body (s.setCmd i) with
    | error r =>
      simp only [hb] at h
      injection h with h
      exact .inl ⟨r, h.symm⟩
    | ok run =>
      simp only [hb] at h
      injection h with h
      exact .inr ⟨rfl, run, rfl, h.symm⟩

/-- Everything the end of a command's steps can do. -/
theorem settle_cases (s₀ : State) (run : Run) :
    (∃ s, run = .done s ∧ run.settle s₀ = { s with running := none }) ∨
      (∃ a s, run = .waiting a s ∧ run.settle s₀ = { s with running := some a }) ∨
      (run = .overflow ∧ run.settle s₀ = s₀.refuse .counterOverflow) := by
  cases run with
  | done s => exact .inl ⟨s, rfl, rfl⟩
  | waiting a s => exact .inr (.inl ⟨a, s, rfl, rfl⟩)
  | overflow => exact .inr (.inr ⟨rfl, rfl⟩)

end Sys2Proof.Laws
end

