-- ==== Sys2Proof/Laws/Streams.lean ====
section
/-! SUPPORT. What the stream primitives can do: `InRead`, the input oracle, and the writing of frames. -/

namespace Sys2Proof.Laws

open Sys2Proof Sys2Proof.Machine Sys2Proof.Safety

/-! ## InRead (R61) -/

/-- A read finds a whole frame, and takes it. -/
theorem inRead_frame (s : State) (f : Frame) (rest : List Byte) (hb : s.inp.bytes = f ++ rest)
    (hf : f.length = s.derived.frameBytes) : s.inRead = (.frame f, readFrames s 1 rest) := by
  simp [State.inRead, Source.next, hb, ← hf, readFrames]

/-- A read past the supplied bytes takes what follows them, and changes nothing. -/
theorem inRead_tail (s : State) (h : s.inp.bytes.length < s.derived.frameBytes) :
    s.inRead = (match s.inp.tail with | .eos => .eos | .fails => .failed | .oracle => .pending, s) := by
  have : ¬s.derived.frameBytes ≤ s.inp.bytes.length := by omega
  cases ht : s.inp.tail <;> simp [State.inRead, Source.next, this, ht]

/-- Everything `InRead` can do. -/
theorem inRead_cases (s : State) :
    (∃ f rest, s.inp.bytes = f ++ rest ∧ f.length = s.derived.frameBytes ∧
      s.inRead = (.frame f, readFrames s 1 rest)) ∨
    (s.inp.bytes.length < s.derived.frameBytes ∧
      s.inRead = (match s.inp.tail with | .eos => .eos | .fails => .failed | .oracle => .pending, s)) := by
  by_cases h : s.inp.bytes.length < s.derived.frameBytes
  · exact .inr ⟨h, inRead_tail s h⟩
  · have hl : (s.inp.bytes.take s.derived.frameBytes).length = s.derived.frameBytes := by
      rw [List.length_take]; omega
    exact .inl ⟨_, _, (List.take_append_drop _ _).symm, hl,
      inRead_frame s _ _ (List.take_append_drop _ _).symm hl⟩

/-- The input oracle changes the stream and the count of answers only. -/
theorem askInput_frame (s : State) :
    s.askInput = { s with inp := s.askInput.inp, draws := s.askInput.draws } := by
  unfold State.askInput
  split <;> rfl

/-! ## Writing frames (R64) -/

/-- One accepted write. -/
theorem outWrite_accept (s : State) (f : Frame) (k : Sink) (hk : sinkAfter 1 s.sink = some k)
    (hc : CountFits s [f]) : s.outWrite f = .ok (wrote s [f] k) := by
  have hc' : s.encCount + f.length < 2 ^ s.params.wCount := by simpa [CountFits] using hc
  match hs : s.sink with
  | .accepts =>
    have : k = .accepts := by simpa [sinkAfter, hs] using hk.symm
    subst this
    simp [State.outWrite, State.sinkAnswer, hs, State.append, hc', wrote]
  | .failsAfter 0 taken => simp [sinkAfter, hs] at hk
  | .failsAfter (n + 1) taken =>
    have : k = .failsAfter n taken := by simpa [sinkAfter, hs] using hk.symm
    subst this
    simp [State.outWrite, State.sinkAnswer, hs, State.append, hc', wrote]
  | .oracle => simp [sinkAfter, hs] at hk

/-- One failing write: the bytes the sink took are appended. -/
theorem outWrite_fail (s : State) (f : Frame) (taken : Nat) (hs : s.sink = .failsAfter 0 taken)
    (hc : CountFits s [f.take taken]) :
    s.outWrite f = .failed (wrote s [f.take taken] (.failsAfter 0 taken)) := by
  have hc' : s.encCount + (f.take taken).length < 2 ^ s.params.wCount := by simpa [CountFits] using hc
  simp only [State.outWrite, State.sinkAnswer, hs, State.append, hc', if_true, wrote]
  simp

theorem sinkAfter_add (m n : Nat) (v k : Sink) (h : sinkAfter (m + n) v = some k) :
    ∃ j, sinkAfter m v = some j ∧ sinkAfter n j = some k := by
  cases v with
  | accepts => exact ⟨.accepts, rfl, h⟩
  | failsAfter c taken =>
    by_cases hc : m + n ≤ c
    · have h1 : m ≤ c := by omega
      have h2 : n ≤ c - m := by omega
      refine ⟨.failsAfter (c - m) taken, by simp [sinkAfter, h1], ?_⟩
      simpa [sinkAfter, hc, h2, Nat.sub_sub] using h
    · simp [sinkAfter, hc] at h
  | oracle => simp [sinkAfter] at h

theorem sinkAfter_zero (v k : Sink) (h : sinkAfter 0 v = some k) : k = v := by
  cases v <;> simp_all [sinkAfter]

theorem wrote_wrote (s : State) (fs gs : List Frame) (j k : Sink) :
    wrote (wrote s fs j) gs k = wrote s (fs ++ gs) k := by
  simp [wrote, Nat.add_assoc]

/-- All writes accepted: the frames are appended and counted. -/
theorem emit_accept (fs : List Frame) : ∀ (s : State) (k : Sink), sinkAfter fs.length s.sink = some k →
    CountFits s fs → s.emit fs = .ok (wrote s fs k) := by
  induction fs with
  | nil =>
    intro s k hk _
    have := sinkAfter_zero _ _ hk
    subst this
    simp [State.emit, wrote]
  | cons f fs ih =>
    intro s k hk hc
    rw [List.length_cons, Nat.add_comm] at hk
    obtain ⟨j, hj, hk⟩ := sinkAfter_add _ _ _ _ hk
    have h1 : CountFits s [f] := by simp [CountFits] at hc ⊢; omega
    have h2 : CountFits (wrote s [f] j) fs := by simp [CountFits, wrote] at hc ⊢; omega
    rw [State.emit, outWrite_accept s f j hj h1]
    simp only []
    rw [ih _ _ hk h2, wrote_wrote]
    rfl

theorem emit_append (fs gs : List Frame) : ∀ s : State, s.emit (fs ++ gs) =
    match s.emit fs with
    | .ok t => t.emit gs
    | .failed t => .failed t
    | .overflow => .overflow := by
  induction fs with
  | nil => intro s; rfl
  | cons f fs ih =>
    intro s
    simp only [List.cons_append, State.emit]
    cases s.outWrite f <;> simp [ih]

/-- A failing write after `k` accepted ones. -/
theorem emit_fail (fs : List Frame) (s : State) (k taken : Nat) (f : Frame) (hs : s.sink = .failsAfter k taken)
    (hf : fs[k]? = some f) (hc : CountFits s (fs.take k ++ [f.take taken])) :
    s.emit fs = .failed (wrote s (fs.take k ++ [f.take taken]) (.failsAfter 0 taken)) := by
  have hk : k < fs.length := (List.getElem?_eq_some_iff.1 hf).1
  have hfs : fs = fs.take k ++ f :: fs.drop (k + 1) := by
    have hg : fs[k] = f := (List.getElem?_eq_some_iff.1 hf).2
    rw [← hg, ← List.drop_eq_getElem_cons hk, List.take_append_drop]
  have hlen : (fs.take k).length = k := by rw [List.length_take]; omega
  have hsink : sinkAfter (fs.take k).length s.sink = some (.failsAfter 0 taken) := by
    rw [hlen, hs]; simp [sinkAfter]
  have h1 : CountFits s (fs.take k) := by simp [CountFits] at hc ⊢; omega
  rw [congrArg (State.emit · s) hfs, emit_append, emit_accept _ _ _ hsink h1]
  simp only [State.emit]
  rw [outWrite_fail _ f taken rfl (by simp [CountFits, wrote] at hc ⊢; omega)]
  simp only [wrote_wrote]

/-- An accepted write past the width of `ENC_COUNT` (R12). -/
theorem outWrite_overflow (s : State) (f : Frame) (k : Sink) (hk : sinkAfter 1 s.sink = some k)
    (hc : ¬CountFits s [f]) : s.outWrite f = .overflow := by
  have hc' : ¬s.encCount + f.length < 2 ^ s.params.wCount := by simpa [CountFits] using hc
  match hs : s.sink with
  | .accepts => simp [State.outWrite, State.sinkAnswer, hs, State.append, hc']
  | .failsAfter 0 taken => simp [sinkAfter, hs] at hk
  | .failsAfter (n + 1) taken => simp [State.outWrite, State.sinkAnswer, hs, State.append, hc']
  | .oracle => simp [sinkAfter, hs] at hk

/-- An emission of which the writes up to frame `k` are accepted and pass the width of `ENC_COUNT` (R12). -/
theorem emit_overflow (fs : List Frame) : ∀ (s : State) (k : Nat) (f : Frame), fs[k]? = some f →
    sinkAfter (k + 1) s.sink ≠ none → ¬CountFits s (fs.take (k + 1)) → s.emit fs = .overflow := by
  induction fs with
  | nil => intro s k f hf; simp at hf
  | cons g gs ih =>
    intro s k f hf hs hc
    obtain ⟨v, hv⟩ := Option.ne_none_iff_exists'.1 hs
    rw [Nat.add_comm] at hv
    obtain ⟨j, hj, hk⟩ := sinkAfter_add _ _ _ _ hv
    rw [State.emit]
    by_cases h1 : CountFits s [g]
    · rw [outWrite_accept s g j hj h1]
      cases k with
      | zero => exact absurd h1 (by simpa using hc)
      | succ k =>
        exact ih (wrote s [g] j) k f (by simpa using hf) (by rw [show (wrote s [g] j).sink = j from rfl, hk]; simp)
          (by simpa [CountFits, wrote, Nat.add_assoc] using hc)
    · rw [outWrite_overflow s g j hj h1]

/-- An emission whose write `k` fails, with its bytes past the width of `ENC_COUNT` (R12, R64). -/
theorem emit_fail_overflow (fs : List Frame) : ∀ (s : State) (k taken : Nat) (f : Frame),
    s.sink = .failsAfter k taken → fs[k]? = some f → ¬CountFits s (fs.take k ++ [f.take taken]) →
    s.emit fs = .overflow := by
  induction fs with
  | nil => intro s k taken f _ hf; simp at hf
  | cons g gs ih =>
    intro s k taken f hs hf hc
    rw [State.emit]
    cases k with
    | zero =>
      have hg : g = f := by simpa using hf
      subst hg
      have hc' : ¬s.encCount + (g.take taken).length < 2 ^ s.params.wCount := by simpa [CountFits] using hc
      simp only [State.outWrite, State.sinkAnswer, hs, State.append, hc', if_false]
    | succ k =>
      have hj : sinkAfter 1 s.sink = some (.failsAfter k taken) := by rw [hs]; simp [sinkAfter]
      by_cases h1 : CountFits s [g]
      · rw [outWrite_accept s g _ hj h1]
        exact ih (wrote s [g] (.failsAfter k taken)) k taken f rfl (by simpa using hf)
          (by simpa [CountFits, wrote, Nat.add_assoc] using hc)
      · rw [outWrite_overflow s g _ hj h1]

/-- What a write can change: the output, its count, the sink and the count of free answers. -/
theorem outWrite_cases (s : State) (f : Frame) :
    (∃ k d, s.outWrite f = .ok { wrote s [f] k with draws := d }) ∨
    (∃ taken k d, s.outWrite f = .failed { wrote s [f.take taken] k with draws := d }) ∨
      s.outWrite f = .overflow := by
  unfold State.outWrite
  have hframe : ∃ k d, s.sinkAnswer.2 = { s with sink := k, draws := d } := by
    unfold State.sinkAnswer
    split <;> exact ⟨_, _, rfl⟩
  obtain ⟨k, d, h⟩ := hframe
  match ha : s.sinkAnswer with
  | (.accept, s1) =>
    rw [ha] at h
    subst h
    simp only [State.append]
    split_ifs
    · exact .inl ⟨k, d, by simp [wrote]⟩
    · exact .inr (.inr rfl)
  | (.fail taken, s1) =>
    rw [ha] at h
    subst h
    simp only [State.append]
    split_ifs
    · exact .inr (.inl ⟨taken, k, d, by simp [wrote]⟩)
    · exact .inr (.inr rfl)

/-- Everything the writing of frames can do: all of them are appended; or some, and part of the next; or a
counter would overflow. -/
theorem emit_cases (fs : List Frame) : ∀ s : State,
    (∃ k d, s.emit fs = .ok { wrote s fs k with draws := d }) ∨
    (∃ gs k d, s.emit fs = .failed { wrote s gs k with draws := d }) ∨ s.emit fs = .overflow := by
  induction fs with
  | nil => intro s; exact .inl ⟨s.sink, s.draws, by simp [State.emit, wrote]⟩
  | cons f fs ih =>
    intro s
    rw [State.emit]
    rcases outWrite_cases s f with ⟨j, d, h⟩ | ⟨taken, k, d, h⟩ | h
    · rw [h]
      rcases ih { wrote s [f] j with draws := d } with ⟨k, e, h'⟩ | ⟨gs, k, e, h'⟩ | h'
      · exact .inl ⟨k, e, by simp only [h']; simp [wrote, Nat.add_assoc]⟩
      · exact .inr (.inl ⟨f :: gs, k, e, by simp only [h']; simp [wrote, Nat.add_assoc]⟩)
      · exact .inr (.inr (by simp only [h']))
    · exact .inr (.inl ⟨[f.take taken], k, d, by rw [h]⟩)
    · exact .inr (.inr (by rw [h]))

end Sys2Proof.Laws
end

