-- ==== Sys2Proof/Laws/Pulse.lean ====
section
/-! SUPPORT. What the classifier and the pulse measurement can do (Machine/Classifier.lean): the frame of each
operation, one access of a measurement, and its loop over the frames the stream has supplied. -/

namespace Sys2Proof.Laws

open Sys2Proof Sys2Proof.Machine Sys2Proof.Safety

/-! ## Classification -/

/-- Everything one filter step does: the mean of the cells below the order, the cell stored, the index advanced
(R173). -/
theorem filterStep_spec (t : FilterState) (order : Nat) (x : Rat) (h2 : 0 < order) (h55 : order ≤ 55) :
    (t.step order x).1 = ((t.step order x).2.buf.toList.take order).sum / order ∧
      (∀ i : Fin 55, (t.step order x).2.buf[i] = if i = t.idx then x else t.buf[i]) ∧
      (t.step order x).2.idx.val = (t.idx.val + 1) % order := by
  refine ⟨rfl, fun i => ?_, ?_⟩
  · show (t.buf.set t.idx.val x)[i.val] = _
    rw [Vector.getElem_set]
    by_cases hi : t.idx.val = i.val
    · rw [if_pos hi, if_pos (Fin.ext hi.symm)]
    · rw [if_neg hi, if_neg (fun he => hi (by rw [he]))]
      rfl
  · show ((t.idx.val + 1) % order) % 55 = _
    have : (t.idx.val + 1) % order < order := Nat.mod_lt _ h2
    exact Nat.mod_eq_of_lt (by omega)

/-- Taking a sample's value changes the filter only (R170). -/
theorem value_frame (s : State) (f : Frame) : (s.value f).2 = { s with filter := (s.value f).2.filter } := by
  unfold State.value
  split <;> rfl

theorem classify_frame (s : State) (f : Frame) :
    (s.classify f).2 = { s with filter := (s.classify f).2.filter } := value_frame s f

/-- The region and the filter after it depend on the configuration, the derived registers and the filter. -/
theorem classify_congr (s t : State) (f : Frame) (hc : t.cfg = s.cfg) (hd : t.derived = s.derived)
    (hf : t.filter = s.filter) :
    (t.classify f).1 = (s.classify f).1 ∧ (t.classify f).2.filter = (s.classify f).2.filter := by
  unfold State.classify State.value
  rw [hc, hd, hf]
  split <;> simp [hf]

theorem scanRegions_congr (fs : List Frame) : ∀ s t : State, t.cfg = s.cfg → t.derived = s.derived →
    t.filter = s.filter →
    (scanRegions t fs).1 = (scanRegions s fs).1 ∧
      (scanRegions t fs).2.filter = (scanRegions s fs).2.filter := by
  induction fs with
  | nil => intro s t _ _ hf; exact ⟨rfl, hf⟩
  | cons f fs ih =>
    intro s t hc hd hf
    obtain ⟨h1, h2⟩ := classify_congr s t f hc hd hf
    obtain ⟨h3, h4⟩ := ih (s.classify f).2 (t.classify f).2
      (by rw [classify_frame s, classify_frame t]; exact hc)
      (by rw [classify_frame s, classify_frame t]; exact hd) h2
    exact ⟨by simp only [scanRegions, h1, h3], h4⟩

theorem scanRegions_length (fs : List Frame) : ∀ s : State, (scanRegions s fs).1.length = fs.length := by
  induction fs with
  | nil => intro s; rfl
  | cons f fs ih => intro s; simp [scanRegions, ih]

theorem scanRegions_append (fs gs : List Frame) : ∀ s : State,
    scanRegions s (fs ++ gs) =
      ((scanRegions s fs).1 ++ (scanRegions (scanRegions s fs).2 gs).1, (scanRegions (scanRegions s fs).2 gs).2) := by
  induction fs with
  | nil => intro s; rfl
  | cons f fs ih => intro s; simp [scanRegions, ih]

/-- With the filter disabled a frame's region is its own (R170). -/
theorem classify_unfiltered (s : State) (f : Frame) (h : s.cfg.filterEn = false) :
    s.classify f = (frameRegion s.cfg f, s) := by
  simp [State.classify, State.value, h, frameRegion]

theorem scanRegions_unfiltered (fs : List Frame) (s : State) (h : s.cfg.filterEn = false) :
    scanRegions s fs = (fs.map (frameRegion s.cfg), s) := by
  induction fs with
  | nil => rfl
  | cons f fs ih => simp [scanRegions, classify_unfiltered s f h, ih]

/-! ## Phases -/

/-- The phase after regions that complete no pulse; none if one is completed. -/
def phaseAfter : Phase → List Region → Option Phase
  | ph, [] => some ph
  | ph, r :: rs =>
    match nextPhase ph r with
    | (_, true) => none
    | (ph', false) => phaseAfter ph' rs

theorem phaseAfter_seekHigh (rs : List Region) (h : Region.high ∉ rs) : phaseAfter .seekHigh rs = some .seekHigh := by
  induction rs with
  | nil => rfl
  | cons r rs ih =>
    cases r
    · simpa [phaseAfter, nextPhase] using ih (fun hm => h (by simp [hm]))
    · exact absurd (by simp) h
    · simpa [phaseAfter, nextPhase] using ih (fun hm => h (by simp [hm]))

theorem phaseAfter_seekLow (rs : List Region) (h : Region.low ∉ rs) : phaseAfter .seekLow rs = some .seekLow := by
  induction rs with
  | nil => rfl
  | cons r rs ih =>
    cases r
    · simpa [phaseAfter, nextPhase] using ih (fun hm => h (by simp [hm]))
    · simpa [phaseAfter, nextPhase] using ih (fun hm => h (by simp [hm]))
    · exact absurd (by simp) h

theorem phaseAfter_append (rs qs : List Region) : ∀ ph, phaseAfter ph (rs ++ qs) =
    (phaseAfter ph rs).bind fun v => phaseAfter v qs := by
  induction rs with
  | nil => intro ph; rfl
  | cons r rs ih =>
    intro ph
    simp only [List.cons_append, phaseAfter]
    split
    · rfl
    · exact ih _

theorem phaseAfter_scansTo (ph : Phase) (rs : List Region) (h : ScansTo ph rs) :
    phaseAfter .seekHigh rs = some ph := by
  rcases h with ⟨rfl, h⟩ | ⟨rfl, a, b, rfl, ha, hb⟩
  · exact phaseAfter_seekHigh rs h
  · rw [phaseAfter_append, phaseAfter_seekHigh a ha]
    simpa [phaseAfter, nextPhase] using phaseAfter_seekLow b hb

/-! ## One access -/

/-- `s` after counting these frames of a measurement in progress, with this phase and these bytes left. -/
def counted (s : State) (fs : List Frame) (ph : Phase) (rest : List Byte) : State :=
  { readFrames s fs.length rest with
    filter := (scanRegions s fs).2.filter
    edge := { s.edge with ph := ph, pcnt := s.edge.pcnt + fs.length } }

/-- One access that finds a frame (R183). -/
theorem pulseAccess_frame (s : State) (f : Frame) (rest : List Byte) (hb : s.inp.bytes = f ++ rest)
    (hf : f.length = s.derived.frameBytes) (hp : PcntFits s (s.edge.pcnt + 1)) :
    pulseAccess s =
      match nextPhase s.edge.ph (s.classify f).1 with
      | (ph, true) =>
        .measured (.width (s.edge.pcnt + 1)) ((counted s [f] ph rest).setPulse (.width (s.edge.pcnt + 1)))
      | (ph, false) => .going (counted s [f] ph rest) := by
  have hcong := classify_congr s (readFrames s 1 rest) f rfl rfl rfl
  unfold pulseAccess
  rw [inRead_frame s f rest hb hf]
  simp only []
  rw [if_neg (by simpa [PcntFits] using hp), hcong.1, classify_frame (readFrames s 1 rest), hcong.2]
  cases hn : nextPhase s.edge.ph (s.classify f).1 with
  | mk ph done => cases done <;> rfl

/-- One access past the supplied bytes (R183, R184, R188). -/
theorem pulseAccess_tail (s : State) (h : s.inp.bytes.length < s.derived.frameBytes) :
    pulseAccess s =
      match s.inp.tail with
      | .eos => .measured .eos ((s.setPhase .idle).setPulse .eos)
      | .fails => .failed
      | .oracle => .pending := by
  unfold pulseAccess
  rw [inRead_tail s h]
  cases s.inp.tail <;> rfl

/-- Everything one access can do: it touches the stream, its position, the filter and the edge detector. -/
theorem pulseAccess_cases (s : State) :
    (∃ t : State, pulseAccess s = .going t ∧
      t = { s with inp := t.inp, inPos := t.inPos, filter := t.filter, edge := t.edge }) ∨
    (∃ (p : Pulse) (t : State), pulseAccess s = .measured p t ∧
      t = { s with inp := t.inp, inPos := t.inPos, filter := t.filter, edge := t.edge }) ∨
    pulseAccess s = .failed ∨ pulseAccess s = .pending ∨ pulseAccess s = .overflow := by
  rcases inRead_cases s with ⟨f, rest, hb, hf, -⟩ | ⟨h, -⟩
  · by_cases hp : PcntFits s (s.edge.pcnt + 1)
    · rw [pulseAccess_frame s f rest hb hf hp]
      cases nextPhase s.edge.ph (s.classify f).1 with
      | mk ph done =>
        cases done
        · exact .inl ⟨_, rfl, rfl⟩
        · exact .inr (.inl ⟨_, _, rfl, rfl⟩)
    · refine .inr (.inr (.inr (.inr ?_)))
      unfold pulseAccess
      rw [inRead_frame s f rest hb hf]
      simp only []
      rw [if_pos (by simpa [PcntFits] using hp)]
  · rw [pulseAccess_tail s h]
    cases s.inp.tail
    · exact .inr (.inl ⟨_, _, rfl, rfl⟩)
    · exact .inr (.inr (.inl rfl))
    · exact .inr (.inr (.inr (.inl rfl)))

/-! ## Counting frames -/

theorem pcntFits_mono (s : State) (m n : Nat) (h : m ≤ n) (hn : PcntFits s n) : PcntFits s m := by
  unfold PcntFits pcntOverflows at *
  cases hw : s.params.wPulse with
  | none => rfl
  | some w =>
    rw [hw] at hn
    simp only [decide_eq_false_iff_not] at hn ⊢
    omega

theorem counted_cons (s : State) (f : Frame) (fs : List Frame) (v ph : Phase) (r₁ r₂ : List Byte) :
    counted (counted s [f] v r₁) fs ph r₂ = counted s (f :: fs) ph r₂ := by
  have h : (scanRegions (counted s [f] v r₁) fs).2.filter = (scanRegions (s.classify f).2 fs).2.filter :=
    (scanRegions_congr fs (s.classify f).2 (counted s [f] v r₁)
      (by rw [classify_frame]; rfl) (by rw [classify_frame]; rfl) rfl).2
  unfold counted readFrames at *
  simp only [h]
  simp [scanRegions, Nat.add_assoc, Nat.add_comm 1]

/-- Every frame a measurement counts without completing a pulse, in `CLS.PULSE` and in `DEC.BLOCK`. -/
theorem loops_count (fs : List Frame) : ∀ (s : State) (rest : List Byte) (ph : Phase) (k : Nat),
    NextFrames s fs rest → PcntFits s (s.edge.pcnt + fs.length) →
    phaseAfter s.edge.ph (scanRegions s fs).1 = some ph →
    pulseLoop (fs.length + k) s = pulseLoop k (counted s fs ph rest) ∧
      blockLoop (fs.length + k) s = blockLoop k (counted s fs ph rest) := by
  induction fs with
  | nil =>
    intro s rest ph k hn _ hph
    have hs : counted s [] ph rest = s := by
      have hb : s.inp.bytes = rest := by simpa using hn.1
      have hp : s.edge.ph = ph := by simpa [phaseAfter, scanRegions] using hph
      rw [← hb, ← hp]
      rfl
    rw [hs]
    simp
  | cons f fs ih =>
    intro s rest ph k hn hp hph
    have hf : f.length = s.derived.frameBytes := hn.2 f (by simp)
    have hb : s.inp.bytes = f ++ (fs.flatten ++ rest) := by rw [hn.1]; simp
    rw [List.length_cons] at hp
    have hacc := pulseAccess_frame s f _ hb hf (pcntFits_mono s _ _ (by omega) hp)
    rw [scanRegions, phaseAfter] at hph
    cases hv : nextPhase s.edge.ph (s.classify f).1 with
    | mk v done =>
      rw [hv] at hph hacc
      cases done with
      | true => simp at hph
      | false =>
        simp only [] at hph hacc
        have hsc := scanRegions_congr fs (s.classify f).2 (counted s [f] v (fs.flatten ++ rest))
          (by rw [classify_frame]; rfl) (by rw [classify_frame]; rfl) rfl
        have hi := ih (counted s [f] v (fs.flatten ++ rest)) rest ph k
          ⟨rfl, fun g hg => hn.2 g (by simp [hg])⟩
          (by simpa [counted, readFrames, PcntFits, Nat.add_assoc, Nat.add_comm 1] using hp)
          (by rw [hsc.1]; exact hph)
        rw [counted_cons] at hi
        rw [List.length_cons, show fs.length + 1 + k = (fs.length + k) + 1 by omega]
        simp only [pulseLoop, blockLoop, hacc]
        exact hi

/-- Classification keeps the configuration and the derived registers. -/
theorem scanRegions_session (fs : List Frame) : ∀ s : State,
    (scanRegions s fs).2.cfg = s.cfg ∧ (scanRegions s fs).2.derived = s.derived := by
  induction fs with
  | nil => intro s; exact ⟨rfl, rfl⟩
  | cons f fs ih =>
    intro s
    simp only [scanRegions]
    have h := ih (s.classify f).2
    rw [classify_frame] at h ⊢
    exact h

/-- Every frame of one pulse, in `CLS.PULSE` and in `DEC.BLOCK` (R182, R183). -/
theorem loops_onePulse (s : State) (fs : List Frame) (rest : List Byte) (k : Nat) (hph : s.edge.ph = .seekHigh)
    (h0 : s.edge.pcnt = 0) (hn : NextFrames s fs rest) (hp : PcntFits s fs.length)
    (hone : OnePulse (scanRegions s fs).1) :
    let t := (counted s fs .idle rest).setPulse (.width fs.length)
    pulseLoop (fs.length + k) s = .done (t.setRes (Pulse.width fs.length).image) ∧
      blockLoop (fs.length + k) s =
        if (t.decStep (.width fs.length)).status.dstate = .done then .done (t.decStep (.width fs.length)).blockDone
        else blockLoop k (t.decStep (.width fs.length)).startPulse := by
  obtain ⟨a, b, hab, ha, hb⟩ := hone
  have hne : fs ≠ [] := by
    rintro rfl
    simp [scanRegions] at hab
  obtain ⟨gs, f, rfl⟩ : ∃ gs f, fs = gs ++ [f] :=
    ⟨fs.dropLast, fs.getLast hne, (List.dropLast_append_getLast hne).symm⟩
  rw [scanRegions_append] at hab
  have hsplit : (scanRegions s gs).1 = a ++ Region.high :: b ∧ (scanRegions (scanRegions s gs).2 [f]).1 = [.low] := by
    rw [← List.cons_append, ← List.append_assoc] at hab
    exact List.append_inj' hab (by rw [scanRegions_length]; rfl)
  have hpa : phaseAfter .seekHigh (scanRegions s gs).1 = some .seekLow :=
    phaseAfter_scansTo _ _ (.inr ⟨rfl, a, b, hsplit.1, ha, hb⟩)
  have hlen : (gs ++ [f]).length = gs.length + 1 := by simp
  rw [hlen] at hp ⊢
  obtain ⟨h1, h2⟩ := loops_count gs s (f ++ rest) .seekLow (1 + k)
    ⟨by rw [hn.1]; simp, fun g hg => hn.2 g (by simp [hg])⟩
    (by rw [h0, Nat.zero_add]; exact pcntFits_mono s _ _ (by omega) hp) (by rw [hph]; exact hpa)
  rw [Nat.add_assoc, h1, h2, Nat.add_comm 1 k]
  generalize hu : counted s gs .seekLow (f ++ rest) = u
  have hreg := classify_congr (scanRegions s gs).2 u f (by rw [(scanRegions_session gs s).1, ← hu]; rfl)
    (by rw [(scanRegions_session gs s).2, ← hu]; rfl) (by rw [← hu]; rfl)
  have hlow : (u.classify f).1 = .low := by
    rw [hreg.1]
    simpa [scanRegions] using hsplit.2
  have hup : u.edge = ⟨.seekLow, gs.length, s.edge.pulse⟩ := by rw [← hu]; simp [counted, h0]
  have hacc := pulseAccess_frame u f rest (by rw [← hu]; rfl) (by rw [hn.2 f (by simp), ← hu]; rfl)
    (by rw [hup, ← hu]; exact hp)
  have hfil : (u.classify f).2.filter = (scanRegions s (gs ++ [f])).2.filter := by
    rw [scanRegions_append, hreg.2]
    rfl
  rw [hup, hlow] at hacc
  have ht : (counted u [f] .idle rest).setPulse (.width (gs.length + 1)) =
      (counted s (gs ++ [f]) .idle rest).setPulse (.width (gs.length + 1)) := by
    simp only [counted, scanRegions, hfil, hup, List.length_append, List.length_nil, List.length_cons]
    rw [← hu]
    simp [counted, readFrames, State.setPulse, h0, Nat.add_assoc]
  simp only [nextPhase, ht] at hacc
  simp only [pulseLoop, blockLoop, hacc, and_self]

/-- The frame past the width of `PCNT`, in `CLS.PULSE` and in `DEC.BLOCK` (R12, R182). -/
theorem loops_overflow (s : State) (f : Frame) (rest : List Byte) (k : Nat) (hn : NextFrames s [f] rest)
    (hp : ¬PcntFits s (s.edge.pcnt + 1)) : pulseLoop (k + 1) s = .overflow ∧ blockLoop (k + 1) s = .overflow := by
  have hacc : pulseAccess s = .overflow := by
    unfold pulseAccess
    rw [inRead_frame s f rest (by simpa using hn.1) (hn.2 f (by simp))]
    simp only []
    rw [if_pos (by simpa [PcntFits] using hp)]
  simp only [pulseLoop, blockLoop, hacc, and_self]

/-- The bytes left once frames have been read out of supplied bytes. -/
theorem nextFrames_length (s : State) (fs : List Frame) (rest : List Byte) (h : NextFrames s fs rest)
    (hpos : 0 < s.derived.frameBytes) : fs.length ≤ s.inp.bytes.length := by
  have hsum : ∀ gs : List Frame, (∀ g ∈ gs, g.length = s.derived.frameBytes) → gs.length ≤ gs.flatten.length := by
    intro gs
    induction gs with
    | nil => simp
    | cons g gs ih =>
      intro hg
      have h1 := hg g (by simp)
      have h2 := ih fun x hx => hg x (by simp [hx])
      simp only [List.flatten_cons, List.length_append, List.length_cons]
      omega
  rw [h.1, List.length_append]
  have := hsum fs h.2
  omega

/-- What a measurement's loop leaves: it touches the stream, its position, the filter, the edge detector, and
at its end `RES`, or on a failing read the session and the error code. -/
theorem pulseLoop_cases (k : Nat) : ∀ s : State,
    (∃ t : State, pulseLoop k s = .done t ∧ t = { s with
      inp := t.inp, inPos := t.inPos, filter := t.filter, edge := t.edge, io := { s.io with res := t.io.res } }) ∨
    (∃ t : State, pulseLoop k s = .done (t.abort .streamRead) ∧ t = { s with
      inp := t.inp, inPos := t.inPos, filter := t.filter, edge := t.edge }) ∨
    (∃ t : State, pulseLoop k s = .waiting .pulse t ∧ t = { s with
      inp := t.inp, inPos := t.inPos, filter := t.filter, edge := t.edge }) ∨
    pulseLoop k s = .overflow := by
  induction k with
  | zero => intro s; exact .inr (.inr (.inl ⟨s, rfl, rfl⟩))
  | succ k ih =>
    intro s
    rw [pulseLoop]
    rcases pulseAccess_cases s with ⟨t, h, ht⟩ | ⟨p, t, h, ht⟩ | h | h | h <;> rw [h]
    · rcases ih t with ⟨u, h', hu⟩ | ⟨u, h', hu⟩ | ⟨u, h', hu⟩ | h' <;> simp only [h']
      · exact .inl ⟨u, rfl, by rw [ht] at hu; exact hu⟩
      · exact .inr (.inl ⟨u, rfl, by rw [ht] at hu; exact hu⟩)
      · exact .inr (.inr (.inl ⟨u, rfl, by rw [ht] at hu; exact hu⟩))
      · exact .inr (.inr (.inr trivial))
    · refine .inl ⟨_, rfl, ?_⟩
      rw [ht]
      rfl
    · exact .inr (.inl ⟨s, rfl, rfl⟩)
    · exact .inr (.inr (.inl ⟨s, rfl, rfl⟩))
    · exact .inr (.inr (.inr rfl))

end Sys2Proof.Laws
end

