-- ==== Sys2Proof/Laws/Decoder.lean ====
section
/-! SUPPORT. What the decoder's transitions and the block-load loop can do (Machine/Decoder.lean). -/

namespace Sys2Proof.Laws

open Sys2Proof Sys2Proof.Machine Sys2Proof.Safety

/-! ## One transition -/

/-- A transition touches the decoder registers, the destination buffer and the decoder status only. -/
theorem decStep_frame (s : State) (p : Pulse) :
    s.decStep p = { s with
      dec := (s.decStep p).dec
      dst := (s.decStep p).dst
      status := { s.status with
        dstate := (s.decStep p).status.dstate
        dcause := (s.decStep p).status.dcause } } := by
  unfold State.decStep State.appendBit State.storeByte
  split
  · rfl
  · split_ifs <;> (try split) <;> rfl

/-- DONE is terminal (R204). -/
theorem decStep_done (s : State) (p : Pulse) (h : s.status.dstate = .done) : s.decStep p = s := by
  simp [State.decStep, h]

theorem decStep_eos (s : State) : (s.decStep .eos).status.dstate = .done := by
  unfold State.decStep
  split
  · assumption
  · simp [State.finish]

/-- Every pulse after DONE changes nothing (R204). -/
theorem foldl_done (ps : List Pulse) (s : State) (h : s.status.dstate = .done) : ps.foldl State.decStep s = s := by
  induction ps with
  | nil => rfl
  | cons p ps ih => rw [List.foldl_cons, decStep_done s p h, ih]

/-- `s` with another measurement side: stream, position, filter, edge detector. -/
def measuring (s : State) (i : Source) (n : Nat) (t : FilterState) (e : Edge) : State :=
  { s with inp := i, inPos := n, filter := t, edge := e }

theorem measuring_status (s : State) (i : Source) (n : Nat) (t : FilterState) (e : Edge) :
    (measuring s i n t e).status = s.status := rfl

/-- A transition depends on the decoder registers, the status, the derived registers and the buffer only: it
commutes with any update of the measurement side. -/
theorem decStep_measurement (s : State) (p : Pulse) (i : Source) (n : Nat) (t : FilterState) (e : Edge) :
    (measuring s i n t e).decStep p = measuring (s.decStep p) i n t e := by
  unfold measuring State.decStep State.appendBit State.storeByte
  dsimp only
  split
  · rfl
  · split_ifs <;> (try split) <;> rfl

theorem foldl_measurement (ps : List Pulse) : ∀ (s : State) (i : Source) (n : Nat) (t : FilterState) (e : Edge),
    ps.foldl State.decStep (measuring s i n t e) = measuring (ps.foldl State.decStep s) i n t e := by
  induction ps with
  | nil => intros; rfl
  | cons p ps ih => intro s i n t e; rw [List.foldl_cons, decStep_measurement, ih, List.foldl_cons]

/-- A transition does not depend on the command in progress. -/
theorem decStep_running (s : State) (p : Pulse) (r : Option Activity) :
    ({ s with running := r }).decStep p = { s.decStep p with running := r } := by
  unfold State.decStep State.appendBit State.storeByte
  dsimp only
  split
  · rfl
  · split_ifs <;> (try split) <;> rfl

theorem foldl_running (ps : List Pulse) : ∀ (s : State) (r : Option Activity),
    ps.foldl State.decStep { s with running := r } = { ps.foldl State.decStep s with running := r } := by
  induction ps with
  | nil => intros; rfl
  | cons p ps ih => intro s r; rw [List.foldl_cons, decStep_running, ih, List.foldl_cons]

/-- Transitions touch the decoder registers, the destination buffer and the decoder status only. -/
theorem foldl_frame (ps : List Pulse) : ∀ s : State,
    ps.foldl State.decStep s = { s with
      dec := (ps.foldl State.decStep s).dec
      dst := (ps.foldl State.decStep s).dst
      status := { s.status with
        dstate := (ps.foldl State.decStep s).status.dstate
        dcause := (ps.foldl State.decStep s).status.dcause } } := by
  induction ps with
  | nil => intros; rfl
  | cons p ps ih =>
    intro s
    rw [List.foldl_cons]
    generalize hq : s.decStep p = q
    rw [ih q, ← hq, decStep_frame s p]

/-! ## What a transition keeps -/

/-- A transition keeps the canonical form of the buffer. -/
theorem decStep_wf (s : State) (p : Pulse) (h : Memory.wf s.dst = true) : Memory.wf (s.decStep p).dst = true := by
  have hs : ∀ (u : State) (b : BitVec 8), Memory.wf u.dst = true → Memory.wf (u.storeByte b).dst = true := by
    intro u b hu
    unfold State.storeByte
    split_ifs
    · exact wf_write _ _ _ hu
    · exact hu
  have ha : ∀ b, Memory.wf (s.appendBit b).dst = true := by
    intro b
    unfold State.appendBit
    split_ifs
    · exact hs _ _ h
    · exact h
  unfold State.decStep
  split
  · exact h
  · split_ifs <;> (try split) <;> first | exact h | exact ha _

/-- A transition keeps `DEC_COUNT ≤ DEC_CAP` and `DEC_NBITS ≤ 7` (R209). -/
theorem decStep_bounds (s : State) (p : Pulse) (h : s.dec.count.toNat ≤ s.dec.cap.toNat ∧ s.dec.nbits.toNat ≤ 7) :
    (s.decStep p).dec.count.toNat ≤ (s.decStep p).dec.cap.toNat ∧ (s.decStep p).dec.nbits.toNat ≤ 7 := by
  have hs : ∀ b, (s.storeByte b).dec.count.toNat ≤ (s.storeByte b).dec.cap.toNat ∧
      (s.storeByte b).dec.nbits.toNat ≤ 7 := by
    intro b
    unfold State.storeByte
    split_ifs with hc
    · refine ⟨?_, by simp⟩
      have : s.dec.cap.toNat < 2 ^ 32 := s.dec.cap.isLt
      show (s.dec.count + 1#32).toNat ≤ s.dec.cap.toNat
      rw [BitVec.toNat_add]
      simp only [BitVec.toNat_ofNat]
      omega
    · exact ⟨h.1, by simp [State.finish, State.setDState, State.setDCause]⟩
  have ha : ∀ b, (s.appendBit b).dec.count.toNat ≤ (s.appendBit b).dec.cap.toNat ∧
      (s.appendBit b).dec.nbits.toNat ≤ 7 := by
    intro b
    unfold State.appendBit
    split_ifs with hn
    · exact hs _
    · refine ⟨h.1, ?_⟩
      have h7 := h.2
      have hne : (s.dec.nbits + 1#4).toNat ≠ 8 := fun he => hn (BitVec.eq_of_toNat_eq (by simpa using he))
      show (s.dec.nbits + 1#4).toNat ≤ 7
      rw [BitVec.toNat_add] at hne ⊢
      simp only [BitVec.toNat_ofNat] at hne ⊢
      omega
  unfold State.decStep
  split
  · exact h
  · split_ifs <;> (try split) <;>
      first | exact h | exact ha _ | exact ⟨h.1, by simp [State.setDState]⟩

/-- A transition writes at most the byte at `DEC_COUNT`, inside the capacity; `DEC_CAP` it never writes (R205,
R71). -/
theorem decStep_dst (s : State) (p : Pulse) :
    (s.decStep p).dec.cap = s.dec.cap ∧
    ∀ a, a ≠ s.dec.count.toNat ∨ s.dec.cap.toNat ≤ a → (s.decStep p).dst.read a = s.dst.read a := by
  have hs : ∀ b, (s.storeByte b).dec.cap = s.dec.cap ∧
      ∀ a, a ≠ s.dec.count.toNat ∨ s.dec.cap.toNat ≤ a → (s.storeByte b).dst.read a = s.dst.read a := by
    intro b
    unfold State.storeByte
    split_ifs with hc
    · exact ⟨rfl, fun a ha => read_write_other _ _ _ _ (by rcases ha with h | h <;> omega)⟩
    · exact ⟨rfl, fun a _ => rfl⟩
  have ha : ∀ b, (s.appendBit b).dec.cap = s.dec.cap ∧
      ∀ a, a ≠ s.dec.count.toNat ∨ s.dec.cap.toNat ≤ a → (s.appendBit b).dst.read a = s.dst.read a := by
    intro b
    unfold State.appendBit
    split_ifs
    · exact hs _
    · exact ⟨rfl, fun a _ => rfl⟩
  unfold State.decStep
  split
  · exact ⟨rfl, fun a _ => rfl⟩
  · split_ifs <;> (try split) <;>
      first | exact ⟨rfl, fun a _ => rfl⟩ | exact ha _

/-! ## The block-load loop -/

/-- What a property of the decoder side needs to hold through a block-load attempt: measurements do not touch
it, and every transition keeps it. -/
theorem blockLoop_cases (P : State → Prop)
    (hm : ∀ (s : State) (i : Source) (n : Nat) (t : FilterState) (e : Edge),
      P s → P (measuring s i n t e))
    (hd : ∀ s p, P s → P (s.decStep p)) (k : Nat) : ∀ s : State, P s →
    (∃ t : State, blockLoop k s = .done t.blockDone ∧ P t ∧ t.status.dstate = .done) ∨
    (∃ t : State, blockLoop k s = .done t.blockFailed ∧ P t) ∨
    (∃ t : State, blockLoop k s = .waiting .block t ∧ P t) ∨ blockLoop k s = .overflow := by
  induction k with
  | zero => intro s hs; exact .inr (.inr (.inl ⟨s, rfl, hs⟩))
  | succ k ih =>
    intro s hs
    rw [blockLoop]
    rcases pulseAccess_cases s with ⟨t, h, ht⟩ | ⟨p, t, h, ht⟩ | h | h | h <;> rw [h]
    · exact ih t (by rw [ht]; exact hm _ _ _ _ _ hs)
    · have hP : P (t.decStep p) := hd _ _ (by rw [ht]; exact hm _ _ _ _ _ hs)
      simp only []
      split_ifs with hdone
      · exact .inl ⟨_, rfl, hP, hdone⟩
      · exact ih _ (hm _ _ _ _ _ hP)
    · exact .inr (.inl ⟨s, rfl, hs⟩)
    · exact .inr (.inr (.inl ⟨s, rfl, hs⟩))
    · exact .inr (.inr (.inr rfl))

/-- What a block-load attempt leaves alone: everything but the stream, its position, the filter, the edge
detector, the decoder registers and status, and the buffer. -/
abbrev AttemptOf (s t : State) : Prop :=
  t = { s with
    inp := t.inp
    inPos := t.inPos
    filter := t.filter
    edge := t.edge
    dec := t.dec
    dst := t.dst
    status := { s.status with dstate := t.status.dstate, dcause := t.status.dcause } }

theorem blockLoop_frame (k : Nat) (s : State) :
    (∃ t : State, blockLoop k s = .done t.blockDone ∧ AttemptOf s t ∧ t.status.dstate = .done) ∨
    (∃ t : State, blockLoop k s = .done t.blockFailed ∧ AttemptOf s t) ∨
    (∃ t : State, blockLoop k s = .waiting .block t ∧ AttemptOf s t) ∨ blockLoop k s = .overflow := by
  refine blockLoop_cases (AttemptOf s) ?_ ?_ k s rfl
  · intro u i n t e hu
    unfold AttemptOf measuring at *
    rw [hu]
  · intro u p hu
    unfold AttemptOf at *
    rw [decStep_frame u p, hu]

/-- On a stream that ends, the loop is the decoder's transitions on every pulse the frames hold (R207). -/
theorem blockLoop_pulses (fs : List Frame) : ∀ (s : State) (rest : List Byte) (k : Nat),
    NextFrames s fs rest → rest.length < s.derived.frameBytes → s.inp.tail = .eos →
    PcntFits s (s.edge.pcnt + fs.length) → fs.length + 1 ≤ k →
    ∃ (i : Source) (n : Nat) (f : FilterState) (e : Edge), blockLoop k s = .done (State.blockDone
      (measuring (((pulseWidths s.edge.ph s.edge.pcnt (scanRegions s fs).1).map Pulse.width ++ [Pulse.eos]).foldl
          State.decStep s) i n f e)) := by
  induction fs with
  | nil =>
    intro s rest k hn hr ht hp hk
    obtain ⟨k, rfl⟩ : ∃ j, k = j + 1 := ⟨k - 1, by simp at hk; omega⟩
    have hb : s.inp.bytes = rest := by simpa using hn.1
    have hacc := pulseAccess_tail s (by rw [hb]; exact hr)
    rw [ht] at hacc
    have hdone : ((s.setPhase .idle).setPulse .eos).decStep .eos =
        measuring (s.decStep .eos) s.inp s.inPos s.filter ⟨.idle, s.edge.pcnt, .eos⟩ :=
      decStep_measurement s .eos _ _ _ _
    have hd : (measuring (s.decStep .eos) s.inp s.inPos s.filter ⟨.idle, s.edge.pcnt, .eos⟩).status.dstate = .done :=
      decStep_eos s
    refine ⟨s.inp, s.inPos, s.filter, ⟨.idle, s.edge.pcnt, .eos⟩, ?_⟩
    simp only [blockLoop, hacc, hdone, hd, if_true]
    rfl
  | cons f fs ih =>
    intro s rest k hn hr ht hp hk
    obtain ⟨k, rfl⟩ : ∃ j, k = j + 1 := ⟨k - 1, by simp at hk; omega⟩
    rw [List.length_cons] at hp hk
    have hf : f.length = s.derived.frameBytes := hn.2 f (by simp)
    have hb : s.inp.bytes = f ++ (fs.flatten ++ rest) := by rw [hn.1]; simp
    have hacc := pulseAccess_frame s f _ hb hf (pcntFits_mono s _ _ (by omega) hp)
    rw [scanRegions, pulseWidths]
    cases hv : nextPhase s.edge.ph (s.classify f).1 with
    | mk v done =>
      rw [hv] at hacc
      have hsc : ∀ u : State, u.cfg = s.cfg → u.derived = s.derived → u.filter = (s.classify f).2.filter →
          (scanRegions u fs).1 = (scanRegions (s.classify f).2 fs).1 := fun u hc hd hfil =>
        (scanRegions_congr fs (s.classify f).2 u (by rw [classify_frame]; exact hc)
          (by rw [classify_frame]; exact hd) hfil).1
      cases done with
      | false =>
        simp only [] at hacc ⊢
        obtain ⟨i, n, t, e, hloop⟩ := ih (counted s [f] v (fs.flatten ++ rest)) rest k
          ⟨rfl, fun g hg => hn.2 g (by simp [hg])⟩ hr ht
          (by simpa [counted, readFrames, PcntFits, Nat.add_assoc, Nat.add_comm 1] using hp) (by omega)
        rw [hsc (counted s [f] v (fs.flatten ++ rest)) rfl rfl rfl] at hloop
        refine ⟨i, n, t, e, ?_⟩
        simp only [blockLoop, hacc, hloop]
        rw [show counted s [f] v (fs.flatten ++ rest) = measuring s
          { s.inp with bytes := fs.flatten ++ rest } (s.inPos + 1) (s.classify f).2.filter
          { s.edge with ph := v, pcnt := s.edge.pcnt + 1 } from rfl, foldl_measurement]
        rfl
      | true =>
        simp only [] at hacc ⊢
        generalize ht₁ : (counted s [f] v (fs.flatten ++ rest)).setPulse (.width (s.edge.pcnt + 1)) = t₁ at hacc
        have hstep : t₁.decStep (.width (s.edge.pcnt + 1)) =
            measuring (s.decStep (.width (s.edge.pcnt + 1))) t₁.inp t₁.inPos t₁.filter t₁.edge := by
          rw [← ht₁]
          exact decStep_measurement s _ _ _ _ _
        rw [List.map_cons, List.cons_append, List.foldl_cons]
        generalize hq : s.decStep (.width (s.edge.pcnt + 1)) = q at hstep ⊢
        have hfr := decStep_frame s (.width (s.edge.pcnt + 1))
        rw [hq] at hfr
        by_cases hd : q.status.dstate = .done
        · refine ⟨t₁.inp, t₁.inPos, t₁.filter, t₁.edge, ?_⟩
          have hd' : (measuring q t₁.inp t₁.inPos t₁.filter t₁.edge).status.dstate = .done := hd
          simp only [blockLoop, hacc, hstep]
          rw [if_pos hd', foldl_done _ _ hd]
        · have hd' : ¬(measuring q t₁.inp t₁.inPos t₁.filter t₁.edge).status.dstate = .done := hd
          let u := measuring q t₁.inp t₁.inPos t₁.filter ⟨.seekHigh, 0, t₁.edge.pulse⟩
          have hder : u.derived = s.derived := by show q.derived = _; rw [hfr]
          obtain ⟨i, n, t, e, hloop⟩ := ih u rest k
            ⟨by show t₁.inp.bytes = _; rw [← ht₁]; rfl, fun g hg => by rw [hder]; exact hn.2 g (by simp [hg])⟩
            (by rw [hder]; exact hr) (by show t₁.inp.tail = _; rw [← ht₁]; exact ht)
            (by
              have : PcntFits s (0 + fs.length) := pcntFits_mono s _ _ (by omega) hp
              unfold PcntFits at *
              rw [show u.params = s.params by show q.params = _; rw [hfr]]
              exact this) (by omega)
          rw [hsc u (by show q.cfg = _; rw [hfr]) hder (by show t₁.filter = _; rw [← ht₁]; rfl)] at hloop
          refine ⟨i, n, t, e, ?_⟩
          simp only [blockLoop, hacc, hstep]
          rw [if_neg hd', show (measuring q t₁.inp t₁.inPos t₁.filter t₁.edge).startPulse = u from rfl, hloop,
            foldl_measurement]
          rfl

/-- The edge detector inside a block-load attempt after complete pulses of these region sequences and a tail in the
given phase. -/
def edgeAfter (e : Edge) (ps : List (List Region)) (tail : List Region) (ph : Phase) : Edge :=
  ⟨ph, tail.length, match ps.getLast? with
    | some p => .width p.length
    | none => e.pulse⟩

/-- The loop over the frames of complete pulses and of an incomplete one: the decoder's transitions on the complete
ones, when none of them ends the attempt (R207). -/
theorem blockLoop_counts (ps : List (List Region)) : ∀ (s : State) (fs : List Frame) (rest : List Byte)
    (tail : List Region) (ph : Phase) (k : Nat), s.edge.ph = .seekHigh → s.edge.pcnt = 0 → NextFrames s fs rest →
    (scanRegions s fs).1 = ps.flatten ++ tail → (∀ p ∈ ps, OnePulse p ∧ PcntFits s p.length) → ScansTo ph tail →
    PcntFits s tail.length →
    ((ps.map fun p => Pulse.width p.length).foldl State.decStep s).status.dstate ≠ .done →
    blockLoop (fs.length + k) s = blockLoop k (measuring ((ps.map fun p => Pulse.width p.length).foldl State.decStep s)
      { s.inp with bytes := rest } (s.inPos + fs.length) (scanRegions s fs).2.filter (edgeAfter s.edge ps tail ph)) := by
  induction ps with
  | nil =>
    intro s fs rest tail ph k hph h0 hn hreg _ htail hp _
    have hpa := phaseAfter_scansTo _ _ htail
    rw [List.flatten_nil, List.nil_append] at hreg
    have hl : tail.length = fs.length := by rw [← hreg, scanRegions_length]
    rw [hl] at hp
    rw [(loops_count fs s rest ph k hn (by rw [h0, Nat.zero_add]; exact hp) (by rw [hph, hreg]; exact hpa)).2]
    simp [counted, measuring, readFrames, edgeAfter, h0, hl]
  | cons p ps ih =>
    intro s fs rest tail ph k hph h0 hn hreg hall htail hp hnd
    obtain ⟨hone, hfit⟩ := hall p (by simp)
    rw [List.flatten_cons, List.append_assoc] at hreg
    have hl := congrArg List.length hreg
    rw [scanRegions_length, List.length_append] at hl
    obtain ⟨gs, hs, rfl, hgl⟩ : ∃ gs hs, fs = gs ++ hs ∧ gs.length = p.length :=
      ⟨fs.take p.length, fs.drop p.length, (List.take_append_drop _ _).symm, by rw [List.length_take]; omega⟩
    rw [scanRegions_append] at hreg
    obtain ⟨hg, hh⟩ := List.append_inj hreg (by rw [scanRegions_length, hgl])
    have hn₁ : NextFrames s gs (hs.flatten ++ rest) :=
      ⟨by rw [hn.1]; simp, fun g hg => hn.2 g (by simp [hg])⟩
    have hstep := (loops_onePulse s gs (hs.flatten ++ rest) (hs.length + k) hph h0 hn₁
      (by rw [hgl]; exact hfit) (by rw [hg]; exact hone)).2
    rw [hgl] at hstep
    have hcomm : ((counted s gs .idle (hs.flatten ++ rest)).setPulse (.width p.length)).decStep (.width p.length) =
        measuring (s.decStep (.width p.length)) { s.inp with bytes := hs.flatten ++ rest } (s.inPos + gs.length)
          (scanRegions s gs).2.filter { s.edge with ph := .idle, pcnt := s.edge.pcnt + gs.length, pulse := .width p.length } :=
      decStep_measurement s _ _ _ _ _
    rw [List.map_cons, List.foldl_cons] at hnd ⊢
    have hd : ¬(s.decStep (.width p.length)).status.dstate = .done := by
      intro hd
      rw [foldl_done _ _ hd] at hnd
      exact hnd hd
    rw [hcomm, measuring_status, if_neg hd] at hstep
    rw [List.length_append, Nat.add_assoc, hgl, hstep]
    generalize hq : s.decStep (.width p.length) = q at hd hnd ⊢
    have hfr := decStep_frame s (.width p.length)
    rw [hq] at hfr
    generalize hu : (measuring q { s.inp with bytes := hs.flatten ++ rest } (s.inPos + gs.length)
      (scanRegions s gs).2.filter
      { s.edge with ph := .idle, pcnt := s.edge.pcnt + gs.length, pulse := .width p.length }).startPulse = u
    have hu' : u = measuring q { s.inp with bytes := hs.flatten ++ rest } (s.inPos + gs.length)
        (scanRegions s gs).2.filter ⟨.seekHigh, 0, .width p.length⟩ := hu.symm
    have hder : u.derived = s.derived := by rw [hu', measuring, hfr]
    have hcfg : u.cfg = s.cfg := by rw [hu', measuring, hfr]
    have hpar : u.params = s.params := by rw [hu', measuring, hfr]
    have hsc := scanRegions_congr hs (scanRegions s gs).2 u
      (by rw [(scanRegions_session gs s).1]; exact hcfg) (by rw [(scanRegions_session gs s).2]; exact hder)
      (by rw [hu']; rfl)
    have hfold : (ps.map fun p => Pulse.width p.length).foldl State.decStep u =
        measuring ((ps.map fun p => Pulse.width p.length).foldl State.decStep q)
          { s.inp with bytes := hs.flatten ++ rest } (s.inPos + gs.length) (scanRegions s gs).2.filter
          ⟨.seekHigh, 0, .width p.length⟩ := by
      rw [hu']
      exact foldl_measurement _ _ _ _ _ _
    have hi := ih u hs rest tail ph k (by rw [hu']; rfl) (by rw [hu']; rfl)
      ⟨by rw [hu']; rfl, fun g hg => by rw [hder]; exact hn.2 g (by simp [hg])⟩
      (by rw [hsc.1]; exact hh)
      (fun x hx => ⟨(hall x (by simp [hx])).1, by unfold PcntFits; rw [hpar]; exact (hall x (by simp [hx])).2⟩) htail
      (by unfold PcntFits; rw [hpar]; exact hp)
      (by rw [hfold]; exact hnd)
    rw [hi, hfold, hsc.2]
    have he : edgeAfter u.edge ps tail ph = edgeAfter s.edge (p :: ps) tail ph := by
      unfold edgeAfter
      rw [hu']
      cases ps with
      | nil => rfl
      | cons x xs => rw [List.getLast?_cons_cons]; simp [List.getLast?_cons]
    rw [he, hu', scanRegions_append]
    simp [measuring, Nat.add_assoc, hgl]

end Sys2Proof.Laws
end

