-- ==== Sys2Proof/Laws/Step.lean ====
section
/-! SUPPORT. Everything one step can do (Machine/HostIf.lean): the continuation of a command, an access of the
host that is no command, or the host's command. -/

namespace Sys2Proof.Laws

open Sys2Proof Sys2Proof.Machine Sys2Proof.Safety

/-- What an access of the host that starts no command leaves alone: everything the block's commands act on,
but for the configuration while CLOSED, the argument and result registers, and the buffers the host supplies. -/
structure HostSide (s t : State) : Prop where
  params : t.params = s.params
  derived : t.derived = s.derived
  tables : t.tables = s.tables
  filter : t.filter = s.filter
  edge : t.edge = s.edge
  dec : t.dec = s.dec
  status : t.status = s.status
  inPos : t.inPos = s.inPos
  encCount : t.encCount = s.encCount
  inp : t.inp = s.inp
  out : t.out = s.out
  sink : t.sink = s.sink
  running : t.running = s.running
  cfg : s.status.session ≠ .closed → t.cfg = s.cfg
  dst : Memory.wf s.dst = true → Memory.wf t.dst = true
  refusal : ∀ r, s.refusal = some r → t.refusal = some r

theorem HostSide.rfl' (s : State) : HostSide s s := by constructor <;> simp

theorem hostSide_refuse (s : State) (r : Refusal) : HostSide s (s.refuse r) := by
  constructor <;> first | rfl | exact fun h => h | exact fun _ => rfl | exact fun q h => refuse_keeps s r q h

/-- An update of host-side fields only. -/
theorem hostSide_update (s : State) (io : CmdRegs) (d : Memory) (oi : Source) (os : Sink) (src : List Byte)
    (sq : Option Sequencer) (qu : List HostAction) (ob : List Observation) (n : Nat)
    (hd : Memory.wf s.dst = true → Memory.wf d = true) :
    HostSide s { s with io := io, dst := d, offeredIn := oi, offeredSink := os, src := src, seq := sq,
                        queue := qu, obs := ob, draws := n } := by
  constructor <;> first | rfl | exact hd | exact fun _ => rfl | exact fun _ h => h

theorem HostSide.trans {s t u : State} (h : HostSide s t) (k : HostSide t u) : HostSide s u where
  params := k.params.trans h.params
  derived := k.derived.trans h.derived
  tables := k.tables.trans h.tables
  filter := k.filter.trans h.filter
  edge := k.edge.trans h.edge
  dec := k.dec.trans h.dec
  status := k.status.trans h.status
  inPos := k.inPos.trans h.inPos
  encCount := k.encCount.trans h.encCount
  inp := k.inp.trans h.inp
  out := k.out.trans h.out
  sink := k.sink.trans h.sink
  running := k.running.trans h.running
  cfg := fun hs => (k.cfg (by rw [h.status]; exact hs)).trans (h.cfg hs)
  dst := fun hw => k.dst (h.dst hw)
  refusal := fun r hr => k.refusal r (h.refusal r hr)

/-- The host's read of a register changes at most the count of free answers. -/
theorem hostRead_cases {s t : State} {idx : Byte} {w : Word} (h : s.hostRead idx = .ok (w, t)) :
    t = { s with draws := t.draws } := by
  unfold State.hostRead at h
  split at h
  · cases h; rfl
  · split at h <;> cases h
    rfl

/-- A host access, or a command the host issued, from `s` to `t`. -/
def HostOrCommand (s t : State) : Prop :=
  HostSide s t ∨ ∃ (i : Instr) (u : State), HostSide s u ∧ exec i u = .next t

theorem writeCfg_cases {s t : State} {idx : Byte} {c : CfgRegs} (h : s.writeCfg idx c = .next t) :
    HostSide s t := by
  unfold State.writeCfg at h
  split_ifs at h with hc <;> cases h
  · constructor <;> first | rfl | exact fun h => h | exact fun h => absurd hc h | exact fun _ h => h
  · exact hostSide_refuse _ _

theorem hostWrite_cases {s t : State} {idx : Byte} {v : Word} (h : s.hostWrite idx v = .next t) :
    HostOrCommand s t := by
  unfold State.hostWrite State.writeCmd at h
  split at h <;> try split at h
  all_goals first
    | exact .inl (writeCfg_cases h)
    | exact .inr ⟨_, s, .rfl' s, h⟩
    | (cases h
       first
       | exact .inl (hostSide_refuse _ _)
       | exact .inl (hostSide_update s _ _ _ _ _ _ _ _ _ id))

theorem perform_cases {s t : State} {a : HostAction} (h : a.perform s = .next t) : HostOrCommand s t := by
  cases a with
  | write idx v => exact hostWrite_cases h
  | read idx =>
    unfold HostAction.perform at h
    dsimp only at h
    split at h <;> cases h
    rename_i w u hr
    rw [hostRead_cases hr]
    exact .inl (hostSide_update s _ _ _ _ _ _ _ _ _ id)
  | copy source target =>
    unfold HostAction.perform at h
    dsimp only at h
    split at h
    · rename_i w u hr
      have hu : HostSide s (u.observe (.regRead source w)) := by
        rw [hostRead_cases hr]
        exact hostSide_update s _ _ _ _ _ _ _ _ _ id
      rcases hostWrite_cases h with h | ⟨i, v, hv, h⟩
      · exact .inl (hu.trans h)
      · exact .inr ⟨i, v, hu.trans hv, h⟩
    · cases h
  | bufRead i =>
    cases h
    exact .inl (hostSide_update s _ _ _ _ _ _ _ _ _ id)
  | giveDst bytes =>
    cases h
    exact .inl (hostSide_update s _ _ _ _ _ _ _ _ _ fun _ => wf_writeBytes _ _ _ wf_nil)
  | offerIn source => cases h; exact .inl (hostSide_update s _ _ _ _ _ _ _ _ _ id)
  | offerOut sink => cases h; exact .inl (hostSide_update s _ _ _ _ _ _ _ _ _ id)
  | giveSrc bytes => cases h; exact .inl (hostSide_update s _ _ _ _ _ _ _ _ _ id)
  | recRecord => cases h; exact .inl (hostSide_update s _ _ _ _ _ _ _ _ _ id)
  | recAll => cases h; exact .inl (hostSide_update s _ _ _ _ _ _ _ _ _ id)

/-- The end of a record attempt touches the host's side only. -/
theorem conclude_cases (q : Sequencer) (s : State) (r : RecResult) : HostSide s (q.conclude s r) := by
  unfold Sequencer.conclude
  split_ifs
  · split
    all_goals exact hostSide_update s _ _ _ _ _ _ _ _ _ id
  · exact hostSide_update s _ _ _ _ _ _ _ _ _ id

theorem look_cases (s : State) : HostSide s s.lookStatus ∧ HostSide s s.lookStatus.lookRes :=
  ⟨hostSide_update s _ _ _ _ _ _ _ _ _ id, hostSide_update s _ _ _ _ _ _ _ _ _ id⟩

theorem headerResult_cases (q : Sequencer) (s : State) : HostSide s (q.headerResult s) := by
  unfold Sequencer.headerResult
  dsimp only
  split_ifs
  · exact conclude_cases _ _ _
  · exact conclude_cases _ _ _
  · exact conclude_cases _ _ _
  · exact hostSide_update s _ _ _ _ _ _ _ _ _ id

/-- Judging an attempt touches the host's side only, if what follows does. -/
theorem judge_cases (q : Sequencer) (s : State) (result : State → State) (hr : ∀ t, HostSide t (result t)) :
    HostSide s (q.judge s result) := by
  unfold Sequencer.judge
  split_ifs
  · exact (look_cases s).1.trans (conclude_cases _ _ _)
  · exact (look_cases s).2.trans (hr _)

/-- Issuing an attempt supplies a buffer and starts `DEC.BLOCK`. -/
theorem issueBlock_cases {s t : State} {cap : Nat} (h : s.issueBlock cap = .next t) :
    ∃ (i : Instr) (u : State), HostSide s u ∧ exec i u = .next t :=
  ⟨_, _, hostSide_update s _ _ _ _ _ _ _ _ _ fun _ => wf_nil, h⟩

theorem sequencer_cases {q : Sequencer} {s t : State} (h : q.step s = .next t) : HostOrCommand s t := by
  unfold Sequencer.step at h
  have hup : ∀ sq, HostSide s { s with seq := sq } := fun sq => hostSide_update s _ _ _ _ _ sq _ _ _ id
  split at h
  · split at h
    · cases h
      exact .inl ((hostSide_refuse s _).trans (hostSide_update _ _ _ _ _ _ _ _ _ _ id))
    · obtain ⟨i, u, hu, he⟩ := issueBlock_cases h
      exact .inr ⟨i, u, (hup _).trans hu, he⟩
  · cases h
    exact .inl (judge_cases q s _ fun t => headerResult_cases q t)
  · obtain ⟨i, u, hu, he⟩ := issueBlock_cases h
    exact .inr ⟨i, u, (hup _).trans hu, he⟩
  · cases h
    exact .inl (judge_cases q s _ fun t => conclude_cases _ t _)

/-- Everything one step can do. -/
theorem step_cases {s t : State} (h : step s = .next t) :
    (∃ a, s.running = some a ∧ t = a.resume s) ∨ (s.running = none ∧ HostOrCommand s t) := by
  unfold step State.advance at h
  split at h
  · rename_i a ha
    cases h
    exact .inl ⟨a, ha, rfl⟩
  · rename_i hr
    refine .inr ⟨hr, ?_⟩
    split at h
    · exact sequencer_cases h
    · split at h
      · cases h
        exact .inl (.rfl' s)
      · rename_i a rest _
        have hup : HostSide s { s with queue := rest } := hostSide_update s _ _ _ _ _ _ _ _ _ id
        rcases perform_cases h with h | ⟨i, u, hu, he⟩
        · exact .inl (hup.trans h)
        · exact .inr ⟨i, u, hup.trans hu, he⟩

end Sys2Proof.Laws
end

