-- ==== Sys2Proof/Laws/Exec.lean ====
section
/-! SUPPORT. Everything a command can do, said once per command (Machine/Dispatch.lean), and everything the
continuation of a waiting command can do (Machine/HostIf.lean). -/

namespace Sys2Proof.Laws

open Sys2Proof Sys2Proof.Machine Sys2Proof.Safety

/-- Only the measurement side differs: stream, position, filter, edge detector. -/
abbrev Measured (s u : State) : Prop :=
  u = { s with inp := u.inp, inPos := u.inPos, filter := u.filter, edge := u.edge }

/-- How a measurement ends, from `s`: with a result, by a failing read, or waiting for the oracle. -/
def MeasureEnd (a : Activity) (s t : State) : Prop :=
  ∃ u : State, Measured s u ∧
    ((∃ r, t = { u.setRes r with running := none }) ∨ t = { u.abort .streamRead with running := none } ∨
      t = { u with running := some a })

/-- How a block-load attempt ends, from `s` (the attempt reset or in progress): DONE with its count, by a failing
read, or waiting for the oracle; whatever a transition and a measurement keep still holds. -/
def BlockEnd (s t : State) : Prop :=
  ∃ u : State, AttemptOf s u ∧
    (∀ P : State → Prop, (∀ (s : State) (i : Source) (n : Nat) (t : FilterState) (e : Edge),
      P s → P (measuring s i n t e)) → (∀ s p, P s → P (s.decStep p)) → P s → P u) ∧
    ((t = { u.blockDone with running := none } ∧ u.status.dstate = .done) ∨
      t = { u.blockFailed with running := none } ∨ t = { u with running := some .block })

/-- How an emission ends, from `s`: all frames written, or a failing write. -/
def EmissionEnd (i : Instr) (s t : State) : Prop :=
  (∃ fs k d n, emissionFrames i s = some fs ∧ t = ({ wrote (ran i s) fs k with draws := d }).setResNat n) ∨
    ∃ gs k d, t = ({ wrote (ran i s) gs k with draws := d }).abort .streamWrite

/-- What an admitted command does. -/
def Effect (i : Instr) (s t : State) : Prop :=
  match i with
  | .openSession =>
    s.cfg.allWritten = true ∧ ((∃ e, s.cfg.configError = some e ∧ t = (ran i s).setErr e) ∨
      (s.cfg.configError = none ∧ t = { (s.setCmd i).opened with running := none }))
  | .closeSession => t = (((ran i s).handBack).setResNat s.encCount).setSession .closed
  | .tmScale | .tmUnscale | .tmTol | .decClassify => ∃ r, t = (ran i s).setRes r
  | .encLevels | .encCount =>
    ∃ r rh, t = ((ran i s).setRes r).setResHi rh
  | .encFrame | .encSilence | .encCycle | .encPilot | .encByte | .encBlock => EmissionEnd i s t
  | .clsSample => MeasureEnd .sample (s.setCmd i) t
  | .fltClear => t = ({ ran i s with filter := FilterState.cleared }).setRes 0#32
  | .clsPulse => MeasureEnd .pulse (s.setCmd i).startPulse t
  | .decReset => t = ((ran i s).decReset s.io.arg0).setRes 0#32
  | .decStep => ∃ p, t = ((ran i s).decStep p).setResNat ((ran i s).decStep p).status.dstate.code
  | .decBlock => BlockEnd (((s.setCmd i).decReset s.io.arg0).startPulse) t

/-! ## The ends of the loops -/

theorem pulseLoop_end (k : Nat) (s₀ s : State) :
    MeasureEnd .pulse s ((pulseLoop k s).settle s₀) ∨ (pulseLoop k s).settle s₀ = s₀.refuse .counterOverflow := by
  rcases pulseLoop_cases k s with ⟨t, h, ht⟩ | ⟨t, h, ht⟩ | ⟨t, h, ht⟩ | h <;> rw [h]
  · refine .inl ⟨{ s with inp := t.inp, inPos := t.inPos, filter := t.filter, edge := t.edge }, rfl,
      .inl ⟨t.io.res, ?_⟩⟩
    show { t with running := none } = _
    rw [ht]
    rfl
  · exact .inl ⟨t, ht, .inr (.inl rfl)⟩
  · exact .inl ⟨t, ht, .inr (.inr rfl)⟩
  · exact .inr rfl

theorem sampleAccess_end (s₀ s : State) : MeasureEnd .sample s ((sampleAccess s).settle s₀) := by
  unfold sampleAccess
  rcases inRead_cases s with ⟨f, rest, hb, hf, h⟩ | ⟨hl, h⟩ <;> rw [h]
  · refine ⟨((readFrames s 1 rest).classify f).2, ?_, .inl ⟨_, rfl⟩⟩
    unfold Measured
    rw [classify_frame]
    rfl
  · cases s.inp.tail
    · exact ⟨s, rfl, .inl ⟨_, rfl⟩⟩
    · exact ⟨s, rfl, .inr (.inl rfl)⟩
    · exact ⟨s, rfl, .inr (.inr rfl)⟩

theorem blockLoop_end (k : Nat) (s₀ s : State) :
    BlockEnd s ((blockLoop k s).settle s₀) ∨ (blockLoop k s).settle s₀ = s₀.refuse .counterOverflow := by
  have hall := blockLoop_cases (fun u => AttemptOf s u ∧ ∀ P : State → Prop,
    (∀ (s : State) (i : Source) (n : Nat) (t : FilterState) (e : Edge), P s → P (measuring s i n t e)) →
      (∀ s p, P s → P (s.decStep p)) → P s → P u) ?_ ?_ k s ⟨rfl, fun P _ _ h => h⟩
  · rcases hall with ⟨t, h, ⟨ht, hP⟩, hd⟩ | ⟨t, h, ht, hP⟩ | ⟨t, h, ht, hP⟩ | h <;> rw [h]
    · exact .inl ⟨t, ht, hP, .inl ⟨rfl, hd⟩⟩
    · exact .inl ⟨t, ht, hP, .inr (.inl rfl)⟩
    · exact .inl ⟨t, ht, hP, .inr (.inr rfl)⟩
    · exact .inr rfl
  · rintro u i n t e ⟨hu, hP⟩
    refine ⟨?_, fun P h1 h2 h => h1 _ _ _ _ _ (hP P h1 h2 h)⟩
    unfold AttemptOf measuring at *
    rw [hu]
  · rintro u p ⟨hu, hP⟩
    refine ⟨?_, fun P h1 h2 h => h2 _ _ (hP P h1 h2 h)⟩
    unfold AttemptOf at *
    rw [decStep_frame u p, hu]

/-- What a command emits does not depend on `CMD`. -/
theorem emissionOf_setCmd (i j : Instr) (s : State) : emissionOf i (s.setCmd j) = emissionOf i s := by cases i <;> rfl

theorem emission_end (i : Instr) (s t : State) (e : Emission) (he : emissionOf i s = some e)
    (ht : t = (emission (s.setCmd i) e).settle s) :
    EmissionEnd i s t ∨ t = s.refuse .counterOverflow := by
  unfold emission at ht
  rcases emit_cases e.frames (s.setCmd i) with ⟨k, d, h⟩ | ⟨gs, k, d, h⟩ | h <;> rw [h] at ht
  · exact .inl (.inl ⟨e.frames, k, d, e.resBytes, by rw [emissionFrames, he]; rfl, ht⟩)
  · exact .inl (.inr ⟨gs, k, d, ht⟩)
  · exact .inr ht

/-! ## Every command -/

/-- Everything a command can do. -/
theorem exec_cases {i : Instr} {s t : State} (h : exec i s = .next t) :
    (∃ r, t = s.refuse r) ∨ (preRefusal i s = none ∧ Effect i s t) := by
  cases i <;>
    unfold exec at h <;>
    simp only [execOpen, execClose, execTmScale, execTmUnscale, execTmTol, execEncLevels, execEncFrame, execEncSilence,
      execEncCycle, execEncPilot, execEncByte, execEncBlock, emissionCommand, execEncCount, execClsSample, execFltClear,
      execClsPulse, execDecReset, execDecStep, execDecClassify, execDecBlock] at h <;>
    rcases command_cases h with h | ⟨hp, run, hb, ht⟩ <;> (try exact .inl h)
  case openSession =>
    refine .inr ⟨hp, ?_⟩
    by_cases ha : s.cfg.allWritten = false
    · rw [if_pos (show (s.setCmd _).cfg.allWritten = false from ha)] at hb
      cases hb
    · rw [if_neg (show ¬(s.setCmd _).cfg.allWritten = false from ha)] at hb
      refine ⟨by simpa using ha, ?_⟩
      cases he : s.cfg.configError with
      | some e =>
        simp only [show (s.setCmd Instr.openSession).cfg.configError = some e from he] at hb
        cases hb
        exact .inl ⟨e, rfl, ht⟩
      | none =>
        simp only [show (s.setCmd Instr.openSession).cfg.configError = none from he] at hb
        cases hb
        exact .inr ⟨rfl, ht⟩
  case closeSession =>
    refine .inr ⟨hp, ?_⟩
    cases hb
    rw [ht]
    unfold Effect State.handBack ran
    dsimp only [Run.settle]
    cases hm : s.cfg.mode
    · simp only [show (s.setCmd Instr.closeSession).cfg.mode = _ from hm]; rfl
    · simp only [show (s.setCmd Instr.closeSession).cfg.mode = _ from hm]; rfl
  case tmScale | tmUnscale | tmTol =>
    unfold timingResult at hb
    split_ifs at hb
    cases hb
    exact .inr ⟨hp, t.io.res, by rw [ht]; rfl⟩
  case encLevels =>
    split_ifs at hb
    cases hb
    exact .inr ⟨hp, _, _, ht⟩
  case encCount =>
    cases hb
    exact .inr ⟨hp, _, _, ht⟩
  case decClassify =>
    split at hb <;> cases hb
    exact .inr ⟨hp, t.io.res, by rw [ht]; rfl⟩
  case encFrame | encSilence | encCycle | encPilot | encByte | encBlock =>
    rw [emissionOf_setCmd] at hb
    split at hb <;> cases hb
    rename_i e he
    exact (emission_end _ s t e he ht).elim (fun h => .inr ⟨hp, h⟩) fun h => .inl ⟨_, h⟩
  case clsSample =>
    cases hb
    rw [ht]
    exact .inr ⟨hp, sampleAccess_end _ _⟩
  case fltClear =>
    cases hb
    exact .inr ⟨hp, ht⟩
  case clsPulse =>
    cases hb
    rw [ht]
    rcases pulseLoop_end (s.setCmd .clsPulse).readFuel s (s.setCmd .clsPulse).startPulse with h | h
    · exact .inr ⟨hp, h⟩
    · exact .inl ⟨_, h⟩
  case decReset =>
    cases hb
    exact .inr ⟨hp, ht⟩
  case decStep =>
    split at hb <;> cases hb
    rename_i p _
    refine .inr ⟨hp, p, ?_⟩
    have hc : (ran .decStep s).decStep p = { (s.setCmd .decStep).decStep p with running := none } :=
      decStep_running _ _ _
    rw [ht, hc]
    rfl
  case decBlock =>
    cases hb
    rw [ht]
    rcases blockLoop_end (s.setCmd .decBlock).readFuel s (((s.setCmd .decBlock).decReset s.io.arg0).startPulse)
      with h | h
    · exact .inr ⟨hp, h⟩
    · exact .inl ⟨_, h⟩

/-! ## A waiting command -/

/-- Everything the continuation of a waiting command can do. -/
theorem resume_cases (a : Activity) (s : State) :
    ∃ u : State, u = { s with inp := u.inp, draws := u.draws } ∧
      ((∃ b, b ≠ .block ∧ MeasureEnd b u (a.resume s)) ∨ (a = .block ∧ BlockEnd u (a.resume s)) ∨
        a.resume s = s.refuse .counterOverflow) := by
  refine ⟨s.askInput, askInput_frame s, ?_⟩
  cases a with
  | sample => exact .inl ⟨.sample, by simp, sampleAccess_end _ _⟩
  | pulse =>
    rcases pulseLoop_end s.askInput.readFuel s s.askInput with h | h
    · exact .inl ⟨.pulse, by simp, h⟩
    · exact .inr (.inr h)
  | block =>
    rcases blockLoop_end s.askInput.readFuel s s.askInput with h | h
    · exact .inr (.inl ⟨rfl, h⟩)
    · exact .inr (.inr h)

/-! ## Each command, admitted: what its steps leave -/

/-- A failing precondition refuses every command (R94). -/
theorem exec_refused (i : Instr) (s : State) (r : Refusal) (h : preRefusal i s = some r) :
    exec i s = .next (s.refuse r) := by
  cases i <;> unfold exec <;>
    simp only [execOpen, execClose, execTmScale, execTmUnscale, execTmTol, execEncLevels, execEncFrame, execEncSilence,
      execEncCycle, execEncPilot, execEncByte, execEncBlock, emissionCommand, execEncCount, execClsSample, execFltClear,
      execClsPulse, execDecReset, execDecStep, execDecClassify, execDecBlock, command, h]

variable {s : State}

theorem exec_openSession (h : preRefusal .openSession s = none) :
    exec .openSession s = .next (if s.cfg.allWritten = false then s.refuse .openUnconfigured
      else match s.cfg.configError with
        | some e => (ran .openSession s).setErr e
        | none => { (s.setCmd .openSession).opened with running := none }) := by
  have hc : (s.setCmd .openSession).cfg = s.cfg := rfl
  simp only [exec, execOpen, command, h, hc]
  split_ifs
  · rfl
  · cases s.cfg.configError <;> rfl

theorem exec_closeSession (h : preRefusal .closeSession s = none) :
    exec .closeSession s = .next ((((ran .closeSession s).handBack).setResNat s.encCount).setSession .closed) := by
  have hc : (s.setCmd .closeSession).cfg = s.cfg := rfl
  have hr : (ran .closeSession s).cfg = s.cfg := rfl
  simp only [exec, execClose, command, h, State.handBack, hc, hr]
  cases s.cfg.mode <;> rfl

/-- A timing command: the result, or a refusal where it does not fit. -/
def timed (i : Instr) (s : State) (n : Nat) : State :=
  if n < 2 ^ 32 then (ran i s).setRes (BitVec.ofNat 32 n) else s.refuse .resultTooWide

theorem exec_tmScale (h : preRefusal .tmScale s = none) :
    exec .tmScale s = .next (timed .tmScale s (scale s.params.clk s.cfg.rateNat s.io.arg0.toNat)) := by
  simp only [exec, execTmScale, command, h, timingResult, timed,
    show scale (s.setCmd .tmScale).params.clk (s.setCmd .tmScale).cfg.rateNat (s.setCmd .tmScale).io.arg0.toNat =
      scale s.params.clk s.cfg.rateNat s.io.arg0.toNat from rfl]
  split_ifs <;> rfl

theorem exec_tmUnscale (h : preRefusal .tmUnscale s = none) :
    exec .tmUnscale s = .next (timed .tmUnscale s (unscale s.params.clk s.cfg.rateNat s.io.arg0.toNat)) := by
  simp only [exec, execTmUnscale, command, h, timingResult, timed,
    show unscale (s.setCmd .tmUnscale).params.clk (s.setCmd .tmUnscale).cfg.rateNat
      (s.setCmd .tmUnscale).io.arg0.toNat = unscale s.params.clk s.cfg.rateNat s.io.arg0.toNat from rfl]
  split_ifs <;> rfl

theorem exec_tmTol (h : preRefusal .tmTol s = none) :
    exec .tmTol s = .next (timed .tmTol s (tolerance s.params.clk s.cfg.rateNat s.io.arg0.toNat)) := by
  simp only [exec, execTmTol, command, h, timingResult, timed,
    show tolerance (s.setCmd .tmTol).params.clk (s.setCmd .tmTol).cfg.rateNat (s.setCmd .tmTol).io.arg0.toNat =
      tolerance s.params.clk s.cfg.rateNat s.io.arg0.toNat from rfl]
  split_ifs <;> rfl

theorem exec_encLevels (h : preRefusal .encLevels s = none) :
    exec .encLevels s = .next (if 100 < s.io.arg0.toNat then s.refuse .volumeAbove100
      else ((ran .encLevels s).setRes (levelImage (levels s.cfg.bits s.io.arg0.toNat).hi)).setResHi
        (levelImage (levels s.cfg.bits s.io.arg0.toNat).lo)) := by
  simp only [exec, execEncLevels, command, h, show (s.setCmd .encLevels).io.arg0 = s.io.arg0 from rfl,
    show (s.setCmd .encLevels).cfg = s.cfg from rfl]
  split_ifs <;> rfl

/-- An emission command with its frames and the bytes it counts. -/
def emitted (i : Instr) (s : State) (fs : List Frame) (n : Nat) : State :=
  (emission (s.setCmd i) ⟨fs, n⟩).settle s

/-- An emission whose writes the sink accepts (R64, R146). -/
theorem emitted_accept (i : Instr) (s : State) (fs : List Frame) (n : Nat) (k : Sink)
    (hk : sinkAfter fs.length s.sink = some k) (hc : CountFits s fs) :
    emitted i s fs n = (wrote (ran i s) fs k).setRes (BitVec.ofNat 32 n) := by
  unfold emitted emission
  dsimp only
  rw [emit_accept fs (s.setCmd i) k hk hc]
  rfl

/-- An emission whose write number `k` fails (R64, R146, R255). -/
theorem emitted_fail (i : Instr) (s : State) (fs : List Frame) (n k taken : Nat) (f : Frame)
    (hs : s.sink = .failsAfter k taken) (hf : fs[k]? = some f) (hc : CountFits s (fs.take k ++ [f.take taken])) :
    emitted i s fs n = ((wrote (ran i s) (fs.take k ++ [f.take taken]) (.failsAfter 0 taken)).setErr
      .streamWrite).setSession .aborted := by
  unfold emitted emission
  dsimp only
  rw [emit_fail fs (s.setCmd i) k taken f hs hf hc]
  rfl

theorem emissionCommand_none (i : Instr) (r : Refusal) (h : preRefusal i s = none) (he : emissionOf i s = none) :
    emissionCommand i r s = .next (s.refuse r) :=
  command_bad_operand i s _ r h (by simp only [emissionOf_setCmd, he])

theorem emissionCommand_some (i : Instr) (r : Refusal) (e : Emission) (h : preRefusal i s = none)
    (he : emissionOf i s = some e) : emissionCommand i r s = .next (emitted i s e.frames e.resBytes) :=
  command_runs i s _ (emission (s.setCmd i) e) h (by simp only [emissionOf_setCmd, he])

/-- Every emission command on admitted operands. -/
theorem exec_emission {i : Instr} {e : Emission} (h : preRefusal i s = none) (he : emissionOf i s = some e) :
    exec i s = .next (emitted i s e.frames e.resBytes) := by
  cases i
  case encBlock => exact emissionCommand_some _ .srcOutOfRange e h he
  case encFrame | encSilence | encCycle | encPilot | encByte =>
    exact emissionCommand_some _ .operandNotAdmitted e h he
  all_goals cases he

/-- An emission that the width of `ENC_COUNT` stops is refused (R12, R256; log 16). -/
theorem exec_emission_overflow {i : Instr} {e : Emission} (h : preRefusal i s = none) (he : emissionOf i s = some e)
    (ho : (s.setCmd i).emit e.frames = .overflow) : exec i s = .next (s.refuse .counterOverflow) := by
  rw [exec_emission h he, emitted, emission]
  dsimp only
  rw [ho]
  rfl

theorem exec_encFrame (h : preRefusal .encFrame s = none) :
    exec .encFrame s = .next (match levelSelector s.io.arg0 s.derived with
      | none => s.refuse .operandNotAdmitted
      | some v => emitted .encFrame s [encodeFrame s.cfg v] s.derived.frameBytes) := by
  cases hv : levelSelector s.io.arg0 s.derived with
  | none => exact emissionCommand_none _ _ h (by rw [emissionOf, hv, Option.map_none])
  | some v => exact emissionCommand_some _ _ ⟨_, _⟩ h (by rw [emissionOf, hv]; rfl)

theorem exec_encSilence (h : preRefusal .encSilence s = none) :
    exec .encSilence s = .next (emitted .encSilence s (repeatFrames s.io.arg0.toNat s.tables.sil)
      (s.io.arg0.toNat * s.derived.frameBytes)) := emissionCommand_some _ .operandNotAdmitted ⟨_, _⟩ h rfl

theorem exec_encCycle (h : preRefusal .encCycle s = none) :
    exec .encCycle s = .next (match symbolOperand s.io.arg0 with
      | none => s.refuse .operandNotAdmitted
      | some y => emitted .encCycle s (s.tables.wt.get y) (s.derived.ref.get y * s.derived.frameBytes)) := by
  cases hv : symbolOperand s.io.arg0 with
  | none => exact emissionCommand_none _ _ h (by rw [emissionOf, hv, Option.map_none])
  | some v => exact emissionCommand_some _ _ ⟨_, _⟩ h (by rw [emissionOf, hv]; rfl)

theorem exec_encPilot (h : preRefusal .encPilot s = none) :
    exec .encPilot s = .next (emitted .encPilot s (repeatFrames s.io.arg0.toNat s.tables.wt.pilot)
      (s.io.arg0.toNat * s.derived.ref.pilot * s.derived.frameBytes)) := emissionCommand_some _ .operandNotAdmitted ⟨_, _⟩ h rfl

theorem exec_encByte (h : preRefusal .encByte s = none) :
    exec .encByte s = .next (emitted .encByte s (byteFrames s.tables (byteOperand s.io.arg0))
      (bitFrames s.derived (byteOperand s.io.arg0) * s.derived.frameBytes)) := emissionCommand_some _ .operandNotAdmitted ⟨_, _⟩ h rfl

theorem exec_encBlock (h : preRefusal .encBlock s = none) :
    exec .encBlock s = .next (match srcOperand s.src s.io.arg0 s.io.arg1 with
      | none => s.refuse .srcOutOfRange
      | some b => emitted .encBlock s (blockFrames s.tables s.io.arg2.toNat b)
          (blockFrameCount s.derived s.io.arg2.toNat b * s.derived.frameBytes)) := by
  cases hv : srcOperand s.src s.io.arg0 s.io.arg1 with
  | none => exact emissionCommand_none _ _ h (by rw [emissionOf, hv, Option.map_none])
  | some v => exact emissionCommand_some _ _ ⟨_, _⟩ h (by rw [emissionOf, hv]; rfl)

theorem exec_encCount (h : preRefusal .encCount s = none) :
    exec .encCount s = .next (((ran .encCount s).setRes (BitVec.ofNat 32 s.encCount)).setResHi
      (BitVec.ofNat 32 (s.encCount / 2 ^ 32))) := by
  simp only [exec, execEncCount, command, h]
  rfl

theorem exec_clsSample (h : preRefusal .clsSample s = none) :
    exec .clsSample s = .next ((sampleAccess (s.setCmd .clsSample)).settle s) := by
  simp only [exec, execClsSample, command, h]

theorem exec_fltClear (h : preRefusal .fltClear s = none) :
    exec .fltClear s = .next ({ ran .fltClear s with filter := FilterState.cleared }.setRes 0#32) := by
  simp only [exec, execFltClear, command, h]
  rfl

theorem exec_clsPulse (h : preRefusal .clsPulse s = none) :
    exec .clsPulse s = .next ((pulseLoop s.readFuel (s.setCmd .clsPulse).startPulse).settle s) := by
  simp only [exec, execClsPulse, command, h]
  rfl

theorem exec_decReset (h : preRefusal .decReset s = none) :
    exec .decReset s = .next (((ran .decReset s).decReset s.io.arg0).setRes 0#32) := by
  simp only [exec, execDecReset, command, h]
  rfl

theorem exec_decStep (h : preRefusal .decStep s = none) :
    exec .decStep s = .next (match pulseOperand s.io.arg0 with
      | none => s.refuse .operandNotAdmitted
      | some p => ((ran .decStep s).decStep p).setResNat ((ran .decStep s).decStep p).status.dstate.code) := by
  simp only [exec, execDecStep, command, h, show (s.setCmd .decStep).io.arg0 = s.io.arg0 from rfl]
  cases pulseOperand s.io.arg0 with
  | none => rfl
  | some p =>
    have hc : (ran .decStep s).decStep p = { (s.setCmd .decStep).decStep p with running := none } :=
      decStep_running _ _ _
    simp only [hc]
    rfl

theorem exec_decClassify (h : preRefusal .decClassify s = none) :
    exec .decClassify s = .next (match pulseOperand s.io.arg0 with
      | none => s.refuse .operandNotAdmitted
      | some p => (ran .decClassify s).setResNat (classCode s.derived s.status.dstate p)) := by
  simp only [exec, execDecClassify, command, h, show (s.setCmd .decClassify).io.arg0 = s.io.arg0 from rfl]
  cases pulseOperand s.io.arg0 <;> rfl

theorem exec_decBlock (h : preRefusal .decBlock s = none) :
    exec .decBlock s =
      .next ((blockLoop s.readFuel (((s.setCmd .decBlock).decReset s.io.arg0).startPulse)).settle s) := by
  simp only [exec, execDecBlock, command, h]
  rfl

/-- `DEC.BLOCK` up to any point between two pulses or inside one: the transitions on the complete pulses, when none of
them ends the attempt, and the rest of the loop (R207). -/
theorem exec_decBlock_counts (fs : List Frame) (rest : List Byte) (ps : List (List Region))
    (tail : List Region) (ph : Phase) (k : Nat) (h : preRefusal .decBlock s = none) (hn : NextFrames s fs rest)
    (hk : s.readFuel = fs.length + k) (hreg : (scanRegions s fs).1 = ps.flatten ++ tail)
    (hall : ∀ p ∈ ps, OnePulse p ∧ PcntFits s p.length) (htail : ScansTo ph tail) (hp : PcntFits s tail.length)
    (hd : (afterPulses s ps).status.dstate ≠ .done) :
    ∃ d : Option Activity, exec .decBlock s = .next ((blockLoop k (measuring { afterPulses s ps with running := d }
      { s.inp with bytes := rest } (s.inPos + fs.length) (scanRegions s fs).2.filter
      (edgeAfter s.edge ps tail ph))).settle s) := by
  obtain ⟨v, hv⟩ : ∃ v, v = (s.setCmd .decBlock).decReset s.io.arg0 := ⟨_, rfl⟩
  have hw : (ps.map fun p => Pulse.width p.length).foldl State.decStep v =
      { afterPulses s ps with running := s.running } := by
    rw [afterPulses, ← foldl_running, hv]
    rfl
  have hst : (ps.map fun p => Pulse.width p.length).foldl State.decStep v.startPulse =
      measuring { afterPulses s ps with running := s.running } v.inp v.inPos v.filter ⟨.seekHigh, 0, v.edge.pulse⟩ := by
    rw [← hw]
    exact foldl_measurement _ v _ _ _ _
  have hsc := scanRegions_congr fs s v.startPulse (by rw [hv]; rfl) (by rw [hv]; rfl) (by rw [hv]; rfl)
  refine ⟨s.running, ?_⟩
  rw [exec_decBlock h, hk, ← hv, blockLoop_counts ps v.startPulse fs rest tail ph k rfl rfl (by rw [hv]; exact hn)
    (by rw [hsc.1]; exact hreg) (by rw [hv]; exact hall) htail (by rw [hv]; exact hp) (by rw [hst]; exact hd), hsc.2, hst]
  rw [hv]
  rfl

/-- The transitions on complete pulses touch the decoder registers, the buffer and the decoder status only. -/
theorem afterPulses_frame (s : State) (ps : List (List Region)) : afterPulses s ps = { ran .decBlock s with
    dec := (afterPulses s ps).dec
    dst := (afterPulses s ps).dst
    status := { s.status with dstate := (afterPulses s ps).status.dstate, dcause := (afterPulses s ps).status.dcause } } :=
  foldl_frame (ps.map fun p : List Region => Pulse.width p.length) ((ran .decBlock s).decReset s.io.arg0)

/-- How a block-load attempt that reaches DONE settles (R207). -/
theorem settle_blockDone (u : State) (d : Option Activity) (i : Source) (n : Nat) (f : FilterState) (e : Edge)
    (hu : u.obs = s.obs) (hr : u.running = none) :
    (Run.done (measuring { u with running := d } i n f e).blockDone).settle s = { u with
      inp := i, inPos := n, filter := f, edge := e
      obs := s.obs ++ [Observation.dstAfter u.dec.cap u.dst] }.setRes u.dec.count := by
  simp [Run.settle, measuring, State.setRes, hu, State.blockDone, State.giveBackDst, State.observe, hr]

/-! ## What OPEN and CLOSE leave alone -/

/-- A successful `OPEN` writes the session's registers, the tables, the stream and `RES` only (R117). -/
theorem opened_frame (s : State) : s.opened = { s with
    derived := derive s.params s.cfg
    tables := s.opened.tables
    filter := FilterState.cleared
    edge := Edge.cleared
    dec := DecRegs.cleared
    status := ⟨.opened, .searching, .notDone, .noError⟩
    inPos := 0
    encCount := 0
    inp := s.opened.inp
    out := s.opened.out
    sink := s.opened.sink
    offeredIn := s.opened.offeredIn
    offeredSink := s.opened.offeredSink
    io := { s.io with res := 0#32 }
    draws := s.opened.draws } := by
  unfold State.opened State.openTables State.takeStream State.openRegisters
  cases h : s.cfg.mode <;> simp [h, State.setRes]

/-- What `OPEN` takes and builds in an ENCODE session (R78, R135). -/
theorem opened_encode (s : State) (h : s.cfg.mode = .encode) :
    s.opened.tables = buildTables s.cfg (derive s.params s.cfg) ∧ s.opened.out = [] ∧
      s.opened.sink = s.offeredSink ∧ s.opened.inp = s.inp := by
  unfold State.opened State.openTables State.takeStream State.openRegisters
  simp [h]

/-- What `OPEN` takes in a DECODE session (R78). -/
theorem opened_decode (s : State) (h : s.cfg.mode = .decode) :
    s.opened.inp = s.offeredIn ∧ s.opened.out = s.out ∧ s.opened.sink = s.sink := by
  unfold State.opened State.openTables State.takeStream State.openRegisters
  simp [h]

/-- The stream handed back at `CLOSE` touches `OUT` and the host's record only (R78). -/
theorem handBack_frame (s : State) : s.handBack = { s with out := s.handBack.out, obs := s.handBack.obs } := by
  unfold State.handBack State.observe
  cases s.cfg.mode <;> rfl

/-! ## What each kind of command keeps

`f` is a tuple of fields; the premises say that the updates of that kind do not touch it. -/

theorem emission_keeps {β : Type} (f : State → β) {i : Instr} {s t : State} (h : EmissionEnd i s t)
    (hok : ∀ fs k d n, f (({ wrote (ran i s) fs k with draws := d } : State).setResNat n) = f s)
    (hbad : ∀ fs k d, f (({ wrote (ran i s) fs k with draws := d } : State).abort .streamWrite) = f s) :
    f t = f s := by
  rcases h with ⟨fs, k, d, n, -, rfl⟩ | ⟨gs, k, d, rfl⟩
  · exact hok _ _ _ _
  · exact hbad _ _ _

theorem measure_keeps {β : Type} (f : State → β) {a : Activity} {v t : State} (h : MeasureEnd a v t)
    (hu : ∀ u : State, Measured v u → f u = f v)
    (hok : ∀ (u : State) r, f { u.setRes r with running := none } = f u)
    (hbad : ∀ u : State, f { u.abort .streamRead with running := none } = f u)
    (hwait : ∀ u : State, f { u with running := some a } = f u) : f t = f v := by
  obtain ⟨u, hm, ⟨r, rfl⟩ | rfl | rfl⟩ := h
  · rw [hok, hu u hm]
  · rw [hbad, hu u hm]
  · rw [hwait, hu u hm]

theorem block_keeps {β : Type} (f : State → β) {v t : State} (h : BlockEnd v t)
    (hu : ∀ u : State, AttemptOf v u → f u = f v)
    (hok : ∀ u : State, f { u.blockDone with running := none } = f u)
    (hbad : ∀ u : State, f { u.blockFailed with running := none } = f u)
    (hwait : ∀ u : State, f { u with running := some .block } = f u) : f t = f v := by
  obtain ⟨u, hm, -, ⟨rfl, -⟩ | rfl | rfl⟩ := h
  · rw [hok, hu u hm]
  · rw [hbad, hu u hm]
  · rw [hwait, hu u hm]

/-- How the session stands after a measurement: as before, or ABORTED by a failing read (R255). -/
theorem measure_session {a : Activity} {v t : State} (h : MeasureEnd a v t) :
    (t.status.session = v.status.session ∧ t.status.err = v.status.err ∧ (t.running = none ∨ t.running = some a)) ∨
      (t.status.session = .aborted ∧ t.status.err = .streamRead ∧ t.running = none) := by
  obtain ⟨u, hm, ⟨r, rfl⟩ | rfl | rfl⟩ := h
  · exact .inl ⟨(congrArg (·.status.session) hm :), (congrArg (·.status.err) hm :), .inl rfl⟩
  · exact .inr ⟨rfl, rfl, rfl⟩
  · exact .inl ⟨(congrArg (·.status.session) hm :), (congrArg (·.status.err) hm :), .inr rfl⟩

theorem block_session {v t : State} (h : BlockEnd v t) :
    (t.status.session = v.status.session ∧ t.status.err = v.status.err ∧
      (t.running = none ∨ t.running = some .block)) ∨
      (t.status.session = .aborted ∧ t.status.err = .streamRead ∧ t.running = none) := by
  obtain ⟨u, hm, -, ⟨rfl, -⟩ | rfl | rfl⟩ := h
  · exact .inl ⟨(congrArg (·.status.session) hm :), (congrArg (·.status.err) hm :), .inl rfl⟩
  · exact .inr ⟨rfl, rfl, rfl⟩
  · exact .inl ⟨(congrArg (·.status.session) hm :), (congrArg (·.status.err) hm :), .inr rfl⟩

/-- How the session stands after an emission: as before, or ABORTED by a failing write (R255). -/
theorem emission_session {i : Instr} {s t : State} (h : EmissionEnd i s t) : t.running = none ∧
    ((t.status.session = s.status.session ∧ t.status.err = s.status.err) ∨
      (t.status.session = .aborted ∧ t.status.err = .streamWrite)) := by
  rcases h with ⟨fs, k, d, n, -, rfl⟩ | ⟨gs, k, d, rfl⟩
  · exact ⟨rfl, .inl ⟨rfl, rfl⟩⟩
  · exact ⟨rfl, .inr ⟨rfl, rfl⟩⟩

end Sys2Proof.Laws
end

