-- ==== Sys2Proof/Laws/Access.lean ====
section
/-! SUPPORT. The machine of one access a step (Machine/Access.lean) beside the machine of one command a step: the
accesses of a reading command, of an emission command, and which step starts a command. -/

namespace Sys2Proof.Laws

open Sys2Proof Sys2Proof.Machine Sys2Proof.Safety

/-! ## Reading commands -/

/-- Up to `n` accesses of a reading command. -/
def activityLoop (a : Activity) (n : Nat) (s : State) : Run :=
  match a, n with
  | .sample, 0 => .waiting .sample s
  | .sample, _ + 1 => sampleAccess s
  | .pulse, n => pulseLoop n s
  | .block, n => blockLoop n s

theorem go_eq_loop (a : Activity) (s : State) : a.go s = activityLoop a (s.inp.bytes.length + 1) s := by
  cases a <;> rfl

theorem once_eq_loop (a : Activity) (s : State) : a.once s = activityLoop a 1 s := by cases a <;> rfl

theorem sampleAccess_pending (s t : State) (b : Activity) (h : sampleAccess s = .waiting b t) :
    b = .sample ∧ t = s ∧ sampleAccess t = .waiting b t := by
  have h' := h
  unfold sampleAccess at h
  split at h <;> cases h
  exact ⟨rfl, rfl, h'⟩

/-- The accesses of a reading command are the first one and then the others. -/
theorem activityLoop_succ (a : Activity) (n : Nat) (s : State) :
    activityLoop a (n + 1) s = match activityLoop a 1 s with
      | .waiting _ t => activityLoop a n t
      | other => other := by
  cases a with
  | sample =>
    show sampleAccess s = _
    show _ = match sampleAccess s with
      | .waiting _ t => activityLoop .sample n t
      | other => other
    cases h : sampleAccess s with
    | done t => rfl
    | overflow => rfl
    | waiting b t =>
      obtain ⟨rfl, rfl, h'⟩ := sampleAccess_pending s t b h
      cases n
      · rfl
      · exact h'.symm
  | pulse =>
    show pulseLoop (n + 1) s = match pulseLoop 1 s with
      | .waiting _ t => pulseLoop n t
      | other => other
    simp only [pulseLoop]
    cases hp : pulseAccess s <;> simp only []
    cases n <;> simp only [pulseLoop, hp]
  | block =>
    show blockLoop (n + 1) s = match blockLoop 1 s with
      | .waiting _ t => blockLoop n t
      | other => other
    simp only [blockLoop]
    cases hp : pulseAccess s <;> simp only []
    · split_ifs <;> rfl
    · cases n <;> simp only [blockLoop, hp]

/-- A waiting command waits as itself. -/
theorem activityLoop_waiting {a b : Activity} {s t : State} (h : activityLoop a 1 s = .waiting b t) : b = a := by
  cases a with
  | sample => exact (sampleAccess_pending s t b h).1
  | pulse =>
    simp only [activityLoop, pulseLoop] at h
    split at h <;> cases h <;> rfl
  | block =>
    simp only [activityLoop, blockLoop] at h
    split at h
    · cases h; rfl
    · split_ifs at h; cases h; rfl
    · cases h
    · cases h; rfl
    · cases h

/-- The steps of a command end the same whatever stood in the field of the command in progress. -/
def Run.withRunning (r : Option Activity) : Run → Run
  | .done s => .done { s with running := r }
  | .waiting a s => .waiting a { s with running := r }
  | .overflow => .overflow

theorem Run.withRunning_settle (r : Option Activity) (run : Run) (s₀ : State) :
    (Run.withRunning r run).settle s₀ = run.settle s₀ := by cases run <;> rfl

/-- The result of one access, with another command in progress. -/
def accessWithRunning (r : Option Activity) : PulseAccess → PulseAccess
  | .going s => .going { s with running := r }
  | .measured p s => .measured p { s with running := r }
  | .failed => .failed
  | .pending => .pending
  | .overflow => .overflow

theorem classify_running (s : State) (f : Frame) (r : Option Activity) :
    ({ s with running := r }).classify f = ((s.classify f).1, { (s.classify f).2 with running := r }) := by
  unfold State.classify State.value
  dsimp only
  split <;> rfl

theorem inRead_running (s : State) (r : Option Activity) :
    ({ s with running := r }).inRead = (s.inRead.1, { s.inRead.2 with running := r }) := by
  unfold State.inRead
  dsimp only
  split <;> rfl

theorem pulseAccess_running (s : State) (r : Option Activity) :
    pulseAccess { s with running := r } = accessWithRunning r (pulseAccess s) := by
  unfold pulseAccess
  rw [inRead_running]
  rcases hr : s.inRead with ⟨_ | _ | _ | _, u⟩
  · rename_i f
    simp only [classify_running]
    split_ifs
    · rfl
    · cases nextPhase s.edge.ph (u.classify f).1 with
      | mk ph d => cases d <;> rfl
  · rfl
  · rfl
  · rfl

theorem activityLoop_once_running (a : Activity) (s : State) (r : Option Activity) :
    activityLoop a 1 { s with running := r } = Run.withRunning r (activityLoop a 1 s) := by
  cases a with
  | sample =>
    simp only [activityLoop, sampleAccess, inRead_running]
    rcases hr : s.inRead with ⟨_ | _ | _ | _, u⟩
    · simp only [classify_running]; rfl
    · rfl
    · rfl
    · rfl
  | pulse =>
    simp only [activityLoop, pulseLoop, pulseAccess_running]
    cases pulseAccess s <;> rfl
  | block =>
    simp only [activityLoop, blockLoop, pulseAccess_running]
    cases pulseAccess s with
    | measured p t =>
      simp only [accessWithRunning, decStep_running]
      split_ifs <;> rfl
    | _ => rfl

/-- One access of a measurement consumes at most one frame. -/
theorem pulseAccess_reads (s : State) :
    (∀ t, pulseAccess s = .going t → (t.inPos = s.inPos ∨ t.inPos = s.inPos + 1) ∧ t.out = s.out) ∧
    ∀ p t, pulseAccess s = .measured p t → (t.inPos = s.inPos ∨ t.inPos = s.inPos + 1) ∧ t.out = s.out := by
  rcases inRead_cases s with ⟨f, rest, hb, hf, h⟩ | ⟨hl, -⟩
  · by_cases hp : PcntFits s (s.edge.pcnt + 1)
    · rw [pulseAccess_frame s f rest hb hf hp]
      cases nextPhase s.edge.ph (s.classify f).1 with
      | mk ph d =>
        cases d
        · refine ⟨fun t ht => ?_, fun p t ht => (by cases ht)⟩
          cases ht
          exact ⟨.inr rfl, rfl⟩
        · refine ⟨fun t ht => (by cases ht), fun p t ht => ?_⟩
          cases ht
          exact ⟨.inr rfl, rfl⟩
    · have : pulseAccess s = .overflow := by
        unfold pulseAccess
        rw [h]
        simp only []
        rw [if_pos (by simpa [PcntFits] using hp)]
      rw [this]
      exact ⟨fun t ht => (by cases ht), fun p t ht => by cases ht⟩
  · rw [pulseAccess_tail s hl]
    cases s.inp.tail
    · refine ⟨fun t ht => (by cases ht), fun p t ht => ?_⟩
      cases ht
      exact ⟨.inl rfl, rfl⟩
    · exact ⟨fun t ht => (by cases ht), fun p t ht => by cases ht⟩
    · exact ⟨fun t ht => (by cases ht), fun p t ht => by cases ht⟩

/-- One access of a reading command consumes at most one frame and writes none. -/
theorem activityLoop_reads (a : Activity) (s s₀ : State) (h0 : s₀.inPos = s.inPos) (ho : s₀.out = s.out) :
    let t := (activityLoop a 1 s).settle s₀
    (t.inPos = s.inPos ∨ t.inPos = s.inPos + 1) ∧ t.out = s.out := by
  cases a with
  | sample =>
    simp only [activityLoop]
    unfold sampleAccess
    rcases inRead_cases s with ⟨f, rest, hb, hf, h⟩ | ⟨hl, h⟩ <;> rw [h]
    · simp only []
      rw [classify_frame]
      exact ⟨.inr rfl, rfl⟩
    · cases s.inp.tail <;> exact ⟨.inl rfl, rfl⟩
  | pulse =>
    simp only [activityLoop, pulseLoop]
    have hr := pulseAccess_reads s
    cases h : pulseAccess s with
    | going t => exact hr.1 t h
    | measured p t => exact hr.2 p t h
    | failed => exact ⟨.inl rfl, rfl⟩
    | pending => exact ⟨.inl rfl, rfl⟩
    | overflow => exact ⟨.inl h0, ho⟩
  | block =>
    simp only [activityLoop, blockLoop]
    have hr := pulseAccess_reads s
    cases h : pulseAccess s with
    | going t => exact hr.1 t h
    | measured p t =>
      have hf := decStep_frame t p
      have h2 := hr.2 p t h
      have hq : (t.decStep p).inPos = t.inPos ∧ (t.decStep p).out = t.out := by rw [hf]; exact ⟨rfl, rfl⟩
      rw [← hq.1, ← hq.2] at h2
      dsimp only
      split_ifs <;> dsimp only [Run.settle] <;> exact h2
    | failed => dsimp only [Run.settle]; exact ⟨.inl rfl, rfl⟩
    | pending => dsimp only [Run.settle]; exact ⟨.inl rfl, rfl⟩
    | overflow => exact ⟨.inl h0, ho⟩

/-- The oracle owes the answer to the next read. -/
abbrev Owed (s : State) : Prop := s.inp.tail = .oracle ∧ s.inp.bytes.length < s.derived.frameBytes

theorem askInput_not_owed (s : State) (h : ¬Owed s) : s.askInput = s := if_neg h

/-- While the oracle owes the answer no access is made. -/
theorem activityLoop_owed (a : Activity) (n : Nat) (s : State) (h : Owed s) : activityLoop a n s = .waiting a s := by
  have hp := pulseAccess_tail s h.2
  have hi := inRead_tail s h.2
  rw [h.1] at hp hi
  cases a <;> cases n <;> simp only [activityLoop, sampleAccess, pulseLoop, blockLoop, hp, hi]

/-- One step of one access, of a reading command. -/
theorem fineStep_reading (s : State) (a : Activity) (h : s.running = some a) :
    fineStep ⟨s, none⟩ = .next ⟨(activityLoop a 1 s.askInput).settle s, none⟩ := by
  simp only [fineStep, h, Activity.access, once_eq_loop]

theorem fineSteps_succ {m m' : FineState} (n : Nat) (h : fineStep m = .next m') :
    fineSteps (n + 1) m = fineSteps n m' := by simp only [fineSteps, h]

/-- A reading command that makes up to `n` accesses in one step makes them one a step, unless one is refused. -/
theorem loop_fine (a : Activity) (n : Nat) : ∀ (s s₀ t : State), (activityLoop a n s).settle s₀ = t →
    t.refusal = none → ∃ k, fineSteps k ⟨{ s with running := some a }, none⟩ = .next ⟨t, none⟩ := by
  induction n with
  | zero =>
    intro s s₀ t ht _
    subst ht
    exact ⟨0, by cases a <;> rfl⟩
  | succ n ih =>
    intro s s₀ t ht hr
    by_cases ho : Owed s
    · rw [activityLoop_owed a _ s ho] at ht
      subst ht
      exact ⟨0, rfl⟩
    · have hstep := fineStep_reading { s with running := some a } a rfl
      rw [askInput_not_owed _ (show ¬Owed { s with running := some a } from ho), activityLoop_once_running,
        Run.withRunning_settle] at hstep
      rw [activityLoop_succ] at ht
      cases hl : activityLoop a 1 s with
      | done u =>
        rw [hl] at ht hstep
        subst ht
        exact ⟨1, (fineSteps_succ 0 hstep).trans rfl⟩
      | overflow =>
        rw [hl] at ht
        subst ht
        exact absurd hr (refuse_ne_none _ _)
      | waiting b u =>
        obtain rfl := activityLoop_waiting hl
        rw [hl] at ht hstep
        obtain ⟨k, hk⟩ := ih u s₀ t ht hr
        exact ⟨k + 1, (fineSteps_succ k hstep).trans hk⟩

/-- The continuation of a reading command is its accesses, the first of which asks the oracle. -/
theorem resume_fine (a : Activity) (s : State) (h : s.running = some a) (hr : (a.resume s).refusal = none) :
    ∃ k, 0 < k ∧ fineSteps k ⟨s, none⟩ = .next ⟨a.resume s, none⟩ := by
  have hstep := fineStep_reading s a h
  unfold Activity.resume at hr ⊢
  rw [go_eq_loop, activityLoop_succ] at hr ⊢
  cases hl : activityLoop a 1 s.askInput with
  | done u =>
    rw [hl] at hstep
    exact ⟨1, by omega, (fineSteps_succ 0 hstep).trans rfl⟩
  | overflow =>
    rw [hl] at hr
    exact absurd hr (refuse_ne_none _ _)
  | waiting b u =>
    obtain rfl := activityLoop_waiting hl
    rw [hl] at hstep hr
    obtain ⟨k, hk⟩ := loop_fine b _ u s _ rfl hr
    exact ⟨k + 1, by omega, (fineSteps_succ k hstep).trans hk⟩

/-! ## Emission commands -/

/-- An emission in one step is its frames one a step, unless one is refused. -/
theorem emission_fine (fs : List Frame) (n : Nat) : ∀ (s s₀ t : State), (emission s ⟨fs, n⟩).settle s₀ = t →
    t.refusal = none → ∃ k, fineSteps k (Emission.continue ⟨fs, n⟩ s) = .next ⟨t, none⟩ := by
  induction fs with
  | nil =>
    intro s s₀ t ht _
    subst ht
    exact ⟨0, rfl⟩
  | cons f fs ih =>
    intro s s₀ t ht hr
    have hstep : fineStep (Emission.continue ⟨f :: fs, n⟩ s) = .next (Emission.access ⟨f :: fs, n⟩ s) := rfl
    unfold emission at ht
    unfold Emission.access at hstep
    simp only [State.emit] at ht hstep
    cases ho : s.outWrite f with
    | ok u =>
      simp only [ho] at ht hstep
      obtain ⟨k, hk⟩ := ih u s₀ t ht hr
      exact ⟨k + 1, (fineSteps_succ k hstep).trans hk⟩
    | failed u =>
      simp only [ho] at ht hstep
      subst ht
      exact ⟨1, (fineSteps_succ 0 hstep).trans rfl⟩
    | overflow =>
      simp only [ho] at ht
      subst ht
      exact absurd hr (refuse_ne_none _ _)

/-! ## The start of a command -/

/-- A command is run by its start and its accesses. -/
theorem start_fine {i : Instr} {s t : State} (h : exec i s = .next t) (hr : t.refusal = none) :
    ∃ m, startCommand i s = .next m ∧ ∃ k, fineSteps k m = .next ⟨t, none⟩ := by
  have whole : ∀ o : Host.Outcome FineState Fault Refusal, o = .next ⟨t, none⟩ →
      ∃ m, o = .next m ∧ ∃ k, fineSteps k m = .next ⟨t, none⟩ := fun o ho => ⟨_, ho, 0, rfl⟩
  unfold startCommand
  cases hp : preRefusal i s with
  | some r => exact whole _ (by simp only [h])
  | none =>
    simp only [emissionOf_setCmd]
    cases he : emissionOf i s with
    | some e =>
      rw [exec_emission hp he] at h
      cases h
      exact ⟨_, rfl, emission_fine _ _ _ s _ rfl hr⟩
    | none =>
      cases i
      case clsSample =>
        rw [exec_clsSample hp] at h
        cases h
        exact ⟨_, rfl, loop_fine .sample 1 _ s _ rfl hr⟩
      case clsPulse =>
        rw [exec_clsPulse hp] at h
        cases h
        exact ⟨_, rfl, loop_fine .pulse s.readFuel (s.setCmd .clsPulse).startPulse s _ rfl hr⟩
      case decBlock =>
        rw [exec_decBlock hp] at h
        cases h
        exact ⟨_, rfl, loop_fine .block s.readFuel ((s.setCmd .decBlock).decReset s.io.arg0).startPulse s _ rfl hr⟩
      all_goals exact whole _ (by simp only [h, readingOf])

/-- A write starts the command it selects. -/
theorem hostWrite_command {idx : Byte} {v : Word} {i : Instr} (s : State) (h : commandWritten idx v = some i) :
    s.hostWrite idx v = exec i s := by
  unfold commandWritten at h
  split_ifs at h with hc
  unfold State.hostWrite
  simp only [hc, State.writeCmd]
  cases hd : decode (BitVec.ofNat 8 v.toNat) with
  | error e => rw [hd] at h; cases h
  | ok j => rw [hd] at h; cases h; rfl

theorem perform_command {a : HostAction} {s u : State} {i : Instr} (h : a.command s = some (i, u)) :
    a.perform s = exec i u := by
  cases a with
  | write idx v =>
    obtain ⟨j, hj, he⟩ := Option.map_eq_some_iff.1 h
    cases he
    exact hostWrite_command _ hj
  | copy source target =>
    unfold HostAction.command at h
    unfold HostAction.perform
    dsimp only at h ⊢
    cases hh : s.hostRead source with
    | error f => rw [hh] at h; cases h
    | ok wt =>
      rw [hh] at h
      obtain ⟨j, hj, he⟩ := Option.map_eq_some_iff.1 h
      cases he
      exact hostWrite_command _ hj
  | _ => cases h

theorem sequencer_command {q : Sequencer} {s u : State} {i : Instr} (h : q.command s = some (i, u)) :
    q.step s = exec i u := by
  unfold Sequencer.command at h
  unfold Sequencer.step
  cases hph : q.phase with
  | header =>
    simp only [hph] at h ⊢
    cases hp : preRefusal .decBlock s with
    | some r => rw [hp] at h; cases h
    | none => rw [hp] at h; cases h; rfl
  | data hd size =>
    simp only [hph] at h ⊢
    cases h
    rfl
  | headerDone => simp only [hph] at h; cases h
  | dataDone hd size => simp only [hph] at h; cases h

/-- A step of the record sequencer. -/
theorem step_sequencer {s : State} {q : Sequencer} (hr : s.running = none) (hq : s.seq = some q) :
    step s = q.step s := by
  unfold step State.advance
  split
  · rename_i b hb
    cases hr.symm.trans hb
  · split
    · rename_i r hr'
      cases hq.symm.trans hr'
      rfl
    · rename_i hn
      cases hq.symm.trans hn

/-- A step of the host. -/
theorem step_host {s : State} {a : HostAction} {rest : List HostAction} (hr : s.running = none) (hq : s.seq = none)
    (hl : s.queue = a :: rest) : step s = a.perform { s with queue := rest } := by
  unfold step State.advance
  split
  · rename_i b hb
    cases hr.symm.trans hb
  · split
    · rename_i r hr'
      cases hq.symm.trans hr'
    · split
      · rename_i hn
        cases hl.symm.trans hn
      · rename_i b r hb
        cases hl.symm.trans hb
        rfl

/-- The next command is the one the step runs. -/
theorem step_nextCommand {s u : State} {i : Instr} (hr : s.running = none) (h : s.nextCommand = some (i, u)) :
    step s = exec i u := by
  unfold State.nextCommand at h
  split at h
  · rename_i q hq
    exact (step_sequencer hr hq).trans (sequencer_command h)
  · rename_i hq
    split at h
    · cases h
    · rename_i a rest hl
      exact (step_host hr hq hl).trans (perform_command h)

end Sys2Proof.Laws
end

