-- ==== Sys2Proof/Laws/PerInstr.lean ====
section
/-! SUPPORT. The per-instruction family F: what holds of every command as syntax. -/

namespace Sys2Proof.Laws.F

/-- The command is well formed, its command word is its `FAM` and `OP` fields (R90), and of all bytes that word
alone decodes to it (R92, R93). -/
def Statement (i : Instr) : Prop :=
  i.wellFormed = true ∧ (i.code.extractLsb' 4 4).toNat = i.family ∧ (i.code.extractLsb' 0 4).toNat = i.op ∧
    ∀ w : Byte, decode w = .ok i ↔ w = i.code

/-- `Statement` as a finite check. -/
theorem statement_of_check (i : Instr)
    (h : (i.wellFormed && (i.code.extractLsb' 4 4).toNat == i.family && (i.code.extractLsb' 0 4).toNat == i.op &&
      (List.range 256).all fun n => decide (decode (BitVec.ofNat 8 n) = .ok i ↔ BitVec.ofNat 8 n = i.code)) = true) :
    Statement i := by
  simp only [Bool.and_eq_true, beq_iff_eq, List.all_eq_true, List.mem_range, decide_eq_true_eq] at h
  obtain ⟨⟨⟨h1, h2⟩, h3⟩, h4⟩ := h
  refine ⟨h1, h2, h3, fun w => ?_⟩
  have := h4 w.toNat w.isLt
  simpa using this

theorem openSession : Statement .openSession := statement_of_check _ (by decide +kernel)
theorem closeSession : Statement .closeSession := statement_of_check _ (by decide +kernel)
theorem tmScale : Statement .tmScale := statement_of_check _ (by decide +kernel)
theorem tmUnscale : Statement .tmUnscale := statement_of_check _ (by decide +kernel)
theorem tmTol : Statement .tmTol := statement_of_check _ (by decide +kernel)
theorem encLevels : Statement .encLevels := statement_of_check _ (by decide +kernel)
theorem encFrame : Statement .encFrame := statement_of_check _ (by decide +kernel)
theorem encSilence : Statement .encSilence := statement_of_check _ (by decide +kernel)
theorem encCycle : Statement .encCycle := statement_of_check _ (by decide +kernel)
theorem encPilot : Statement .encPilot := statement_of_check _ (by decide +kernel)
theorem encByte : Statement .encByte := statement_of_check _ (by decide +kernel)
theorem encBlock : Statement .encBlock := statement_of_check _ (by decide +kernel)
theorem encCount : Statement .encCount := statement_of_check _ (by decide +kernel)
theorem clsSample : Statement .clsSample := statement_of_check _ (by decide +kernel)
theorem fltClear : Statement .fltClear := statement_of_check _ (by decide +kernel)
theorem clsPulse : Statement .clsPulse := statement_of_check _ (by decide +kernel)
theorem decReset : Statement .decReset := statement_of_check _ (by decide +kernel)
theorem decStep : Statement .decStep := statement_of_check _ (by decide +kernel)
theorem decClassify : Statement .decClassify := statement_of_check _ (by decide +kernel)
theorem decBlock : Statement .decBlock := statement_of_check _ (by decide +kernel)

end Sys2Proof.Laws.F
end

