-- ==== Sys2Proof/Laws/Progress.lean ====
section
/-! SUPPORT. A command in progress at a read the supplied bytes cannot answer, and after the oracle's answer (R61,
R188, R255, R291). -/

namespace Sys2Proof.Laws

open Sys2Proof Sys2Proof.Machine Sys2Proof.Safety

/-- A command in progress goes on after the oracle was asked. -/
theorem step_running (s : State) (a : Activity) (h : s.running = some a) :
    step s = .next ((a.go s.askInput).settle s) := by
  simp only [step, State.advance, h]
  rfl

/-- The oracle's answer to a read it owes. -/
theorem askInput_owed (s : State) (ht : s.inp.tail = .oracle) (hl : s.inp.bytes.length < s.derived.frameBytes) :
    s.askInput = { s with
      inp := (match Config.inputAnswer s.draws with
        | .wait => s.inp
        | .frame bits =>
          { s.inp with
            bytes := s.inp.bytes ++ (bytesOfAnswer bits).take (s.derived.frameBytes - s.inp.bytes.length) }
        | .eos => { s.inp with tail := .eos }
        | .fail => { s.inp with tail := .fails })
      draws := s.draws + 1 } := by
  unfold State.askInput
  refine (if_pos ⟨ht, hl⟩).trans ?_
  cases Config.inputAnswer s.draws <;> rfl

/-- No answer yet: nothing moves, and the command stays in progress. -/
theorem go_oracle (a : Activity) (u : State) (hl : u.inp.bytes.length < u.derived.frameBytes)
    (ht : u.inp.tail = .oracle) : a.go u = .waiting a u := by
  have hp := pulseAccess_tail u hl
  have hi := inRead_tail u hl
  rw [ht] at hp hi
  cases a with
  | sample => simp only [Activity.go, sampleAccess, hi]
  | pulse => simp only [Activity.go, State.readFuel, pulseLoop, hp]
  | block => simp only [Activity.go, State.readFuel, blockLoop, hp]

/-- The end of the stream: the command ends, and the stream, its position and the session are as before. -/
theorem go_eos (a : Activity) (u : State) (hl : u.inp.bytes.length < u.derived.frameBytes) (ht : u.inp.tail = .eos) :
    ∃ v, a.go u = .done v ∧ v.inPos = u.inPos ∧ v.status.session = u.status.session ∧ v.inp = u.inp := by
  have hp := pulseAccess_tail u hl
  have hi := inRead_tail u hl
  rw [ht] at hp hi
  cases a with
  | sample => simp only [Activity.go, sampleAccess, hi]; exact ⟨_, rfl, rfl, rfl, rfl⟩
  | pulse => simp only [Activity.go, State.readFuel, pulseLoop, hp]; exact ⟨_, rfl, rfl, rfl, rfl⟩
  | block =>
    simp only [Activity.go, State.readFuel, blockLoop, hp, decStep_eos, if_true]
    have hf := decStep_frame ((u.setPhase .idle).setPulse .eos) .eos
    generalize ((u.setPhase .idle).setPulse .eos).decStep .eos = q at hf
    refine ⟨_, rfl, ?_⟩
    rw [hf]
    exact ⟨rfl, rfl, rfl⟩

/-- A failing read: the command ends, the session is ABORTED with code 8, and the edge detector is as before. -/
theorem go_fails (a : Activity) (u : State) (hl : u.inp.bytes.length < u.derived.frameBytes)
    (ht : u.inp.tail = .fails) :
    ∃ v, a.go u = .done v ∧ v.inPos = u.inPos ∧ v.edge = u.edge ∧ v.status.session = .aborted ∧
      v.status.err = .streamRead ∧ v.io = u.io := by
  have hp := pulseAccess_tail u hl
  have hi := inRead_tail u hl
  rw [ht] at hp hi
  cases a with
  | sample => simp only [Activity.go, sampleAccess, hi]; exact ⟨_, rfl, rfl, rfl, rfl, rfl, rfl⟩
  | pulse => simp only [Activity.go, State.readFuel, pulseLoop, hp]; exact ⟨_, rfl, rfl, rfl, rfl, rfl, rfl⟩
  | block => simp only [Activity.go, State.readFuel, blockLoop, hp]; exact ⟨_, rfl, rfl, rfl, rfl, rfl, rfl⟩

/-- Exactly one frame and nothing known after it: it is consumed, and the command ends or waits again. -/
theorem go_frame (a : Activity) (u : State) (hl : u.inp.bytes.length = u.derived.frameBytes)
    (hpos : 0 < u.derived.frameBytes) (ht : u.inp.tail = .oracle) (hp : PcntFits u (u.edge.pcnt + 1)) :
    ∃ v, (a.go u = .done v ∨ ∃ b, a.go u = .waiting b v) ∧ v.inPos = u.inPos + 1 := by
  have hb : u.inp.bytes = u.inp.bytes ++ [] := (List.append_nil _).symm
  have hacc := pulseAccess_frame u u.inp.bytes [] hb hl hp
  obtain ⟨k, hk⟩ : ∃ k, u.readFuel = k + 1 + 1 := ⟨u.inp.bytes.length - 1, by unfold State.readFuel; omega⟩
  have next : ∀ v : State, v.inp.bytes = [] → v.inp.tail = .oracle →
      v.derived.frameBytes = u.derived.frameBytes → pulseAccess v = .pending := by
    intro v h1 h2 h3
    rw [pulseAccess_tail v (by rw [h1, h3]; exact hpos), h2]
  have hcl := classify_frame (readFrames u 1 []) u.inp.bytes
  cases a with
  | sample =>
    simp only [Activity.go, sampleAccess, inRead_frame u u.inp.bytes [] hb hl]
    refine ⟨_, .inl rfl, ?_⟩
    show ((readFrames u 1 []).classify u.inp.bytes).2.inPos = _
    rw [hcl]
    rfl
  | pulse =>
    simp only [Activity.go, hk, pulseLoop, hacc]
    cases nextPhase u.edge.ph (u.classify u.inp.bytes).1 with
    | mk ph d =>
      cases d
      · simp only []
        rw [next (counted u [u.inp.bytes] ph []) rfl ht rfl]
        exact ⟨_, .inr ⟨_, rfl⟩, rfl⟩
      · exact ⟨_, .inl rfl, rfl⟩
  | block =>
    simp only [Activity.go, hk, blockLoop, hacc]
    cases nextPhase u.edge.ph (u.classify u.inp.bytes).1 with
    | mk ph d =>
      cases d
      · simp only []
        rw [next (counted u [u.inp.bytes] ph []) rfl ht rfl]
        exact ⟨_, .inr ⟨_, rfl⟩, rfl⟩
      · simp only []
        have hf := decStep_frame ((counted u [u.inp.bytes] ph []).setPulse (Pulse.width (u.edge.pcnt + 1)))
          (Pulse.width (u.edge.pcnt + 1))
        generalize ((counted u [u.inp.bytes] ph []).setPulse (Pulse.width (u.edge.pcnt + 1))).decStep
          (Pulse.width (u.edge.pcnt + 1)) = q at hf
        have hq : q.inp.bytes = [] ∧ q.inp.tail = .oracle ∧ q.derived = u.derived ∧ q.inPos = u.inPos + 1 := by
          rw [hf]
          exact ⟨rfl, ht, rfl, rfl⟩
        split_ifs
        · exact ⟨_, .inl rfl, hq.2.2.2⟩
        · rw [next q.startPulse hq.1 hq.2.1 (congrArg (·.frameBytes) hq.2.2.1)]
          exact ⟨_, .inr ⟨_, rfl⟩, hq.2.2.2⟩

end Sys2Proof.Laws
end

