-- ==== Sys2Proof/Laws/Timing.lean ====
section
/-! SUPPORT. Rounding (R15), the derived registers, and the frames and cycles of a session whose registers are what
`OPEN` computed (R65, R112 to R114, R134, R135). -/

namespace Sys2Proof.Laws

open Sys2Proof Sys2Proof.Machine Sys2Proof.Safety

/-! ## Rounding -/

/-- `round` of a quotient of naturals is its half-up integer, and the only one. -/
theorem roundHalfUp_div (a d : Nat) (hd : 0 < d) :
    HalfUp a d (roundHalfUp ((a : Rat) / (d : Rat))).toNat ∧
      ∀ n, HalfUp a d n → n = (roundHalfUp ((a : Rat) / (d : Rat))).toNat := by
  have hd' : (0 : Rat) < d := by exact_mod_cast hd
  have hfl : roundHalfUp ((a : Rat) / (d : Rat)) = ⌊(a : Rat) / d + 1 / 2⌋ := rfl
  have key : ∀ n : Nat, HalfUp a d n ↔ roundHalfUp ((a : Rat) / (d : Rat)) = n := by
    intro n
    rw [hfl, Int.floor_eq_iff, show (a : Rat) / d + 1 / 2 = (2 * a + d) / (2 * d) by field_simp,
      le_div_iff₀ (by positivity), div_lt_iff₀ (by positivity)]
    unfold HalfUp
    rw [← Nat.cast_le (α := Rat), ← Nat.cast_lt (α := Rat)]
    push_cast
    rw [mul_comm (n : Rat), mul_comm ((n : Rat) + 1)]
  have hnn : 0 ≤ roundHalfUp ((a : Rat) / (d : Rat)) := by
    rw [hfl]
    exact Int.floor_nonneg.2 (by positivity)
  refine ⟨(key _).2 (by omega), fun n hn => ?_⟩
  rw [(key n).1 hn, Int.toNat_natCast]

theorem scale_halfUp (clk rate c : Nat) (h : 0 < clk) :
    HalfUp (c * rate) clk (scale clk rate c) ∧ ∀ n, HalfUp (c * rate) clk n → n = scale clk rate c := by
  have := roundHalfUp_div (c * rate) clk h
  unfold scale
  push_cast at this
  exact this

theorem unscale_halfUp (clk rate n : Nat) (h : 0 < rate) :
    HalfUp (n * clk) rate (unscale clk rate n) ∧ ∀ m, HalfUp (n * clk) rate m → m = unscale clk rate n := by
  have := roundHalfUp_div (n * clk) rate h
  unfold unscale
  push_cast at this
  exact this

theorem tolerance_halfUp (clk rate c : Nat) (h : 0 < clk) :
    HalfUp (c * rate) (2 * clk) (tolerance clk rate c) ∧
      ∀ n, HalfUp (c * rate) (2 * clk) n → n = tolerance clk rate c := by
  have := roundHalfUp_div (c * rate) (2 * clk) (by omega)
  unfold tolerance
  rw [show ((c * rate : Nat) : Rat) / ((2 * clk : Nat) : Rat) = (c : Rat) / 2 * rate / clk by
    push_cast
    field_simp] at this
  exact this

theorem silenceFrames_halfUp (rate ms : Nat) : HalfUp (ms * rate) 1000 (silenceFrames rate ms) := by
  have := (roundHalfUp_div (ms * rate) 1000 (by omega)).1
  unfold silenceFrames
  push_cast at this
  exact this

/-! ## Frames -/

/-- What passing the checks of `OPEN` says of the format (R118). -/
theorem configError_none (c : CfgRegs) (h : c.configError = none) :
    (c.bits = 8 ∨ c.bits = 16 ∨ c.bits = 24 ∨ c.bits = 32) ∧ (c.channels = 1 ∨ c.channels = 2) ∧ 0 < c.rateHz := by
  unfold CfgRegs.configError at h
  split_ifs at h
  omega

theorem bytesOfWord_length (n : Nat) (w : Word) : (bytesOfWord n w).length = n := by simp [bytesOfWord]

theorem encodeFrame_length (c : CfgRegs) (v : Word) : (encodeFrame c v).length = c.channels * (c.bits / 8) := by
  simp [encodeFrame, bytesOfWord, CfgRegs.sampleBytes]

/-- The bytes of a word, least significant first, stand for the word modulo `256^n` (R63). -/
theorem natOfBytes_bytesOfWord (n : Nat) (w : Word) : natOfBytes (bytesOfWord n w) = w.toNat % 256 ^ n := by
  have key : ∀ (n x : Nat), natOfBytes ((List.range n).map fun k => BitVec.ofNat 8 (w.toNat / 256 ^ x / 256 ^ k)) =
      (w.toNat / 256 ^ x) % 256 ^ n := by
    intro n
    induction n with
    | zero => intro x; simp [natOfBytes, Nat.mod_one]
    | succ n ih =>
      intro x
      rw [List.range_succ_eq_map, List.map_cons, List.map_map, natOfBytes,
        show ((fun k => BitVec.ofNat 8 (w.toNat / 256 ^ x / 256 ^ k)) ∘ Nat.succ) =
            fun k => BitVec.ofNat 8 (w.toNat / 256 ^ (x + 1) / 256 ^ k) by
          funext k
          simp only [Function.comp, Nat.succ_eq_add_one, pow_succ, Nat.div_div_eq_div_mul]
          congr 2
          ring, ih]
      simp only [pow_zero, Nat.div_one, BitVec.toNat_ofNat]
      rw [pow_succ 256 x, ← Nat.div_div_eq_div_mul, pow_succ 256 n, Nat.mul_comm (256 ^ n) 256, Nat.mod_mul]
  have := key n 0
  simpa [bytesOfWord] using this

theorem natOfBytes_lt (b : List Byte) : natOfBytes b < 256 ^ b.length := by
  induction b with
  | nil => simp [natOfBytes]
  | cons x b ih =>
    rw [natOfBytes, List.length_cons, pow_succ]
    have := x.isLt
    omega

/-- Concatenated frames of one length. -/
theorem flatten_length (n : Nat) (fs : List Frame) (h : ∀ f ∈ fs, f.length = n) : fs.flatten.length = fs.length * n := by
  induction fs with
  | nil => simp
  | cons f fs ih =>
    rw [List.flatten_cons, List.length_append, h f (by simp), ih fun g hg => h g (by simp [hg]), List.length_cons]
    ring

/-! ## A session's registers -/

/-- Outside CLOSED: every frame the encoder makes has `FRAME_BYTES` bytes, at least one, and a reference width is
the sum of its semicycles (R35, R114). -/
theorem session_frames (s : State) (h : s.status.session ≠ .closed) (hs : SessionConstants s) :
    (∀ v, (encodeFrame s.cfg v).length = s.derived.frameBytes) ∧ 0 < s.derived.frameBytes ∧
      ∀ y, s.derived.ref.get y = s.derived.hiS.get y + s.derived.loS.get y := by
  obtain ⟨-, h2, h3, -⟩ := hs h
  have hfb : s.derived.frameBytes = s.cfg.channels * (s.cfg.bits / 8) := by rw [h3]; rfl
  refine ⟨fun v => by rw [encodeFrame_length, hfb], ?_, fun y => by rw [h3]; cases y <;> rfl⟩
  rw [hfb]
  obtain ⟨a, b, -⟩ := configError_none _ h2
  rcases a with a | a | a | a <;> rcases b with b | b <;> rw [a, b] <;> decide

theorem symbolCycle_frames (s : State) (h : s.status.session ≠ .closed) (hs : SessionConstants s) (y : Symbol) :
    ∀ f ∈ symbolCycle s y, f.length = s.derived.frameBytes := by
  intro f hf
  simp only [symbolCycle, List.mem_append, List.mem_replicate] at hf
  rcases hf with ⟨-, rfl⟩ | ⟨-, rfl⟩ <;> exact (session_frames s h hs).1 _

/-- The wave tables of an ENCODE session (R135). -/
theorem session_tables (s : State) (h : s.status.session ≠ .closed) (hm : s.cfg.mode = .encode)
    (hs : SessionConstants s) :
    (∀ y, s.tables.wt.get y = symbolCycle s y) ∧ s.tables.sil = [encodeFrame s.cfg s.derived.lvlMid] := by
  obtain ⟨-, -, -, h4⟩ := hs h
  rw [h4 hm]
  exact ⟨fun y => by cases y <;> rfl, rfl⟩

theorem byteFrames_eq (s : State) (h : s.status.session ≠ .closed) (hm : s.cfg.mode = .encode)
    (hs : SessionConstants s) (b : Byte) : byteFrames s.tables b = byteCycles s b := by
  unfold byteFrames byteCycles tapeBits
  simp only [List.flatMap_cons, List.flatMap_nil, (session_tables s h hm hs).1, bitSymbol]

theorem bitFrames_eq (d : Derived) (b : Byte) : bitFrames d b = byteWidth d b := by
  have key : ∀ x : Bool, d.ref.get (bitSymbol x) = if x then d.ref.bit1 else d.ref.bit0 := by
    intro x
    cases x <;> rfl
  unfold bitFrames byteWidth tapeBits
  simp only [List.map_cons, List.map_nil, key]

end Sys2Proof.Laws
end

