-- ==== Sys2Proof/Laws/Tape.lean ====
section
/-! SUPPORT. Encoder cycles as the decoder side sees them: the pulses of a clean stream (R182, R185), the windows
(R201), and the bytes that bit pulses assemble (R205). -/

namespace Sys2Proof.Laws

open Sys2Proof Sys2Proof.Machine Sys2Proof.Safety

/-! ## The pulses of a region sequence -/

/-- From SEEK_LOW, the first LOW ends the pulse. -/
theorem pulseWidths_low (Y R : List Region) (hY : Region.low ∉ Y) : ∀ k,
    pulseWidths .seekLow k (Y ++ .low :: R) = (k + Y.length + 1) :: pulseWidths .seekHigh 0 R := by
  induction Y with
  | nil => intro k; simp [pulseWidths, nextPhase]
  | cons y Y ih =>
    intro k
    have h2 : Region.low ∉ Y := fun h => hY (by simp [h])
    cases y
    · rw [List.cons_append, pulseWidths]; simp only [nextPhase]; rw [ih h2]; simp; omega
    · rw [List.cons_append, pulseWidths]; simp only [nextPhase]; rw [ih h2]; simp; omega
    · exact absurd (by simp) hY

/-- One pulse: up to and including the first LOW after the first HIGH (R182). -/
theorem pulseWidths_one (X Y R : List Region) (hX : Region.high ∉ X) (hY : Region.low ∉ Y) (k : Nat) :
    pulseWidths .seekHigh k (X ++ .high :: (Y ++ .low :: R)) =
      (k + X.length + 1 + Y.length + 1) :: pulseWidths .seekHigh 0 R := by
  induction X generalizing k with
  | nil => rw [List.nil_append, pulseWidths]; simp only [nextPhase]; rw [pulseWidths_low Y R hY]; simp
  | cons x X ih =>
    have h2 : Region.high ∉ X := fun h => hX (by simp [h])
    cases x
    · rw [List.cons_append, pulseWidths]; simp only [nextPhase]; rw [ih h2]; simp; omega
    · exact absurd (by simp) hX
    · rw [List.cons_append, pulseWidths]; simp only [nextPhase]; rw [ih h2]; simp; omega

/-- A HIGH with no LOW after it completes no pulse. -/
theorem pulseWidths_none (X Y : List Region) (hX : Region.high ∉ X) (hY : Region.low ∉ Y) (k : Nat) :
    pulseWidths .seekHigh k (X ++ .high :: Y) = [] := by
  have low : ∀ (Y : List Region), Region.low ∉ Y → ∀ k, pulseWidths .seekLow k Y = [] := by
    intro Y
    induction Y with
    | nil => intro _ k; simp [pulseWidths]
    | cons y Y ih =>
      intro hY k
      have h2 : Region.low ∉ Y := fun h => hY (by simp [h])
      cases y
      · rw [pulseWidths]; simp only [nextPhase]; exact ih h2 _
      · rw [pulseWidths]; simp only [nextPhase]; exact ih h2 _
      · exact absurd (by simp) hY
  induction X generalizing k with
  | nil => rw [List.nil_append, pulseWidths]; simp only [nextPhase]; exact low Y hY _
  | cons x X ih =>
    have h2 : Region.high ∉ X := fun h => hX (by simp [h])
    cases x
    · rw [List.cons_append, pulseWidths]; simp only [nextPhase]; exact ih h2 _
    · exact absurd (by simp) hX
    · rw [List.cons_append, pulseWidths]; simp only [nextPhase]; exact ih h2 _

/-! ## Cycles -/

/-- The regions of one cycle on a clean stream: LOW for the low semicycle, HIGH for the high one (R135, R185). -/
def cycleRegions (d : Derived) (y : Symbol) : List Region :=
  List.replicate (d.loS.get y) .low ++ List.replicate (d.hiS.get y) .high

theorem symbolCycle_regions (s : State) (hc : CleanLevels s.cfg s.derived) (y : Symbol) :
    (symbolCycle s y).map (frameRegion s.cfg) = cycleRegions s.derived y := by
  simp [symbolCycle, cycleRegions, hc.2.1, hc.2.2.1]

/-- A cycle is one LOW, then LOWs, then at least one HIGH. -/
theorem cycleRegions_split (d : Derived) (y : Symbol) (h : 0 < d.hiS.get y ∧ 0 < d.loS.get y) :
    ∃ a b, cycleRegions d y = .low :: (List.replicate a .low ++ .high :: List.replicate b .high) ∧
      a + b + 2 = d.hiS.get y + d.loS.get y := by
  obtain ⟨a, ha⟩ : ∃ a, d.loS.get y = a + 1 := ⟨d.loS.get y - 1, by omega⟩
  obtain ⟨b, hb⟩ : ∃ b, d.hiS.get y = b + 1 := ⟨d.hiS.get y - 1, by omega⟩
  refine ⟨a, b, ?_, by omega⟩
  rw [cycleRegions, ha, hb]
  simp [List.replicate_succ]

/-- The pulses of consecutive cycles, from after the first frame of the first one: the reference width of each but
the last, whose pulse the trailing silence does not end (R185). -/
theorem pulseWidths_cycles (d : Derived) (hpos : ∀ y, 0 < d.hiS.get y ∧ 0 < d.loS.get y)
    (href : ∀ y, d.ref.get y = d.hiS.get y + d.loS.get y) (trail : Nat) (ys : List Symbol) : ∀ y,
    pulseWidths .seekHigh 0
        ((cycleRegions d y).drop 1 ++ (ys.flatMap (cycleRegions d) ++ List.replicate trail .dead)) =
      ((y :: ys).dropLast).map d.ref.get := by
  induction ys with
  | nil =>
    intro y
    obtain ⟨a, b, he, -⟩ := cycleRegions_split d y (hpos y)
    rw [he]
    simp only [List.drop_succ_cons, List.drop_zero, List.flatMap_nil, List.nil_append, List.append_assoc,
      List.cons_append]
    rw [pulseWidths_none _ _ (by simp) (by simp)]
    rfl
  | cons z ys ih =>
    intro y
    obtain ⟨a, b, he, hs⟩ := cycleRegions_split d y (hpos y)
    obtain ⟨a', b', he', -⟩ := cycleRegions_split d z (hpos z)
    have ihz := ih z
    rw [he'] at ihz
    rw [List.flatMap_cons, he, he']
    simp only [List.drop_succ_cons, List.drop_zero, List.append_assoc, List.cons_append] at ihz ⊢
    rw [pulseWidths_one _ _ _ (by simp) (by simp), ihz]
    simp only [List.length_replicate, List.dropLast_cons_cons, List.map_cons]
    rw [href]
    congr 1
    omega

/-! ## Windows and bits -/

theorem inWindow_iff (d : Derived) (n : Nat) (y : Symbol) : inWindow d (.width n) y = true ↔ Matches d n y := by
  simp [inWindow, Matches]

theorem inWindow_false (d : Derived) (n : Nat) (y : Symbol) (h : ¬Matches d n y) :
    inWindow d (.width n) y = false := by
  rw [← inWindow_iff] at h
  simpa using h

theorem matches_self (d : Derived) (y : Symbol) : Matches d (d.ref.get y) y := by
  unfold Matches
  omega

/-- In LOADING, the reference width of a bit appends the bit, if the window of bit 1 is not in that of bit 0
(R202, R204). -/
theorem decStep_bit (u : State) (hl : u.status.dstate = .loading)
    (h1 : ¬Matches u.derived (u.derived.ref.get .bit1) .bit0) (x : Bool) :
    u.decStep (.width (u.derived.ref.get (if x then .bit1 else .bit0))) = u.appendBit x := by
  cases x
  · have : inWindow u.derived (.width (u.derived.ref.get .bit0)) .bit0 = true :=
      (inWindow_iff _ _ _).2 (matches_self _ _)
    simp [State.decStep, hl, this]
  · have : inWindow u.derived (.width (u.derived.ref.get .bit1)) .bit1 = true :=
      (inWindow_iff _ _ _).2 (matches_self _ _)
    simp [State.decStep, hl, this, inWindow_false _ _ _ h1]

/-- The bits of a byte, most significant first, as symbols (R68, R142). -/
def bitSymbols (b : Byte) : List Symbol :=
  [7, 6, 5, 4, 3, 2, 1, 0].map fun j => if b.getLsbD j then .bit1 else .bit0

/-- A bit that does not complete a byte (R205). -/
theorem appendBit_lt (u : State) (x : Bool) (n : Nat) (h : u.dec.nbits = BitVec.ofNat 4 n) (hn : n < 7) :
    u.appendBit x =
      { u with dec := { u.dec with shift := shiftIn u.dec.shift x, nbits := BitVec.ofNat 4 (n + 1) } } := by
  unfold State.appendBit
  rw [h, show BitVec.ofNat 4 n + 1#4 = BitVec.ofNat 4 (n + 1) by apply BitVec.eq_of_toNat_eq; simp, if_neg]
  intro hh
  have := congrArg BitVec.toNat hh
  simp at this
  omega

/-- The eight bit pulses of a byte, in LOADING with no bit held: the byte is assembled and stored or refused by
the capacity (R205, R71). -/
theorem foldl_byte (u : State) (b : Byte) (hl : u.status.dstate = .loading) (hn : u.dec.nbits = 0#4)
    (hs : u.dec.shift = 0#8) (h1 : ¬Matches u.derived (u.derived.ref.get .bit1) .bit0) :
    ((bitSymbols b).map fun y => Pulse.width (u.derived.ref.get y)).foldl State.decStep u =
      if u.dec.count.toNat < u.dec.cap.toNat then
        { u with dst := u.dst.write u.dec.count.toNat b, dec := { u.dec with count := u.dec.count + 1#32 } }
      else
        { u with
          dec := { u.dec with shift := b }
          status := { u.status with dstate := .done, dcause := .overrun } } := by
  have bit : ∀ (n : Nat) (sh : Byte) (x : Bool), n < 7 →
      ({ u with dec := { u.dec with shift := sh, nbits := BitVec.ofNat 4 n } } : State).decStep
          (.width (u.derived.ref.get (if x then .bit1 else .bit0))) =
        { u with dec := { u.dec with shift := shiftIn sh x, nbits := BitVec.ofNat 4 (n + 1) } } := by
    intro n sh x hn
    have := decStep_bit { u with dec := { u.dec with shift := sh, nbits := BitVec.ofNat 4 n } } hl h1 x
    rw [appendBit_lt _ x n rfl hn] at this
    exact this
  have start : u = { u with dec := { u.dec with shift := 0#8, nbits := BitVec.ofNat 4 0 } } := by
    rw [show BitVec.ofNat 4 0 = u.dec.nbits from hn.symm, ← hs]
  have byte : ∀ b : Byte, shiftIn (shiftIn (shiftIn (shiftIn (shiftIn (shiftIn (shiftIn (shiftIn 0#8 (b.getLsbD 7))
      (b.getLsbD 6)) (b.getLsbD 5)) (b.getLsbD 4)) (b.getLsbD 3)) (b.getLsbD 2)) (b.getLsbD 1)) (b.getLsbD 0) = b := by
    decide +kernel
  simp only [bitSymbols, List.map_cons, List.map_nil, List.foldl_cons, List.foldl_nil]
  conv_lhs => rw [start]
  dsimp only
  rw [bit 0 _ _ (by omega), bit 1 _ _ (by omega), bit 2 _ _ (by omega), bit 3 _ _ (by omega), bit 4 _ _ (by omega),
    bit 5 _ _ (by omega), bit 6 _ _ (by omega)]
  have last := decStep_bit { u with dec := { u.dec with
      shift := shiftIn (shiftIn (shiftIn (shiftIn (shiftIn (shiftIn (shiftIn 0#8 (b.getLsbD 7)) (b.getLsbD 6))
        (b.getLsbD 5)) (b.getLsbD 4)) (b.getLsbD 3)) (b.getLsbD 2)) (b.getLsbD 1)
      nbits := BitVec.ofNat 4 (6 + 1) } } hl h1 (b.getLsbD 0)
  refine last.trans ?_
  unfold State.appendBit State.storeByte
  rw [if_pos (by dsimp only; decide)]
  dsimp only
  rw [byte]
  split_ifs
  · rw [hs, hn]
  · simp only [State.finish, State.setDState, State.setDCause, hn]

end Sys2Proof.Laws
end

