-- ==== Sys2Proof/Tests/Slice0.lean ====
section
/-! SUPPORT. Small tests, one step each, on states a helper builds from the spec's example parameter set EX1
(spec/00_scope.md R13). Expected values are from spec/95_test_vectors.md and the examples of the rules; the
vector's name stands with each test. -/

namespace Sys2Proof.Tests

set_option Elab.async false

open Sys2Proof Sys2Proof.Machine Sys2Proof.Safety

/-! ## Helpers -/

/-- EX1 (R13). -/
def ex1 : Params where
  clk := 3528000
  hiC := ⟨2400, 480, 1120, 1920, 2880⟩
  loC := ⟨2400, 960, 1120, 1920, 2880⟩
  pilotHdrN := 8
  pilotDataN := 4
  leadMs := 10
  trailMs := 10
  wPulse := none
  wCount := 64

/-- The EX1 configuration with a format word and a sample rate. -/
def cfgOf (fmt rate : Word) : CfgRegs := ⟨some rate, some fmt, some 90#32, some 0#32, some 10#32, some 2#32⟩

/-- Power-on with EX1 and a configuration written, before `OPEN`. -/
def configured (c : CfgRegs) : State := { State.reset with params := ex1, cfg := c }

/-- An open ENCODE session, mono, 16-bit, whose sink accepts everything. -/
def enc : State := { (configured (cfgOf 0x4110#32 44100#32)) with offeredSink := .accepts }.opened

/-- An open DECODE session, mono, 16-bit, on the given input bytes and then the end of the stream. -/
def dec (bytes : List Byte) : State :=
  { (configured (cfgOf 0x0110#32 44100#32)) with offeredIn := ⟨bytes, .eos⟩ }.opened

/-- The same state with operands in the argument registers. -/
def withArgs (s : State) (a b c : Word) : State := { s with io := { s.io with arg0 := a, arg1 := b, arg2 := c } }

/-- A property of the next state. -/
def next? (o : Host.Outcome State Fault Refusal) (f : State → Bool) : Bool :=
  match o with
  | .next s => f s
  | .fault _ => false
  | .refused _ => false

/-- The command ran with this result and no refusal. -/
def gives (o : Host.Outcome State Fault Refusal) (r : Nat) : Bool :=
  next? o fun s => decide (s.io.res.toNat = r) && s.refusal.isNone

/-- The command was refused for this reason. -/
def refusedAs (o : Host.Outcome State Fault Refusal) (r : Refusal) : Bool :=
  next? o fun s => decide (s.refusal = some r)

/-- A frame of value `LVL_HI`, `LVL_LO` and 0 at 16 bits (95, notation). -/
def fH : List Byte := [0x32#8, 0x73#8]
def fL : List Byte := [0xCF#8, 0x8C#8]
def fD : List Byte := [0x00#8, 0x00#8]

/-! ## Decoding: each word from R92 -/

theorem test_decode_session_words :
    decode 0b00000001#8 = .ok .openSession ∧ decode 0b00000010#8 = .ok .closeSession ∧
    decode 0b00000011#8 = .ok .tmScale ∧ decode 0b00000100#8 = .ok .tmUnscale ∧
    decode 0b00000101#8 = .ok .tmTol := by decide

theorem test_decode_encoder_words :
    decode 0b00010000#8 = .ok .encLevels ∧ decode 0b00010001#8 = .ok .encFrame ∧
    decode 0b00010010#8 = .ok .encSilence ∧ decode 0b00010011#8 = .ok .encCycle ∧
    decode 0b00010100#8 = .ok .encPilot ∧ decode 0b00010101#8 = .ok .encByte ∧
    decode 0b00010110#8 = .ok .encBlock ∧ decode 0b00010111#8 = .ok .encCount := by decide

theorem test_decode_classifier_words :
    decode 0b00100000#8 = .ok .clsSample ∧ decode 0b00100001#8 = .ok .fltClear ∧
    decode 0b00100010#8 = .ok .clsPulse := by decide

theorem test_decode_decoder_words :
    decode 0b00110000#8 = .ok .decReset ∧ decode 0b00110001#8 = .ok .decStep ∧
    decode 0b00110010#8 = .ok .decClassify ∧ decode 0b00110011#8 = .ok .decBlock := by decide

/-- V-ERR-13: reserved values. -/
theorem test_decode_reserved :
    decode 0x00#8 = .error (.reserved 0x00#8) ∧ decode 0x06#8 = .error (.reserved 0x06#8) ∧
    decode 0x18#8 = .error (.reserved 0x18#8) ∧ decode 0x23#8 = .error (.reserved 0x23#8) ∧
    decode 0x34#8 = .error (.reserved 0x34#8) ∧ decode 0xFF#8 = .error (.reserved 0xFF#8) := by decide

theorem test_decode_table_word :
    decodeTableWord 8 0x33 = some .decBlock ∧ decodeTableWord 8 0x34 = none := by decide

/-! ## Well-formed lines: an ill-formed line for each check (V-ENC-25 to 27, V-LVL-21, V-DEC-4) -/

theorem test_line_too_many_operands :
    CmdLine.wellFormed 0 ⟨.encCount, [0#32, 0#32, 0#32, 0#32]⟩ = false := by decide
theorem test_line_frame_selector : CmdLine.wellFormed 0 ⟨.encFrame, [3#32]⟩ = false := by decide
theorem test_line_cycle_symbol : CmdLine.wellFormed 0 ⟨.encCycle, [5#32]⟩ = false := by decide
theorem test_line_volume : CmdLine.wellFormed 0 ⟨.encLevels, [101#32]⟩ = false := by decide
theorem test_line_block_past_src : CmdLine.wellFormed 2 ⟨.encBlock, [1#32, 2#32, 4#32]⟩ = false := by decide
theorem test_line_step_image : CmdLine.wellFormed 0 ⟨.decStep, [0x80000001#32]⟩ = false := by decide
theorem test_line_classify_image : CmdLine.wellFormed 0 ⟨.decClassify, [0x80000001#32]⟩ = false := by decide
theorem test_line_good : CmdLine.wellFormed 2 ⟨.encBlock, [0#32, 2#32, 4#32]⟩ = true := by decide

/-! ## OPEN and CLOSE -/

/-- The table of 95 for EX1 at 44100 Hz: references, tolerance, levels, frame bytes, silences, order. -/
theorem test_open_derives_ex1 :
    enc.derived.ref = ⟨60, 18, 28, 48, 72⟩ ∧ enc.derived.hiS = ⟨30, 6, 14, 24, 36⟩ ∧
    enc.derived.loS = ⟨30, 12, 14, 24, 36⟩ ∧ enc.derived.tol = 3 ∧ enc.derived.frameBytes = 2 ∧
    enc.derived.leadFrames = 441 ∧ enc.derived.trailFrames = 441 ∧ enc.derived.fltOrder = 2 ∧
    enc.derived.lvlHi = 29490#32 ∧ enc.derived.lvlLo = 0xFFFF8CCF#32 := by decide +kernel

/-- V-TM-14: 22050 Hz, where a silence of 220.5 frames rounds up. -/
theorem test_open_derives_22050 :
    (derive ex1 (cfgOf 0x4110#32 22050#32)).ref = ⟨30, 9, 14, 24, 36⟩ ∧
    (derive ex1 (cfgOf 0x4110#32 22050#32)).tol = 2 ∧
    (derive ex1 (cfgOf 0x4110#32 22050#32)).leadFrames = 221 := by decide +kernel

/-- P1 line 7: STATUS after `OPEN` is SESSION = OPEN and nothing else, and `RES` is 0. -/
theorem test_open_succeeds :
    next? (exec .openSession (configured (cfgOf 0x4110#32 44100#32)))
      (fun s => decide (s.status.image = 1#32 ∧ s.io.res = 0#32)) = true := by decide +kernel

/-- V-ERR-4: BITS = 12 and CHANNELS = 3 give code 2, and the session stays CLOSED. -/
theorem test_open_first_failing_check :
    next? (exec .openSession (configured (cfgOf 0x430C#32 44100#32)))
      (fun s => decide (s.status.err = .cfgBits ∧ s.status.session = .closed)) = true := by decide +kernel

/-- V-ERR-18: `CFG_FORD` never written. -/
theorem test_open_unconfigured :
    refusedAs (exec .openSession (configured { cfgOf 0x4110#32 44100#32 with ford := none }))
      .openUnconfigured = true := by decide +kernel

/-- V-ERR-14 and V-ERR-15. -/
theorem test_session_preconditions :
    refusedAs (exec .openSession enc) .sessionPrecondition = true ∧
    refusedAs (exec .closeSession State.reset) .sessionPrecondition = true := by decide +kernel

/-- R120: `CLOSE` hands OUT back and returns the count. -/
theorem test_close :
    next? (exec .closeSession { enc with out := [1#8, 2#8], encCount := 2 })
      (fun s => decide (s.io.res = 2#32 ∧ s.status.session = .closed ∧ s.obs = [.outBack [1#8, 2#8]]))
      = true := by decide +kernel

/-! ## Timing (V-TM-1 to V-TM-7, V-TM-11) -/

theorem test_tm_scale :
    gives (exec .tmScale (withArgs enc 2400#32 0#32 0#32)) 30 = true ∧
    gives (exec .tmScale (withArgs enc 40#32 0#32 0#32)) 1 = true ∧
    gives (exec .tmScale (withArgs enc 39#32 0#32 0#32)) 0 = true := by decide +kernel

theorem test_tm_scale_too_wide :
    refusedAs (exec .tmScale (withArgs { enc with params := { ex1 with clk := 30000 } } 0xFFFFFFFF#32 0#32 0#32))
      .resultTooWide = true := by decide +kernel

theorem test_tm_unscale :
    gives (exec .tmUnscale (withArgs enc 30#32 0#32 0#32)) 2400 = true ∧
    gives (exec .tmUnscale (withArgs enc 53687091#32 0#32 0#32)) 4294967280 = true := by decide +kernel

theorem test_tm_tol :
    gives (exec .tmTol (withArgs enc 601#32 0#32 0#32)) 4 = true ∧
    gives (exec .tmTol (withArgs enc 79#32 0#32 0#32)) 0 = true := by decide +kernel

/-! ## Encoder -/

/-- V-LVL-3, V-LVL-6, V-LVL-14, V-LVL-20. -/
theorem test_levels :
    levels 8 50 = ⟨192, 65, 128⟩ ∧ levels 16 0 = ⟨0, 1, 0⟩ ∧ levels 24 90 = ⟨7549746, -7549745, 0⟩ ∧
    levels 32 100 = ⟨2147483647, -2147483646, 0⟩ := by decide +kernel

/-- V-LVL-9 and V-LVL-21. -/
theorem test_enc_levels :
    next? (exec .encLevels (withArgs enc 90#32 0#32 0#32))
      (fun s => decide (s.io.res = 29490#32 ∧ s.io.resHi = 0xFFFF8CCF#32)) = true ∧
    refusedAs (exec .encLevels (withArgs enc 101#32 0#32 0#32)) .volumeAbove100 = true := by decide +kernel

/-- V-LVL-22: 24-bit stereo. -/
theorem test_encode_frame_24_stereo :
    encodeFrame (cfgOf 0x4218#32 44100#32) (levelImage 7549746)
      = [0x32#8, 0x33#8, 0x73#8, 0x32#8, 0x33#8, 0x73#8] := by decide +kernel

/-- V-ENC-2 and V-ENC-25. -/
theorem test_enc_frame :
    next? (exec .encFrame (withArgs enc 1#32 0#32 0#32))
      (fun s => decide (s.io.res = 2#32 ∧ s.out = fH ∧ s.encCount = 2)) = true ∧
    refusedAs (exec .encFrame (withArgs enc 3#32 0#32 0#32)) .operandNotAdmitted = true := by decide +kernel

/-- V-ENC-5. -/
theorem test_enc_silence :
    next? (exec .encSilence (withArgs enc 3#32 0#32 0#32))
      (fun s => decide (s.io.res = 6#32 ∧ s.out = fD ++ fD ++ fD)) = true := by decide +kernel

/-- V-ENC-7: 12 LO frames, then 6 HI frames. -/
theorem test_enc_cycle :
    next? (exec .encCycle (withArgs enc 1#32 0#32 0#32))
      (fun s => decide (s.io.res = 36#32 ∧
        s.out = (List.replicate 12 fL).flatten ++ (List.replicate 6 fH).flatten)) = true ∧
    refusedAs (exec .encCycle (withArgs enc 5#32 0#32 0#32)) .operandNotAdmitted = true := by decide +kernel

/-- V-ENC-12. -/
theorem test_enc_pilot : gives (exec .encPilot (withArgs enc 4#32 0#32 0#32)) 480 = true := by decide +kernel

/-- V-ENC-17: BIT1 first, so the 25th to 48th frames are HI. -/
theorem test_enc_byte :
    next? (exec .encByte (withArgs enc 0x80#32 0#32 0#32))
      (fun s => decide (s.io.res = 488#32 ∧ s.out.take 52 = (List.replicate 24 fL).flatten ++ fH ++ fH))
      = true := by decide +kernel

/-- V-ENC-19 and V-ENC-27. -/
theorem test_enc_block :
    gives (exec .encBlock (withArgs { enc with src := [0x41#8, 0x42#8] } 0#32 2#32 4#32)) 1716 = true ∧
    refusedAs (exec .encBlock (withArgs { enc with src := [0x41#8, 0x42#8] } 1#32 2#32 4#32)) .srcOutOfRange
      = true := by decide +kernel

/-- V-ENC-29, at the third frame: a failing write leaves its first byte, counted; `RES` is not written. -/
theorem test_write_failure :
    next? (exec .encSilence (withArgs { enc with sink := .failsAfter 2 1 } 9#32 0#32 0#32))
      (fun s => decide (s.encCount = 5 ∧ s.out.length = 5 ∧ s.status.image = 0x902#32 ∧ s.io.res = 0#32))
      = true := by decide +kernel

/-- R143, and V-ENC-28: an encoder command in a DECODE session. -/
theorem test_enc_count :
    next? (exec .encCount { enc with encCount := 2 ^ 32 + 5 })
      (fun s => decide (s.io.res = 5#32 ∧ s.io.resHi = 1#32)) = true ∧
    refusedAs (exec .encCount (dec [])) .modePrecondition = true := by decide +kernel

/-! ## Classifier and filter -/

/-- V-CLS-24 at its first and last reads: HIGH; a partial frame is the end of the stream. -/
theorem test_cls_sample :
    next? (exec .clsSample (dec (fH ++ [1#8]))) (fun s => decide (s.io.res = 1#32 ∧ s.inPos = 1)) = true ∧
    next? (exec .clsSample (dec [1#8])) (fun s => decide (s.io.res = 3#32 ∧ s.inPos = 0)) = true := by
  decide +kernel

/-- V-CLS-26: a failing read. -/
theorem test_read_failure :
    next? (exec .clsSample { dec [] with inp := ⟨[], .fails⟩ })
      (fun s => decide (s.status.err = .streamRead ∧ s.status.session = .aborted ∧ s.io.res = 0#32)) = true := by
  decide +kernel

/-- V-CLS-22: 16384 left, -32768 right; mix, left, right. -/
theorem test_channel_selection :
    ([0, 1, 2].map fun k =>
      selectChannel k (leftValue (cfgOf 0x0210#32 44100#32) [0x00#8, 0x40#8, 0x00#8, 0x80#8])
        (rightValue (cfgOf 0x0210#32 44100#32) [0x00#8, 0x40#8, 0x00#8, 0x80#8]))
      = [-1 / 4, 1 / 2, -1] := by decide +kernel

/-- V-CLS-19: the band [-1/4, -3/20], edges DEAD; and V-CLS-18: inversion. -/
theorem test_region :
    ([-4915, -4916, -8192, -8193].map fun v =>
      region { cfgOf 0x0110#32 44100#32 with det := some 0xEC#32, hys := some 5#32 } (normalized 16 v))
      = [.high, .dead, .dead, .low] ∧
    region (cfgOf 0x1110#32 44100#32) (normalized 16 29490) = .low := by decide +kernel

/-- V-FLT-1, first output: a quarter of the input. -/
theorem test_filter_step : (FilterState.cleared.step 4 (1 / 2)).1 = 1 / 8 := by decide +kernel

/-- V-FLT-2: `FLT.CLEAR` clears what a filtered sample left. -/
theorem test_flt_clear :
    next? (exec .fltClear { dec [] with filter := (FilterState.cleared.step 4 (1 / 2)).2 })
      (fun s => decide (s.filter = FilterState.cleared ∧ s.io.res = 0#32)) = true := by decide +kernel

/-- V-PUL-1: 7 samples; V-PUL-3: the end of the stream in SEEK_LOW keeps the count. -/
theorem test_cls_pulse :
    next? (exec .clsPulse (dec (fD ++ fL ++ fL ++ fH ++ fD ++ fH ++ fL)))
      (fun s => decide (s.io.res = 7#32 ∧ s.inPos = 7 ∧ s.edge.ph = .idle)) = true ∧
    next? (exec .clsPulse (dec (fL ++ fH)))
      (fun s => decide (s.io.res = 0x80000000#32 ∧ s.edge.pcnt = 2 ∧ s.edge.pulse = .eos)) = true := by
  decide +kernel

/-- R61, R262: an unanswered read leaves the command in progress. -/
theorem test_cls_pulse_waits :
    next? (exec .clsPulse { dec [] with inp := ⟨fH, .oracle⟩ })
      (fun s => decide (s.running = some .pulse ∧ s.edge.ph = .seekLow ∧ s.edge.pcnt = 1)) = true := by
  decide +kernel

/-! ## Decoder -/

/-- R206. -/
theorem test_dec_reset :
    next? (exec .decReset (withArgs (dec []) 27#32 0#32 0#32))
      (fun s => decide (s.dec = ⟨0#8, 0#4, 0#32, 27#32⟩ ∧ s.status.dstate = .searching)) = true := by
  decide +kernel

/-- V-DEC-7 at its third step (neither window returns to SEARCHING), and V-DEC-4. -/
theorem test_dec_step :
    gives (exec .decStep (withArgs ((dec []).setDState .piloting) 40#32 0#32 0#32)) 0 = true ∧
    refusedAs (exec .decStep (withArgs (dec []) 0x80000001#32 0#32 0#32)) .operandNotAdmitted = true := by
  decide +kernel

/-- V-DEC-9 at the eighth bit: the byte 0x81 is stored. -/
theorem test_dec_step_completes_byte :
    next? (exec .decStep
        (withArgs { (dec []).setDState .loading with dec := ⟨0x40#8, 7#4, 0#32, 4#32⟩ } 48#32 0#32 0#32))
      (fun s => decide (s.dst = [(0, 0x81#8)] ∧ s.dec.count = 1#32 ∧ s.dec.nbits = 0#4)) = true := by
  decide +kernel

/-- V-DEC-1 and V-DEC-2 at the window edges. -/
theorem test_dec_classify :
    gives (exec .decClassify (withArgs (dec []) 63#32 0#32 0#32)) 1 = true ∧
    gives (exec .decClassify (withArgs (dec []) 64#32 0#32 0#32)) 0 = true ∧
    gives (exec .decClassify (withArgs ((dec []).setDState .loading) 45#32 0#32 0#32)) 4 = true := by
  decide +kernel

/-- V-DEC-15 with two frames: silence only ends with EOS and 0 bytes. -/
theorem test_dec_block_silence :
    next? (exec .decBlock (withArgs (dec (fD ++ fD)) 4#32 0#32 0#32))
      (fun s => decide (s.io.res = 0#32 ∧ s.status.dcause = .eos ∧ s.status.dstate = .done ∧ s.inPos = 2))
      = true := by decide +kernel

/-- R255: a failing read inside `DEC.BLOCK`; STATUS as in V-DEC-16. -/
theorem test_dec_block_io_failure :
    next? (exec .decBlock (withArgs { dec [] with inp := ⟨fD, .fails⟩ } 4#32 0#32 0#32))
      (fun s => decide (s.status.image = 0x84E#32 ∧ s.edge.pcnt = 1)) = true := by decide +kernel

/-! ## The host -/

/-- V-ERR-16, V-ERR-17, V-ERR-19. -/
theorem test_host_accesses :
    refusedAs (enc.hostWrite 0x02#8 50#32) (.configWriteInSession 0x02#8) = true ∧
    refusedAs (enc.hostWrite 0x58#8 5#32) (.readOnlyRegisterWrite 0x58#8) = true ∧
    refusedAs (enc.hostWrite 0x06#8 5#32) (.reservedRegisterWrite 0x06#8) = true ∧
    (match step { State.reset with queue := [.read 0x02#8] } with
      | .fault f => decide (f = .unwrittenConfigRead 0x02#8)
      | _ => false) = true := by decide +kernel

/-- P1 line 8: `LEAD_FRAMES` reads 441. -/
theorem test_host_read :
    next? (step { enc with queue := [rd .leadFrames] })
      (fun s => decide (s.obs = [.regRead 0x5D#8 441#32])) = true := by decide +kernel

/-- P1 line 10: the encoding of `ENC.BLOCK 0, 2, 4` is the writes of 95. -/
theorem test_line_encoding :
    line .encBlock [0#32, 2#32, 4#32]
      = [.write 0x71#8 0#32, .write 0x72#8 2#32, .write 0x73#8 4#32, .write 0x70#8 0x16#32] := by decide

/-- The word placed for the next step is the command it runs. -/
theorem test_fetch :
    next? (step (enc.withFetchWord 8 0x17)) (fun s => decide (s.io.cmd = 0x17#8 ∧ s.io.res = 0#32)) = true := by
  decide +kernel

/-- A reserved word is refused by name. -/
theorem test_fetch_reserved :
    refusedAs (step (State.reset.withFetchWord 8 0x34)) (.reservedCommand 0x34#8) = true := by decide +kernel

/-- R232: the header attempt of a record that yields 0 bytes is STOP; R295: the `STATUS` (SESSION = OPEN, else 0) and
`RES` values it rests on are observed. -/
theorem test_record_stop :
    next? (step { dec [] with seq := some ⟨false, [], .headerDone⟩ })
      (fun s => decide (s.obs = [.regRead 0x60#8 1#32, .regRead 0x75#8 0#32, .recRecord .stop] ∧ s.seq = none)) = true := by decide +kernel

/-- R234: an aborted attempt (STATUS.ERR = 8, SESSION = ABORTED) is IOFAIL, with the records collected. -/
theorem test_record_io_failure :
    next? (step { (dec []).abort .streamRead with seq := some ⟨true, [⟨[], [], 1⟩], .dataDone [] 3⟩ })
      (fun s => decide (s.obs = [.regRead 0x60#8 0x802#32, .recAll false [⟨[], [], 1⟩]] ∧ s.seq = none)) = true := by decide +kernel

/-- R71, R257: the host reads its own buffer whatever DEC_CAP is. -/
theorem test_buf_read :
    next? (step { dec [] with queue := [.bufRead 9], dst := Memory.write [] 9 0x41#8 })
      (fun s => decide (s.obs = [.dstRead 9 0x41#8])) = true := by decide +kernel

/-- R295: the run whose last access is CLOSE ends with the OUT it got back. -/
theorem test_run_ends :
    State.observeRun 1 (State.withFetchWord { enc with out := fH } 8 0x02) = some ⟨[.outBack fH], none, none⟩ := by
  decide +kernel

/-- R293: ENC.CYCLE BIT0 of EX1 (14 + 14 frames) starts with no frame written, and each step writes one. -/
theorem test_one_write_a_step :
    let m : FineState := ⟨(withArgs enc 2#32 0#32 0#32).withFetchWord 8 0x13, none⟩
    let seen (n : Nat) : Option (Nat × Bool) := match fineSteps n m with
      | .next m => some (m.state.encCount, m.emitting.isSome)
      | _ => none
    seen 1 = some (0, true) ∧ seen 2 = some (2, true) ∧ seen 29 = some (56, false) := by decide +kernel

/-- R230, R232: LENGTH 3 in the header (V-RT record) means a data attempt of 5 bytes. -/
theorem test_data_size : dataSize ((List.replicate 12 0x10#8) ++ [0x03#8, 0x00#8]) = 5 := by decide

/-! ## Witnesses: concrete states and operands that meet the hypotheses of each statement, together; a clause
with a range has its boundary values -/

/-- A step or a command that answers, with its next state. -/
theorem next_of_next? {o : Host.Outcome State Fault Refusal} {f : State → Bool} (h : next? o f = true) :
    ∃ t, o = .next t ∧ f t = true := by
  cases o with
  | next t => exact ⟨t, rfl, h⟩
  | fault _ => cases h
  | refused _ => cases h

/-- The aborted session after a failing write or read. -/
def aborted (s : State) (e : ErrCode) : State := (s.setErr e).setSession .aborted

/-- The state with host accesses to make. -/
def asks (s : State) (q : List HostAction) : State := { s with queue := q }

/-- The session with a `PCNT` of `w` bits. -/
def withNarrowPcnt (s : State) (w : Nat) : State := { s with params := { s.params with wPulse := some w } }

/-- The stream of one block of two pilot cycles with silence around it, at the EX1 levels. -/
def blockBytes (block : List Byte) : List Byte :=
  ([encodeFrame (dec []).cfg (dec []).derived.lvlMid] ++ (List.replicate 2 (symbolCycle (dec []) .pilot)).flatten ++
    symbolCycle (dec []) .sync ++ block.flatMap (byteCycles (dec [])) ++ symbolCycle (dec []) .endMark ++
    [encodeFrame (dec []).cfg (dec []).derived.lvlMid]).flatten

theorem witness_DecodeEncodePrograms :
    ∀ i ∈ [Instr.openSession, .encCount, .clsPulse, .decBlock], i.wellFormed = true := by decide

theorem witness_StepRunsDecodedCommand :
    let s := asks enc [.write 0x70#8 0x17#32]
    s.running = none ∧ s.seq = none ∧ s.queue = .write 0x70#8 0x17#32 :: [] ∧
      decode (BitVec.ofNat 8 (0x17#32).toNat) = .ok .encCount := by decide +kernel

theorem witness_ReservedCommandRefused :
    State.reset.running = none ∧ State.reset.seq = none ∧
      ∀ v ∈ [0x00, 0x06, 0x0F, 0x18, 0x1F, 0x23, 0x2F, 0x34, 0xFF],
        (asks State.reset [.write 0x70#8 (.ofNat 32 v)]).queue = .write 0x70#8 (.ofNat 32 v) :: [] ∧
        (let w := (BitVec.ofNat 32 v).toNat % 256
         w = 0x00 ∨ (0x06 ≤ w ∧ w ≤ 0x0F) ∨ (0x18 ≤ w ∧ w ≤ 0x1F) ∨ (0x23 ≤ w ∧ w ≤ 0x2F) ∨ 0x34 ≤ w) := by
  decide +kernel

theorem witness_PreconditionsRefuse :
    enc.status.session ≠ .closed ∧ (aborted enc .streamWrite).status.session ≠ .opened ∧
      State.reset.status.session = .closed ∧ State.reset.status.session ≠ .opened ∧
      ((dec []).status.session = .opened ∧ (dec []).cfg.mode = .decode) ∧
      (enc.status.session = .opened ∧ enc.cfg.mode = .encode) := by decide +kernel

/-- The operand clauses; then a counter one byte or one sample below its width: `ENC_COUNT` of 64 bits, for an accepted
and for a failing write, and `PCNT` of 1 bit, in the first pulse and after one. -/
theorem witness_OperandsAndOverflowsRefused :
    (enc.status.session = .opened ∧ enc.cfg.mode = .encode ∧ (dec []).status.session = .opened ∧
      (dec []).cfg.mode = .decode ∧
      (withArgs enc 3#32 0#32 0#32).io.arg0.toNat % 4 = 3 ∧
      (∀ a ∈ [5, 7], 4 < (withArgs enc (.ofNat 32 a) 0#32 0#32).io.arg0.toNat % 8) ∧
      (let s := withArgs { enc with src := [0x41#8, 0x42#8] } 1#32 2#32 0#32
       s.status.session = .opened ∧ s.src.length < s.io.arg0.toNat + s.io.arg1.toNat) ∧
      ∀ a ∈ [0x80000001, 0xFFFFFFFF],
        (withArgs (dec []) (.ofNat 32 a) 0#32 0#32).io.arg0.getLsbD 31 = true ∧
        (withArgs (dec []) (.ofNat 32 a) 0#32 0#32).io.arg0.toNat % 2 ^ 31 ≠ 0) ∧
    (let s := withArgs { enc with encCount := 2 ^ 64 - 3 } 2#32 0#32 0#32
     Ready .encode s ∧ emissionFrames .encSilence s = some [fD, fD] ∧ CountFits s [fD] ∧ [fD, fD][1]? = some fD ∧
       sinkAfter 2 s.sink ≠ none ∧ ¬CountFits s ([fD, fD].take 2)) ∧
    (let s := withArgs { enc with encCount := 2 ^ 64 - 3, sink := .failsAfter 1 1 } 2#32 0#32 0#32
     Ready .encode s ∧ emissionFrames .encSilence s = some [fD, fD] ∧ s.sink = .failsAfter 1 1 ∧
       [fD, fD][1]? = some fD ∧ ¬CountFits s ([fD, fD].take 1 ++ [fD.take 1])) ∧
    (let s := withNarrowPcnt (dec (fD ++ fD)) 1
     (Ready .decode s ∧ 0 < s.derived.frameBytes ∧ NextFrames s ([fD] ++ [fD]) [] ∧
       (scanRegions s [fD]).1 = ([] : List (List Region)).flatten ++ [.dead] ∧ PcntFits s 1 ∧ ¬PcntFits s 2 ∧
       (afterPulses s []).status.dstate ≠ .done) ∧ ScansTo .seekHigh [.dead]) ∧
    (let s := withNarrowPcnt (dec (fH ++ fL ++ fH ++ fH ++ fH ++ fH)) 2
     (Ready .decode s ∧ 0 < s.derived.frameBytes ∧ NextFrames s ([fH, fL, fH, fH, fH] ++ [fH]) [] ∧
       (scanRegions s [fH, fL, fH, fH, fH]).1 = [[.high, .low]].flatten ++ [.high, .high, .high] ∧ PcntFits s 2 ∧
       PcntFits s 3 ∧ ¬PcntFits s 4 ∧ (afterPulses s [[.high, .low]]).status.dstate ≠ .done) ∧
       OnePulse [.high, .low] ∧ ScansTo .seekLow [.high, .high, .high]) :=
  ⟨by decide +kernel, by decide +kernel, by decide +kernel, ⟨by decide +kernel, .inl ⟨rfl, by decide⟩⟩,
    by decide +kernel, ⟨[], [], rfl, by decide, by decide⟩,
    .inr ⟨rfl, [], [.high, .high], rfl, by decide, by decide⟩⟩

theorem witness_RefusalMarkIsKept :
    let s := asks (enc.refuse .operandNotAdmitted) [.write 0x70#8 0x34#32]
    s.refusal = some .operandNotAdmitted ∧ ∃ t, step s = .next t := by
  exact ⟨rfl, (next_of_next? (f := fun _ => true) (by decide +kernel)).imp fun _ h => h.1⟩

/-- Each check of R118 at a value next to its bound: first the legal side, then the failing one. -/
theorem witness_OpenReportsFirstFailingCheck :
    (State.reset.status.session = .closed ∧ State.reset.cfg.rate = none) ∧
    (∀ c ∈ [cfgOf 0x0108#32 1#32, cfgOf 0x0A20#32 1#32,
        { cfgOf 0x4110#32 1#32 with vol := some 100#32, det := some 100#32, hys := some 100#32 },
        { cfgOf 0x4110#32 1#32 with det := some 0x9C#32 }], c.allWritten = true ∧ c.configError = none) ∧
    ([cfgOf 0x4110#32 0#32, cfgOf 0x4110#32 0x80000000#32, cfgOf 0x410C#32 1#32, cfgOf 0x4010#32 1#32,
        cfgOf 0x4310#32 1#32, cfgOf 0x4D10#32 1#32, { cfgOf 0x4110#32 1#32 with vol := some 101#32 },
        { cfgOf 0x4110#32 1#32 with det := some 101#32 }, { cfgOf 0x4110#32 1#32 with det := some 0x9B#32 },
        { cfgOf 0x4110#32 1#32 with hys := some 101#32 }].map CfgRegs.configError =
      [some .cfgRate, some .cfgRate, some .cfgBits, some .cfgChannels, some .cfgChannels, some .cfgChsel,
        some .cfgVolume, some .cfgDetect, some .cfgDetect, some .cfgHyst]) := by decide +kernel

theorem witness_OpenEstablishesSession :
    ∀ f ∈ [0x4110, 0x0110], let s := configured (cfgOf (.ofNat 32 f) 44100#32)
      s.status.session = .closed ∧ s.cfg.allWritten = true ∧ s.cfg.configError = none ∧ 0 < s.params.clk := by
  decide +kernel

theorem witness_CloseCompletes :
    (enc.status.session = .opened ∧ enc.cfg.mode = .encode ∧ enc.queue = [] ∧ enc.seq = none) ∧
      ((aborted (dec []) .streamRead).status.session = .aborted ∧
        (aborted (dec []) .streamRead).cfg.mode = .decode) ∧
      enc.hasEnded = false ∧ State.reset.hasEnded = true := by decide +kernel

theorem witness_AbortedLeftOnlyByClose :
    (SessionInv (aborted enc .streamWrite) ∧ (aborted enc .streamWrite).status.session = .aborted) ∧
      ∃ t, step ((aborted enc .streamWrite).withFetchWord 8 0x02) = .next t ∧ t.status.session = .closed := by
  refine ⟨by decide +kernel, ?_⟩
  obtain ⟨t, h, ht⟩ := next_of_next? (o := step ((aborted enc .streamWrite).withFetchWord 8 0x02))
    (f := fun t => decide (t.status.session = .closed)) (by decide +kernel)
  exact ⟨t, h, by simpa using ht⟩

/-- A result below 2^32, one at a rounding tie, and one too wide. -/
theorem witness_TmScaleRounds :
    enc.status.session = .opened ∧ 0 < enc.params.clk ∧ 0 < enc.cfg.rateHz ∧
      HalfUp ((2400#32).toNat * enc.cfg.rateHz.toNat) enc.params.clk 30 ∧
      HalfUp ((40#32).toNat * enc.cfg.rateHz.toNat) enc.params.clk 1 ∧
      HalfUp ((0xFFFFFFFF#32).toNat * enc.cfg.rateHz.toNat) 30000 6313601924 := by decide +kernel

theorem witness_TmUnscaleRounds :
    enc.status.session = .opened ∧ 0 < enc.params.clk ∧ 0 < enc.cfg.rateHz ∧
      HalfUp ((30#32).toNat * enc.params.clk) enc.cfg.rateHz.toNat 2400 ∧
      HalfUp ((53687092#32).toNat * enc.params.clk) enc.cfg.rateHz.toNat 4294967360 := by decide +kernel

theorem witness_TmTolRoundsExactHalf :
    enc.status.session = .opened ∧ 0 < enc.params.clk ∧ 0 < enc.cfg.rateHz ∧
      HalfUp ((601#32).toNat * enc.cfg.rateHz.toNat) (2 * enc.params.clk) 4 ∧
      HalfUp ((0xFFFFFFFF#32).toNat * enc.cfg.rateHz.toNat) (2 * 15000) 6313601924 := by decide +kernel

theorem witness_TimingStability : 0 < 44100 ∧ 44100 ≤ 3528000 ∧ 44100 ≤ 44100 := by decide

theorem witness_LevelsFollowFormulas : 0 ≤ 100 ∧ 100 ≤ 100 ∧ 32 ∈ [16, 24, 32] := by decide

theorem witness_EncLevelsCompletes :
    enc.status.session = .opened ∧ (withArgs enc 100#32 0#32 0#32).io.arg0.toNat ≤ 100 ∧
      100 < (withArgs enc 101#32 0#32 0#32).io.arg0.toNat := by decide +kernel

theorem witness_EncodedFrameBytes :
    (cfgOf 0x4218#32 44100#32).configError = none ∧ 1 < (cfgOf 0x4218#32 44100#32).channels ∧
      2 < (cfgOf 0x4218#32 44100#32).bits / 8 := by decide +kernel

theorem witness_PcmRoundTrip :
    ((0 : Int) ≤ 0 ∧ (0 : Int) ≤ 255) ∧ (0 : Int) ≤ 255 ∧
      ∀ bits ∈ [16, 24, 32], -(2 ^ (bits - 1)) ≤ -(2 ^ (bits - 1) : Int) ∧ (2 ^ (bits - 1) : Int) - 1 < 2 ^ (bits - 1) := by
  decide

/-- Samples at the ends of the range, at 8 and at 16 bits; the channels of mono and stereo input. -/
theorem witness_NormalizedSamples :
    ([0x00#8, 0x80#8] : List Byte).length = 16 / 8 ∧ [0xFF#8].length = 8 / 8 ∧
    (let u (b : List Byte) : Nat := b.foldr (fun x n => x.toNat + 256 * n) 0
     u [0xFF#8, 0x7F#8] < 2 ^ 15 ∧ 2 ^ 15 ≤ u [0x00#8, 0x80#8]) ∧
    ((cfgOf 0x4110#32 44100#32).channels = 1 ∧ (cfgOf 0x4210#32 44100#32).channels = 2 ∧
      fH.length = (cfgOf 0x4210#32 44100#32).bits / 8) ∧
    (∀ w ∈ [0x0210, 0x0610, 0x0A10, 0x2210, 0x2610, 0x2A10],
      let s := { configured (cfgOf (.ofNat 32 w) 44100#32) with offeredIn := ⟨fH ++ fL, .eos⟩ }.opened
      s.cfg.fmt = some (.ofNat 32 w) ∧ ((BitVec.ofNat 32 w).extractLsb' 10 2).toNat ≠ 3 ∧ 2 ≤ s.derived.fltOrder ∧
        s.derived.fltOrder ≤ 55) ∧
    (0x0210#32).getLsbD 13 = false ∧ (0x2210#32).getLsbD 13 = true := by decide +kernel

/-- The hypotheses of the emission statements, for a sink that accepts and for one with just enough writes. -/
theorem witness_EncFrameCompletes :
    ∀ a ∈ [0, 1, 2], let s := withArgs { enc with sink := .failsAfter 1 0 } (.ofNat 32 a) 0#32 0#32
      Ready .encode s ∧ s.io.arg0.toNat % 4 ≠ 3 ∧ sinkAfter 1 s.sink = some (.failsAfter 0 0) ∧
        CountFits s [encodeFrame s.cfg s.derived.lvlHi] := by decide +kernel

theorem witness_EncSilenceCompletes :
    ∀ n ∈ [0, 3], let s := withArgs enc (.ofNat 32 n) 0#32 0#32
      Ready .encode s ∧ SessionConstants s ∧ sinkAfter s.io.arg0.toNat s.sink = some .accepts ∧
        CountFits s (List.replicate s.io.arg0.toNat (encodeFrame s.cfg s.derived.lvlMid)) := by decide +kernel

theorem witness_EncCycleCompletes :
    ∀ y ∈ [Symbol.pilot, .sync, .bit0, .bit1, .endMark],
      let s := withArgs enc (BitVec.ofNat 32 (symbolIndex y)) 0#32 0#32
      Ready .encode s ∧ SessionConstants s ∧ s.io.arg0.toNat % 8 = symbolIndex y ∧
        sinkAfter (symbolCycle s y).length s.sink = some .accepts ∧ CountFits s (symbolCycle s y) := by
  decide +kernel

theorem witness_EncPilotCompletes :
    let s := withArgs enc 4#32 0#32 0#32
    let fs := (List.replicate s.io.arg0.toNat (symbolCycle s .pilot)).flatten
    Ready .encode s ∧ SessionConstants s ∧ sinkAfter fs.length s.sink = some .accepts ∧ CountFits s fs := by
  decide +kernel

theorem witness_EncByteCompletes :
    let s := withArgs enc 0x81#32 0#32 0#32
    let fs := byteCycles s (s.io.arg0.extractLsb' 0 8)
    Ready .encode s ∧ SessionConstants s ∧ sinkAfter fs.length s.sink = some .accepts ∧ CountFits s fs := by
  decide +kernel

theorem witness_EncBlockCompletes :
    let s := withArgs { enc with src := [0x41#8, 0x42#8] } 1#32 1#32 2#32
    let fs := (List.replicate s.io.arg2.toNat (symbolCycle s .pilot)).flatten ++ symbolCycle s .sync ++
      ((s.src.drop s.io.arg0.toNat).take s.io.arg1.toNat).flatMap (byteCycles s) ++ symbolCycle s .endMark
    Ready .encode s ∧ SessionConstants s ∧ s.io.arg0.toNat + s.io.arg1.toNat ≤ s.src.length ∧
      sinkAfter fs.length s.sink = some .accepts ∧ CountFits s fs := by decide +kernel

theorem witness_EmissionCountsBytes : enc.status.session ≠ .closed ∧ SessionConstants enc := by decide +kernel

/-- A failure at the third of nine frames after one byte, and at a command's first frame. -/
theorem witness_FailingWriteAborts :
    (let s := withArgs { enc with sink := .failsAfter 2 1 } 9#32 0#32 0#32
     let fs := List.replicate 9 fD
     Ready .encode s ∧ emissionFrames .encSilence s = some fs ∧ s.sink = .failsAfter 2 1 ∧ fs[2]? = some fD ∧
       CountFits s (fs.take 2 ++ [fD.take 1])) ∧
    (let s := withArgs { enc with sink := .failsAfter 0 0 } 1#32 0#32 0#32
     Ready .encode s ∧ emissionFrames .encFrame s = some [fH] ∧ s.sink = .failsAfter 0 0 ∧ [fH][0]? = some fH ∧
       CountFits s ([fH].take 0 ++ [fH.take 0])) := by decide +kernel

theorem witness_EncCountCompletes :
    enc.status.session = .opened ∧ (aborted enc .streamWrite).status.session = .aborted ∧
      enc.cfg.mode = .encode ∧ (aborted enc .streamWrite).cfg.mode = .encode := by decide +kernel

/-- The band [-1/10, 1/10]: its edges are in it, and values next to it are not. -/
theorem witness_RegionFollowsBand :
    let c := cfgOf 0x0110#32 44100#32
    let thr : Rat := (c.detect : Rat) / 100
    let hw : Rat := (c.hyst : Rat) / 100
    (1001 / 10000 : Rat) > thr + hw ∧ (-1001 / 10000 : Rat) < thr - hw ∧
      (thr - hw ≤ 1 / 10 ∧ (1 / 10 : Rat) ≤ thr + hw) ∧ (thr - hw ≤ -1 / 10 ∧ (-1 / 10 : Rat) ≤ thr + hw) := by
  decide +kernel

theorem witness_ClsSampleCompletes :
    (Ready .decode (dec (fH ++ fL)) ∧ NextFrames (dec (fH ++ fL)) [fH] fL) ∧
    (Ready .decode (dec [1#8]) ∧ (dec [1#8]).inp.bytes.length < (dec [1#8]).derived.frameBytes ∧
      (dec [1#8]).inp.tail = .eos) ∧
    (let s := { dec [] with inp := ⟨[1#8], .fails⟩ }
     Ready .decode s ∧ s.inp.bytes.length < s.derived.frameBytes ∧ s.inp.tail = .fails) := by decide +kernel

theorem witness_FilterSteadyState : (2 ≤ 2 ∧ 2 ≤ 55 ∧ 1 ≤ 1) ∧ 2 ≤ 55 ∧ 55 ≤ 55 ∧ 1 ≤ 56 := by decide

/-- A reading command in progress, and a step that ends without a refusal. -/
theorem witness_AccessesCompose :
    ({ dec fH with running := some .pulse } : State).running = some .pulse ∧
      ∃ t, step ((withArgs enc 1#32 0#32 0#32).withFetchWord 8 0x11) = .next t ∧ t.refusal = none := by
  refine ⟨rfl, ?_⟩
  obtain ⟨t, h, ht⟩ := next_of_next? (o := step ((withArgs enc 1#32 0#32 0#32).withFetchWord 8 0x11))
    (f := fun t => t.refusal.isNone) (by decide +kernel)
  exact ⟨t, h, by simpa using ht⟩

theorem witness_DecResetCompletes : Ready .decode (dec []) := by decide +kernel

theorem witness_ClsPulseMeasures :
    let s := dec (fD ++ fL ++ fL ++ fH ++ fD ++ fH ++ fL ++ fH)
    let fs := [fD, fL, fL, fH, fD, fH, fL]
    (Ready .decode s ∧ 0 < s.derived.frameBytes ∧ NextFrames s fs fH ∧ PcntFits s fs.length ∧ fs.length < 2 ^ 31) ∧
      OnePulse (scanRegions s fs).1 :=
  ⟨by decide +kernel, [.dead, .low, .low], [.dead, .high], by decide +kernel, by decide, by decide⟩

/-- Both phases of the scan, and the three ways the stream can go on. -/
theorem witness_ClsPulseStreamEnds :
    (∀ t ∈ [SourceTail.eos, .fails, .oracle],
      let s := { dec [] with inp := ⟨fL ++ fH ++ [1#8], t⟩ }
      Ready .decode s ∧ 0 < s.derived.frameBytes ∧ NextFrames s [fL, fH] [1#8] ∧
        [1#8].length < s.derived.frameBytes ∧ PcntFits s 2 ∧ s.inp.tail = t) ∧
    ScansTo .seekLow (scanRegions (dec []) [fL, fH]).1 ∧ ScansTo .seekHigh (scanRegions (dec []) []).1 :=
  ⟨by decide +kernel, .inr ⟨rfl, [.low], [], by decide +kernel, by decide, by decide⟩, .inl ⟨rfl, by decide⟩⟩

theorem witness_CleanCycleMeasured :
    let bytes := ((symbolCycle (dec []) .sync).drop 1 ++ (symbolCycle (dec []) .bit0).take 1).flatten ++ fL
    let s := dec bytes
    (Ready .decode s ∧ SessionConstants s ∧ s.params.wPulse = none ∧ CleanLevels s.cfg s.derived ∧
      s.inp.bytes = ((symbolCycle s .sync).drop 1 ++ (symbolCycle s .bit0).take 1).flatten ++ fL) ∧
      ∀ x, 0 < s.derived.hiS.get x ∧ 0 < s.derived.loS.get x := by
  refine ⟨by decide +kernel, fun x => ?_⟩
  cases x <;> decide +kernel

theorem witness_OracleAnswersBlockedRead :
    let s := { dec [] with inp := ⟨[1#8], .oracle⟩, running := some .pulse }
    s.running = some .pulse ∧ s.inp.tail = .oracle ∧ s.inp.bytes.length < s.derived.frameBytes ∧
      s.derived.frameBytes ≤ 8 ∧ s.params.wPulse = none := by decide +kernel

/-- Windows of EX1 (reference 60, 18, tolerance 3), at their edges. -/
theorem witness_DecStepFollowsTable :
    Ready .decode (dec []) ∧ (2 ^ 31 - 1 < 2 ^ 31 ∧ (0x80000000#32).toNat = 2 ^ 31) ∧
    (let d := (dec []).derived
     (Matches d 57 .pilot ∧ Matches d 63 .pilot ∧ ¬Matches d 56 .pilot ∧ ¬Matches d 64 .pilot) ∧
     (¬Matches d 15 .pilot ∧ Matches d 15 .sync ∧ Matches d 21 .sync) ∧
     (¬Matches d 22 .pilot ∧ ¬Matches d 22 .sync) ∧ (¬Matches d 52 .bit0 ∧ ¬Matches d 52 .bit1)) ∧
    (∀ v ∈ [DState.searching, .piloting, .loading, .done], ((dec []).setDState v).status.dstate = v ∧
      Ready .decode ((dec []).setDState v)) := by
  unfold Matches
  decide +kernel

theorem witness_BitsAssembleBytes :
    (∀ n ∈ [0, 6, 7], ∀ cap ∈ [0, 1], ∀ p ∈ [25, 51],
      let s := withArgs { (dec []).setDState .loading with dec := ⟨0x40#8, .ofNat 4 n, 0#32, .ofNat 32 cap⟩ } (.ofNat 32 p) 0#32 0#32
      Ready .decode s ∧ s.status.dstate = .loading ∧ s.dec.nbits.toNat ≤ 7 ∧ s.io.arg0.toNat < 2 ^ 31) ∧
    (let d := (dec []).derived
     Matches d 25 .bit0 ∧ Matches d 31 .bit0 ∧ ¬Matches d 45 .bit0 ∧ Matches d 45 .bit1 ∧ ¬Matches d 51 .bit0 ∧
       Matches d 51 .bit1) ∧
    ((6#4).toNat < 7 ∧ (7#4).toNat = 7) ∧ (0#32).toNat < (1#32).toNat ∧ ¬(0#32).toNat < (0#32).toNat := by
  unfold Matches
  decide +kernel

theorem witness_DecClassifyCompletes :
    (∀ p ∈ [0x80000000, 0x7FFFFFFF], ∀ v ∈ [DState.searching, .piloting, .loading, .done],
      Ready .decode (withArgs ((dec []).setDState v) (.ofNat 32 p) 0#32 0#32) ∧
        (withArgs ((dec []).setDState v) (.ofNat 32 p) 0#32 0#32).status.dstate = v) ∧
    (let d := (dec []).derived
     Matches d 57 .pilot ∧ (¬Matches d 21 .pilot ∧ Matches d 21 .sync) ∧ (¬Matches d 14 .pilot ∧ ¬Matches d 14 .sync) ∧
       Matches d 31 .bit0 ∧ (¬Matches d 45 .bit0 ∧ Matches d 45 .bit1) ∧
       (¬Matches d 32 .bit0 ∧ ¬Matches d 32 .bit1)) := by
  unfold Matches
  decide +kernel

/-- Frames of pulses of the given widths, each DEAD, then one HIGH and one LOW, and the regions of them. -/
def pulseFrames (n : Nat) : List Frame := List.replicate (n - 2) fD ++ [fH, fL]
def pulseRegions (n : Nat) : List Region := List.replicate (n - 2) .dead ++ [.high, .low]

theorem onePulse_regions (n : Nat) : OnePulse (pulseRegions n) :=
  ⟨List.replicate (n - 2) .dead, [], rfl, by simp [List.mem_replicate], by decide⟩

/-- A stream that ends inside the second pulse; one whose third pulse, after a pilot and a sync of EX1, matches no bit and
ends the attempt, with a frame after it; and one that ends there without that pulse. -/
theorem witness_DecBlockIsResetAndSteps :
    (let s := withArgs (dec (fL ++ fH ++ fL ++ [1#8])) 4#32 0#32 0#32
     Ready .decode s ∧ 0 < s.derived.frameBytes ∧ NextFrames s [fL, fH, fL] [1#8] ∧
       [1#8].length < s.derived.frameBytes ∧ s.inp.tail = .eos ∧ PcntFits s 3) ∧
    (let fs := pulseFrames 60 ++ pulseFrames 18 ++ pulseFrames 2
     let s := withArgs (dec (fs.flatten ++ fD)) 4#32 0#32 0#32
     let pulses := [pulseRegions 60, pulseRegions 18]
     (Ready .decode s ∧ 0 < s.derived.frameBytes ∧ NextFrames s fs fD ∧
       (scanRegions s fs).1 = pulses.flatten ++ pulseRegions 2 ∧ (∀ p ∈ pulses, PcntFits s p.length) ∧
       PcntFits s (pulseRegions 2).length ∧ (afterPulses s pulses).status.dstate ≠ .done ∧
       ((afterPulses s pulses).decStep (.width (pulseRegions 2).length)).status.dstate = .done) ∧
       (∀ p ∈ pulses, OnePulse p) ∧ OnePulse (pulseRegions 2)) ∧
    (let fs := pulseFrames 60 ++ pulseFrames 18 ++ [fH]
     let s := withArgs (dec (fs.flatten ++ [1#8])) 4#32 0#32 0#32
     let pulses := [pulseRegions 60, pulseRegions 18]
     (Ready .decode s ∧ 0 < s.derived.frameBytes ∧ NextFrames s fs [1#8] ∧ [1#8].length < s.derived.frameBytes ∧
       s.inp.tail = .eos ∧ (scanRegions s fs).1 = pulses.flatten ++ [.high] ∧
       (∀ p ∈ pulses, PcntFits s p.length) ∧ PcntFits s [Region.high].length ∧
       (afterPulses s pulses).status.dstate ≠ .done) ∧
       (∀ p ∈ pulses, OnePulse p) ∧ ScansTo .seekLow [.high]) := by
  have h : ∀ p ∈ [pulseRegions 60, pulseRegions 18], OnePulse p := by
    intro p hp
    simp only [List.mem_cons, List.not_mem_nil, or_false] at hp
    rcases hp with rfl | rfl <;> exact onePulse_regions _
  exact ⟨by decide +kernel, ⟨by decide +kernel, h, onePulse_regions _⟩, by decide +kernel, h,
    .inr ⟨rfl, [], [], rfl, by decide, by decide⟩⟩

theorem witness_NoPilotYieldsNoBytes :
    let s := withArgs (dec (fL ++ fH ++ fL)) 4#32 0#32 0#32
    Ready .decode s ∧ 0 < s.derived.frameBytes ∧ NextFrames s [fL, fH, fL] [] ∧
      ([] : List Byte).length < s.derived.frameBytes ∧ s.inp.tail = .eos ∧ PcntFits s 3 ∧
      pulseWidths .seekHigh 0 (scanRegions s [fL, fH, fL]).1 = [3] ∧
      ∀ w ∈ pulseWidths .seekHigh 0 (scanRegions s [fL, fH, fL]).1, ¬Matches s.derived w .pilot := by
  unfold Matches
  decide +kernel

/-- A read failure after one complete pulse, inside the next. -/
theorem witness_DecBlockReadFailure :
    let s := withArgs { dec [] with inp := ⟨fD ++ fH ++ fL ++ fL ++ fH ++ [1#8], .fails⟩ } 4#32 0#32 0#32
    let fs := [fD, fH, fL, fL, fH]
    let pulses : List (List Region) := [[.dead, .high, .low]]
    let u := afterPulses s pulses
    (Ready .decode s ∧ 0 < s.derived.frameBytes ∧ NextFrames s fs [1#8] ∧
      [1#8].length < s.derived.frameBytes ∧ s.inp.tail = .fails ∧ (∀ p ∈ pulses, PcntFits s p.length) ∧
      PcntFits s [Region.low, .high].length ∧ (scanRegions s fs).1 = pulses.flatten ++ [.low, .high] ∧ u.status.dstate ≠ .done) ∧
      (∀ p ∈ pulses, OnePulse p) ∧ ScansTo .seekLow [.low, .high] :=
  ⟨by decide +kernel, by
    intro p hp
    obtain rfl := List.mem_singleton.1 hp
    exact ⟨[.dead], [], rfl, by decide, by decide⟩, .inr ⟨rfl, [.low], [], rfl, by decide, by decide⟩⟩

/-- The conditions of R210 hold of EX1; they do not depend on the stream or the arguments. -/
theorem witness_RoundTripConditions (bytes : List Byte) (cap : Word) :
    RoundTripConditions (withArgs { dec [] with inp := ⟨bytes, .eos⟩ } cap 0#32 0#32) := by
  have h : RoundTripConditions (dec []) := by
    refine ⟨by decide +kernel, fun y => ?_, ?_⟩
    · cases y <;> decide +kernel
    · unfold Matches; decide +kernel
  exact h

theorem witness_BlockRoundTrip :
    let s := withArgs { dec [] with inp := ⟨blockBytes [0x81#8], .eos⟩ } 1#32 0#32 0#32
    (Ready .decode s ∧ SessionConstants s ∧ s.params.wPulse = none ∧ 2 ≤ 2 ∧ [0x81#8].length ≤ s.io.arg0.toNat) ∧
      RoundTripConditions s ∧ BlockStream s 1 1 2 [0x81#8] :=
  ⟨by decide +kernel, witness_RoundTripConditions _ _, by unfold BlockStream; decide +kernel⟩

theorem witness_BlockOverrunIsSafe :
    let s := withArgs { dec [] with inp := ⟨blockBytes [0x81#8], .eos⟩ } 0#32 0#32 0#32
    (Ready .decode s ∧ SessionConstants s ∧ s.params.wPulse = none ∧ 2 ≤ 2 ∧ s.io.arg0.toNat < [0x81#8].length) ∧
      RoundTripConditions s ∧ BlockStream s 1 1 2 [0x81#8] :=
  ⟨by decide +kernel, witness_RoundTripConditions _ _, by unfold BlockStream; decide +kernel⟩

/-- Commands of each kind that answer a next state. -/
theorem witness_commands_answer :
    (∀ i ∈ [Instr.openSession, .encLevels, .encFrame, .encSilence, .encCycle, .encPilot, .encByte, .encBlock,
      .encCount],
      ∃ t, exec i (withArgs enc 0#32 0#32 0#32) = .next t) ∧
    ∀ i ∈ [Instr.clsSample, .fltClear, .clsPulse, .decReset, .decStep, .decClassify, .decBlock],
      ∃ t, exec i (withArgs (dec (fL ++ fH ++ fL)) 3#32 0#32 0#32) = .next t := by
  have h1 : ∀ i ∈ [Instr.openSession, .encLevels, .encFrame, .encSilence, .encCycle, .encPilot, .encByte,
      .encBlock, .encCount], next? (exec i (withArgs enc 0#32 0#32 0#32)) (fun _ => true) = true := by decide +kernel
  have h2 : ∀ i ∈ [Instr.clsSample, .fltClear, .clsPulse, .decReset, .decStep, .decClassify, .decBlock],
      next? (exec i (withArgs (dec (fL ++ fH ++ fL)) 3#32 0#32 0#32)) (fun _ => true) = true := by decide +kernel
  exact ⟨fun i hi => (next_of_next? (h1 i hi)).imp fun _ h => h.1,
    fun i hi => (next_of_next? (h2 i hi)).imp fun _ h => h.1⟩

/-- A command outside CLOSED, `OPEN` among them. -/
theorem witness_CommandsKeepSessionConstants :
    (Instr.decBlock ≠ .openSession ∧ enc.status.session ≠ .closed) ∧ ∃ t, exec .openSession enc = .next t :=
  ⟨by decide +kernel, (next_of_next? (f := fun _ => true) (by decide +kernel)).imp fun _ h => h.1⟩

/-- The ends of each range of reserved and of read-only indices. -/
theorem witness_HostRegisterWrites :
    State.reset.status.session = .closed ∧ enc.status.session ≠ .closed ∧
      (∀ x ∈ [0x00#8, 0x05#8], x.toNat ≤ 5) ∧
      (∀ x ∈ [0x06, 0x3F, 0x45, 0x47, 0x4D, 0x4F, 0x55, 0x57, 0x67, 0x6B, 0x6F, 0x77, 0xFF],
        Reg.ofIndex (.ofNat 8 x) = none) ∧
      ∀ x ∈ [0x40, 0x44, 0x48, 0x4C, 0x50, 0x54, 0x58, 0x66, 0x68, 0x6A],
        (Reg.ofIndex (.ofNat 8 x)).isSome = true := by decide +kernel

theorem witness_HostRegisterReads :
    enc.cfg.rate = some 44100#32 ∧ State.reset.cfg.rate = none ∧ State.reset.cfg.ford = none ∧
      enc.edge.pulse = .eos ∧ (enc.setPulse (.width (2 ^ 31 - 1))).edge.pulse = .width (2 ^ 31 - 1) ∧
      enc.inPos < 2 ^ 32 ∧ enc.edge.pcnt < 2 ^ 32 ∧ enc.derived.hiS.pilot < 2 ^ 32 ∧ enc.derived.ref.endMark < 2 ^ 32 ∧
      enc.derived.tol < 2 ^ 32 ∧ enc.derived.leadFrames < 2 ^ 32 := by decide +kernel

/-- STATUS at the codes of R46, R48 and R250: DONE with END_MARK in an open session, and DONE with IOFAIL in one a failing
read aborted (V-DEC-16); the images of `TM_REF.SYNC` (95: 18) and of `LVL_LO` (95: 0xFFFF8CCF). -/
theorem test_register_images :
    next? (step { ((dec []).finish .endMark) with queue := [rd .status] })
      (fun s => decide (s.obs = [.regRead 0x60#8 0x1D#32])) = true ∧
    (((dec []).finish .ioFail).abort .streamRead).status.image = 0x84E#32 ∧
    next? (step { enc with queue := [rd (.tmRef .sync)] }) (fun s => decide (s.obs = [.regRead 0x51#8 18#32])) = true ∧
    next? (step { enc with queue := [rd .lvlLo] }) (fun s => decide (s.obs = [.regRead 0x5A#8 0xFFFF8CCF#32])) = true := by
  decide +kernel

/-- A header attempt that got 0, 1, 26 and 27 bytes; LENGTH 0 and 1 (sizes 2 and 3). -/
theorem witness_RecordSequencerFollowsRules :
    (∀ n ∈ [0, 1, 26, 27], ∀ l ∈ [0, 1],
      let q : Sequencer := ⟨false, [], .headerDone⟩
      let s := { (dec []).setRes (.ofNat 32 n) with seq := some q, dst := Memory.write [] 12 (.ofNat 8 l) }
      s.running = none ∧ s.seq = some q ∧ q.phase = .headerDone ∧ s.status.session ≠ .aborted ∧ s.io.res.toNat = n ∧
        (s.dst.read 12).toNat + 256 * (s.dst.read 13).toNat + 2 = l + 2) ∧
    ((0 < 1 ∧ 26 < 27 ∧ 27 ≤ 27) ∧ 0 + 2 ≤ 2 ∧ 2 < 1 + 2) ∧
    ∀ p ∈ [SeqPhase.header, .headerDone, .data [] 3, .dataDone [] 3],
      let q : Sequencer := ⟨true, [], p⟩
      let s := { dec [] with seq := some q }
      s.running = none ∧ s.seq = some q ∧ Ready .decode s ∧
        (aborted s .streamRead).seq = some q ∧ (aborted s .streamRead).status.session = .aborted := by
  decide +kernel

/-- The premises of the invariants, in an open ENCODE session about to emit a frame and in an open DECODE
session with a byte about to complete. -/
theorem witness_StepKeepsInvariants :
    (SessionInv enc ∧ OutputCounted enc ∧ WholeFrames enc ∧ MemoryCanonical enc ∧ DecoderBounds enc ∧
      ∃ t, step ((withArgs enc 1#32 0#32 0#32).withFetchWord 8 0x11) = .next t) ∧
    (let s := withArgs { (dec []).setDState .loading with dec := ⟨0x40#8, 7#4, 0#32, 4#32⟩ } 48#32 0#32 0#32
     SessionInv s ∧ MemoryCanonical s ∧ DecoderBounds s ∧ ∃ t, step (s.withFetchWord 8 0x31) = .next t) := by
  refine ⟨⟨by decide +kernel, by decide +kernel, by decide +kernel, by decide +kernel, by decide +kernel, ?_⟩,
    by decide +kernel, by decide +kernel, by decide +kernel, ?_⟩
  · exact (next_of_next? (f := fun _ => true) (by decide +kernel)).imp fun _ h => h.1
  · exact (next_of_next? (f := fun _ => true) (by decide +kernel)).imp fun _ h => h.1

end Sys2Proof.Tests
end

section
/-! PROOF. What a step does to the session (R23, R77, R119, R255), said once, and the
invariants that follow from it and hold at power-on (R51, R281). -/

namespace Sys2Proof.Proofs.Session

open Sys2Proof Sys2Proof.Machine Sys2Proof.Safety Sys2Proof.Laws

/-! ## What a command of a session can change -/

/-- The constants of the session, its state and its output are the same. -/
structure SameSession (s t : State) : Prop where
  params : t.params = s.params
  cfg : t.cfg = s.cfg
  derived : t.derived = s.derived
  tables : t.tables = s.tables
  session : t.status.session = s.status.session
  err : t.status.err = s.status.err
  out : t.out = s.out
  encCount : t.encCount = s.encCount

/-- A step inside a session: the constants stay; the session goes on or a stream error aborts it (R255); what is
appended to `OUT` is counted (R64). -/
structure InSession (s t : State) : Prop where
  params : t.params = s.params
  cfg : t.cfg = s.cfg
  derived : t.derived = s.derived
  tables : t.tables = s.tables
  status : (t.status.session = s.status.session ∧ t.status.err = s.status.err) ∨
    (t.status.session = .aborted ∧ (t.status.err = .streamRead ∨ t.status.err = .streamWrite))
  output : ∃ bytes, t.out = s.out ++ bytes ∧ t.encCount = s.encCount + bytes.length
  progress : ProgressAgrees t

/-- The state a successful `OPEN` leaves, as far as the session goes (R51, R117). -/
structure JustOpened (t : State) : Prop where
  allWritten : t.cfg.allWritten = true
  configError : t.cfg.configError = none
  derived : t.derived = derive t.params t.cfg
  tables : t.cfg.mode = .encode → t.tables = buildTables t.cfg t.derived
  session : t.status.session = .opened
  err : t.status.err = .noError
  running : t.running = none
  out : t.cfg.mode = .encode → t.out = []
  encCount : t.encCount = 0

/-- Everything a step can do to the session: there is none afterwards, it was just opened, or it went on. -/
def SessionStep (s t : State) : Prop :=
  (t.status.session = .closed ∧ t.running = none) ∨ JustOpened t ∨ (s.status.session ≠ .closed ∧ InSession s t)

/-- Outside CLOSED an access of the host leaves the session alone (R23). -/
theorem sameSession_of_hostSide {s t : State} (h : HostSide s t) (hs : s.status.session ≠ .closed) :
    SameSession s t where
  params := h.params
  cfg := h.cfg hs
  derived := h.derived
  tables := h.tables
  session := by rw [h.status]
  err := by rw [h.status]
  out := h.out
  encCount := h.encCount

/-- A measurement stays in the session. -/
theorem sameSession_of_measured {s u : State} (h : Measured s u) : SameSession s u := by
  constructor <;> rw [h]

/-- A block-load attempt stays in the session. -/
theorem sameSession_of_attemptOf {s u : State} (h : AttemptOf s u) : SameSession s u := by
  constructor <;> rw [h]

theorem sameSession_decStep (s : State) (p : Pulse) : SameSession s (s.decStep p) := by
  constructor <;> rw [decStep_frame]

theorem SameSession.inSession {s t : State} (h : SameSession s t) (hp : ProgressAgrees t) : InSession s t where
  params := h.params
  cfg := h.cfg
  derived := h.derived
  tables := h.tables
  status := .inl ⟨h.session, h.err⟩
  output := ⟨[], by simpa using h.out, h.encCount⟩
  progress := hp

/-- A command that ends leaves nothing in progress. -/
theorem SameSession.inSession_of_ended {s t : State} (h : SameSession s t) (hr : t.running = none) : InSession s t :=
  h.inSession fun hn => absurd hr hn

theorem InSession.of_same {s u t : State} (h : SameSession s u) (k : InSession u t) : InSession s t where
  params := k.params.trans h.params
  cfg := k.cfg.trans h.cfg
  derived := k.derived.trans h.derived
  tables := k.tables.trans h.tables
  status := k.status.imp_left fun ⟨h1, h2⟩ => ⟨h1.trans h.session, h2.trans h.err⟩
  output := by
    rw [← h.out, ← h.encCount]
    exact k.output
  progress := k.progress

/-- A stream error aborts the session (R255). -/
theorem InSession.abort {s u : State} {e : ErrCode} (h : InSession s u) (he : e = .streamRead ∨ e = .streamWrite)
    (hr : u.running = none) : InSession s (u.abort e) where
  params := h.params
  cfg := h.cfg
  derived := h.derived
  tables := h.tables
  status := .inr ⟨rfl, he⟩
  output := h.output
  progress := fun hn => absurd hr hn

/-- A failing read aborts the session and ends the command (R255). -/
theorem SameSession.inSession_readFailure {s u : State} (h : SameSession s u) :
    InSession s ({ u with running := none }.abort .streamRead) :=
  InSession.abort (SameSession.inSession_of_ended { h with } rfl) (.inl rfl) rfl

/-- A command that waits for the oracle stays in its open DECODE session (R61). -/
theorem SameSession.inSession_waiting {s u : State} (h : SameSession s u) (hs : Ready .decode s) (a : Activity) :
    InSession s { u with running := some a } :=
  SameSession.inSession { h with } fun _ => ⟨h.session.trans hs.1, (congrArg CfgRegs.mode h.cfg).trans hs.2⟩

/-! ## Commands -/

theorem measureEnd_inSession {a : Activity} {s t : State} (hs : Ready .decode s) (h : MeasureEnd a s t) :
    InSession s t := by
  obtain ⟨u, hm, h⟩ := h
  have hu := sameSession_of_measured hm
  rcases h with ⟨r, rfl⟩ | rfl | rfl
  · exact SameSession.inSession_of_ended { hu with } rfl
  · exact hu.inSession_readFailure
  · exact hu.inSession_waiting hs a

theorem blockEnd_inSession {s t : State} (hs : Ready .decode s) (h : BlockEnd s t) : InSession s t := by
  obtain ⟨u, hm, -, h⟩ := h
  have hu := sameSession_of_attemptOf hm
  rcases h with ⟨rfl, -⟩ | rfl | rfl
  · exact SameSession.inSession_of_ended { hu with } rfl
  · exact { hu.inSession_readFailure with }
  · exact hu.inSession_waiting hs .block

/-- What is written is counted, and the session goes on (R64). -/
theorem inSession_wrote (i : Instr) (s : State) (fs : List Frame) (k : Sink) (d : Nat) :
    InSession s { wrote (ran i s) fs k with draws := d } :=
  ⟨rfl, rfl, rfl, rfl, .inl ⟨rfl, rfl⟩, ⟨fs.flatten, rfl, rfl⟩, fun hn => absurd rfl hn⟩

theorem emissionEnd_inSession {i : Instr} {s t : State} (h : EmissionEnd i s t) : InSession s t := by
  rcases h with ⟨fs, k, d, n, -, rfl⟩ | ⟨gs, k, d, rfl⟩
  · exact { inSession_wrote i s fs k d with }
  · exact (inSession_wrote i s gs k d).abort (.inr rfl) rfl

/-- A command that an open DECODE session needs, once admitted (R94). -/
theorem ready_of_admitted {i : Instr} {s : State} (h : preRefusal i s = none) (hm : modeNeeded i = some .decode) :
    Ready .decode s := by
  obtain ⟨hs, hmode⟩ := (preRefusal_none_iff i s).1 h
  refine ⟨?_, hmode _ hm⟩
  cases i <;> cases hm <;> simpa [sessionOk] using hs

/-- Only `OPEN` is admitted outside a session (R94). -/
theorem session_of_admitted {i : Instr} {s : State} (h : preRefusal i s = none) :
    i = .openSession ∧ s.status.session = .closed ∨ i ≠ .openSession ∧ s.status.session ≠ .closed := by
  obtain ⟨hs, -⟩ := (preRefusal_none_iff i s).1 h
  by_cases hi : i = .openSession
  · subst hi
    exact .inl ⟨rfl, by simpa [sessionOk] using hs⟩
  · refine .inr ⟨hi, fun hv => ?_⟩
    rw [hv] at hs
    cases i with
    | openSession => exact hi rfl
    | _ => exact absurd hs (by decide)

/-- An admitted command other than `OPEN` and `CLOSE` stays in the session. -/
theorem effect_inSession {i : Instr} {s t : State} (hp : preRefusal i s = none) (h : Effect i s t)
    (ho : i ≠ .openSession) (hc : i ≠ .closeSession) : InSession s t := by
  have ready := ready_of_admitted hp
  cases i
  case openSession => exact absurd rfl ho
  case closeSession => exact absurd rfl hc
  case tmScale | tmUnscale | tmTol | decClassify =>
    obtain ⟨r, rfl⟩ := h
    exact SameSession.inSession_of_ended (by constructor <;> simp [ran]) rfl
  case encLevels | encCount =>
    obtain ⟨r, rh, rfl⟩ := h
    exact SameSession.inSession_of_ended (by constructor <;> simp [ran]) rfl
  case encFrame | encSilence | encCycle | encPilot | encByte | encBlock => exact emissionEnd_inSession h
  case clsSample => exact { measureEnd_inSession (s := s.setCmd .clsSample) (ready rfl) h with }
  case clsPulse => exact { measureEnd_inSession (s := (s.setCmd .clsPulse).startPulse) (ready rfl) h with }
  case decBlock =>
    exact { blockEnd_inSession (s := ((s.setCmd .decBlock).decReset s.io.arg0).startPulse) (ready rfl) h with }
  case fltClear =>
    cases h
    exact SameSession.inSession_of_ended (by constructor <;> simp [ran]) rfl
  case decReset =>
    cases h
    exact SameSession.inSession_of_ended (by constructor <;> simp [ran]) rfl
  case decStep =>
    obtain ⟨p, rfl⟩ := h
    exact SameSession.inSession_of_ended { sameSession_decStep (ran .decStep s) p with }
      (by rw [setResNat_eq, setRes_running, decStep_frame]; rfl)

/-- A successful `OPEN` (R117). -/
theorem justOpened_opened {s : State} (ha : s.cfg.allWritten = true) (he : s.cfg.configError = none) :
    JustOpened { s.opened with running := none } := by
  simp only [State.opened, State.openTables, State.takeStream, State.openRegisters, State.setRes]
  cases hm : s.cfg.mode with
  | decode => constructor <;> simp [ha, he, hm]
  | encode => constructor <;> simp [ha, he, hm]

/-! ## Steps -/

/-- A host access, or a refusal, starts no session and ends none. -/
theorem sessionStep_of_hostSide {s t : State} (hp : ProgressAgrees s) (h : HostSide s t) : SessionStep s t := by
  by_cases hs : s.status.session = .closed
  · refine .inl ⟨by rw [h.status, hs], ?_⟩
    by_contra hr
    rw [h.running] at hr
    exact absurd (hs.symm.trans (hp hr).1) (by decide)
  · have same := sameSession_of_hostSide h hs
    refine .inr (.inr ⟨hs, same.inSession fun hr => ?_⟩)
    rw [h.running] at hr
    rw [same.session, same.cfg]
    exact hp hr

theorem exec_sessionStep {i : Instr} {s t : State} (hr : s.running = none) (h : exec i s = .next t) :
    SessionStep s t := by
  rcases exec_cases h with ⟨r, rfl⟩ | ⟨hp, he⟩
  · exact sessionStep_of_hostSide (fun hn => absurd hr hn) (hostSide_refuse s r)
  rcases session_of_admitted hp with ⟨rfl, hs⟩ | ⟨ho, hs⟩
  · obtain ⟨ha, ⟨e, -, rfl⟩ | ⟨hn, rfl⟩⟩ := he
    · exact .inl ⟨hs, rfl⟩
    · exact .inr (.inl (justOpened_opened (s := s.setCmd .openSession) ha hn))
  by_cases hc : i = .closeSession
  · subst hc
    cases he
    refine .inl ⟨rfl, ?_⟩
    unfold State.handBack
    split <;> rfl
  · exact .inr (.inr ⟨hs, effect_inSession hp he ho hc⟩)

theorem resume_inSession {a : Activity} {s : State} (hs : Ready .decode s) (hp : ProgressAgrees s) :
    InSession s (a.resume s) := by
  obtain ⟨u, hu, h⟩ := resume_cases a s
  have same : SameSession s u := by constructor <;> rw [hu]
  have ready : Ready .decode u := by rw [hu]; exact hs
  rcases h with ⟨b, -, h⟩ | ⟨-, h⟩ | h
  · exact (measureEnd_inSession ready h).of_same same
  · exact (blockEnd_inSession ready h).of_same same
  · rw [h]
    exact SameSession.inSession (by constructor <;> rfl) hp

/-- Everything one step can do to the session. -/
theorem step_sessionStep {s t : State} (hp : ProgressAgrees s) (h : step s = .next t) : SessionStep s t := by
  rcases step_cases h with ⟨a, ha, rfl⟩ | ⟨hr, h | ⟨i, u, hu, he⟩⟩
  · have ready : Ready .decode s := hp (by simp [ha])
    exact .inr (.inr ⟨by rw [ready.1]; decide, resume_inSession ready hp⟩)
  · exact sessionStep_of_hostSide hp h
  · rcases exec_sessionStep (hu.running.trans hr) he with h | h | ⟨hs, h⟩
    · exact .inl h
    · exact .inr (.inl h)
    · rw [hu.status] at hs
      exact .inr (.inr ⟨hs, h.of_same (sameSession_of_hostSide hu hs)⟩)

/-! ## The invariants -/

theorem sessionInv_of_justOpened {t : State} (h : JustOpened t) : SessionInv t :=
  ⟨fun _ => ⟨h.allWritten, h.configError, h.derived, h.tables⟩,
    ⟨fun _ => h.err, fun ha => absurd (h.session.symm.trans ha) (by decide)⟩, fun hn => absurd h.running hn⟩

theorem sessionInv_of_closed {t : State} (hs : t.status.session = .closed) (hr : t.running = none) : SessionInv t := by
  refine ⟨fun h => absurd hs h, ⟨fun h => ?_, fun h => ?_⟩, fun h => absurd hr h⟩ <;> cases hs.symm.trans h

theorem InSession.sessionConstants {s t : State} (h : InSession s t) (hs : s.status.session ≠ .closed)
    (hc : SessionConstants s) : SessionConstants t := by
  intro _
  rw [h.cfg, h.derived, h.params, h.tables]
  exact hc hs

theorem InSession.errorAgrees {s t : State} (h : InSession s t) (he : ErrorAgrees s) : ErrorAgrees t := by
  rcases h.status with ⟨hs, herr⟩ | ⟨hs, herr⟩
  · unfold ErrorAgrees
    rw [hs, herr]
    exact he
  · exact ⟨fun h => absurd (hs.symm.trans h) (by decide), fun _ => herr⟩

/-- Settles O56: the three things a step can do to the session each leave the invariant. -/
theorem stepKeepsSessionInv : Obligations.StepKeepsSessionInv := by
  rintro s t ⟨hc, he, hp⟩ h
  rcases step_sessionStep hp h with ⟨hs, hr⟩ | ho | ⟨hs, hin⟩
  · exact sessionInv_of_closed hs hr
  · exact sessionInv_of_justOpened ho
  · exact ⟨hin.sessionConstants hs hc, hin.errorAgrees he, hin.progress⟩

/-- Settles O59: inside a session what is appended to `OUT` is counted, and `OPEN` starts both at nothing. -/
theorem stepKeepsOutputCounted : Obligations.StepKeepsOutputCounted := by
  rintro s t ⟨-, -, hp⟩ hcount h
  rcases step_sessionStep hp h with ⟨hs, -⟩ | ho | ⟨hs, hin⟩
  · exact fun hn => absurd hs hn
  · intro _ hm
    rw [ho.encCount, ho.out hm, List.length_nil]
  · intro _ hm
    obtain ⟨bytes, hout, hn⟩ := hin.output
    rw [hin.cfg] at hm
    rw [hout, hn, List.length_append, hcount hs hm]

/-! ## Power-on -/

/-- The parameters of the machine have the types of R11. -/
theorem params_wf : Config.params.WF := by
  unfold Params.WF
  simp only [Config.params, PerSymbol.tabulate]
  omega

/-- Settles O55: at power-on the session is CLOSED, where the invariants of a session ask nothing. -/
theorem powerOnStateHasInvariants : Obligations.PowerOnStateHasInvariants := by
  have closed : State.reset.status.session = .closed := rfl
  have idle : State.reset.running = none := rfl
  exact ⟨closed, rfl, rfl, rfl, idle, sessionInv_of_closed closed idle, rfl, fun h => absurd closed h,
    fun h => absurd closed h, (fun h => nomatch h), params_wf⟩

end Sys2Proof.Proofs.Session
end

section
/-! PROOF. The byte counts of the encoder's cycles (R37, R65, R141). -/

namespace Sys2Proof.Proofs.Encoder

open Sys2Proof Sys2Proof.Machine Sys2Proof.Safety Sys2Proof.Laws

/-- A cycle has as many frames as its reference width says (R114, R135). -/
theorem symbolCycle_length {s : State} (h : s.status.session ≠ .closed) (hs : SessionConstants s) (y : Symbol) :
    (symbolCycle s y).length = s.derived.ref.get y := by
  rw [(session_frames s h hs).2.2 y, symbolCycle, List.length_append, List.length_replicate, List.length_replicate,
    Nat.add_comm]

/-- A cycle has `TM_REF[y] × FRAME_BYTES` bytes (R37). -/
theorem symbolCycle_bytes {s : State} (h : s.status.session ≠ .closed) (hs : SessionConstants s) (y : Symbol) :
    (symbolCycle s y).flatten.length = s.derived.ref.get y * s.derived.frameBytes := by
  rw [flatten_length _ _ (symbolCycle_frames s h hs y), symbolCycle_length h hs]

/-- Every frame of a byte's cycles has `FRAME_BYTES` bytes (R65). -/
theorem byteCycles_frames {s : State} (h : s.status.session ≠ .closed) (hs : SessionConstants s) (b : Byte) :
    ∀ f ∈ byteCycles s b, f.length = s.derived.frameBytes := by
  intro f hf
  obtain ⟨j, -, hj⟩ := List.mem_flatMap.1 hf
  exact symbolCycle_frames s h hs _ f hj

/-- A byte's cycles have `bitframes(b)` frames (R141). -/
theorem byteCycles_length {s : State} (h : s.status.session ≠ .closed) (hs : SessionConstants s) (b : Byte) :
    (byteCycles s b).length = byteWidth s.derived b := by
  have bit : ∀ x : Bool, s.derived.ref.get (if x then .bit1 else .bit0) =
      if x then s.derived.ref.bit1 else s.derived.ref.bit0 := by
    intro x
    cases x <;> rfl
  simp only [byteCycles, List.length_flatMap, symbolCycle_length h hs, bit, byteWidth]

/-- Settles O28: every frame has `FRAME_BYTES` bytes, so bytes are counted by frames. -/
theorem emissionCountsBytes : Obligations.EmissionCountsBytes := by
  intro s h hs
  refine ⟨(session_frames s h hs).1, symbolCycle_bytes h hs, fun b => ?_⟩
  rw [flatten_length _ _ (byteCycles_frames h hs b), byteCycles_length h hs]

end Sys2Proof.Proofs.Encoder
end

section
/-! PROOF. The host's register accesses (R22, R23, R50, R72). -/

namespace Sys2Proof.Proofs.Registers

open Sys2Proof Sys2Proof.Machine Sys2Proof.Safety Sys2Proof.Laws

/-! ## Indices -/

/-- The register map gives every register its own index (R22). -/
theorem ofIndex_index (r : Reg) : Reg.ofIndex (BitVec.ofNat 8 r.index) = some r := by
  cases r with
  | tmHiS y | tmLoS y | tmRef y => cases y <;> decide +kernel
  | _ => decide +kernel

/-- What an index names has that index. -/
theorem index_of_ofIndex {x : Byte} {r : Reg} (h : Reg.ofIndex x = some r) : r.index = x.toNat := by
  simpa using List.find?_some h

theorem symbolIndex_le (y : Symbol) : symbolIndex y ≤ 4 := by cases y <;> decide

/-- The groups of the register map (R22 to R50). -/
theorem index_ranges (r : Reg) :
    r.index ≤ 0x05 ∨ (0x40 ≤ r.index ∧ r.index ≤ 0x44) ∨ (0x48 ≤ r.index ∧ r.index ≤ 0x4C) ∨
      (0x50 ≤ r.index ∧ r.index ≤ 0x54) ∨ (0x58 ≤ r.index ∧ r.index ≤ 0x66) ∨
      (0x68 ≤ r.index ∧ r.index ≤ 0x6A) ∨ (0x70 ≤ r.index ∧ r.index ≤ 0x76) := by
  cases r with
  | tmHiS y | tmLoS y | tmRef y =>
    have := symbolIndex_le y
    simp only [Reg.index]
    omega
  | _ => decide

/-- The indices no rule names a register for (R22). -/
theorem ofIndex_reserved {x : Byte}
    (h : (0x06 ≤ x.toNat ∧ x.toNat ≤ 0x3F) ∨ (0x45 ≤ x.toNat ∧ x.toNat ≤ 0x47) ∨ (0x4D ≤ x.toNat ∧ x.toNat ≤ 0x4F) ∨
      (0x55 ≤ x.toNat ∧ x.toNat ≤ 0x57) ∨ x.toNat = 0x67 ∨ (0x6B ≤ x.toNat ∧ x.toNat ≤ 0x6F) ∨ 0x77 ≤ x.toNat) :
    Reg.ofIndex x = none := by
  refine Option.eq_none_iff_forall_ne_some.2 fun r hr => ?_
  have ranges := index_ranges r
  rw [index_of_ofIndex hr] at ranges
  omega

/-- The indices from the derived registers to the counters that a rule names (R31 to R44). -/
theorem ofIndex_readOnly : ∀ x : Byte, (0x40 ≤ x.toNat ∧ x.toNat ≤ 0x44) ∨ (0x48 ≤ x.toNat ∧ x.toNat ≤ 0x4C) ∨
    (0x50 ≤ x.toNat ∧ x.toNat ≤ 0x54) ∨ (0x58 ≤ x.toNat ∧ x.toNat ≤ 0x66) ∨ (0x68 ≤ x.toNat ∧ x.toNat ≤ 0x6A) →
    (Reg.ofIndex x).isSome = true := by
  decide +kernel

/-! ## Writes -/

section Writes

variable (s : State) (v : Word)

theorem hostWrite_reserved {x : Byte} (h : Reg.ofIndex x = none) :
    s.hostWrite x v = .next (s.refuse (.reservedRegisterWrite x)) := by
  unfold State.hostWrite
  rw [h]

/-- The registers from the derived ones to the counters are read-only (R22; log 14). -/
theorem hostWrite_readOnly {x : Byte} {r : Reg} (h : Reg.ofIndex x = some r) (hr : 0x40 ≤ r.index ∧ r.index ≤ 0x6A) :
    s.hostWrite x v = .next (s.refuse (.readOnlyRegisterWrite x)) := by
  unfold State.hostWrite
  rw [h]
  cases r with
  | cfgRate | cfgFmt | cfgVol | cfgDet | cfgHys | cfgFord | cmd | arg0 | arg1 | arg2 | arg3 | res | resHi =>
    exact absurd hr (by decide)
  | _ => rfl

/-- A configuration register is written through `writeCfg` (R23). -/
theorem hostWrite_cfg {x : Byte} (h : x.toNat ≤ 5) : ∃ c, s.hostWrite x v = s.writeCfg x c := by
  obtain rfl | rfl | rfl | rfl | rfl | rfl : x = 0#8 ∨ x = 1#8 ∨ x = 2#8 ∨ x = 3#8 ∨ x = 4#8 ∨ x = 5#8 := by
    bv_omega
  all_goals exact ⟨_, rfl⟩

theorem writeCfg_closed (h : s.status.session = .closed) (x : Byte) (c : CfgRegs) :
    s.writeCfg x c = .next { s with cfg := c } := if_pos h

theorem writeCfg_inSession (h : s.status.session ≠ .closed) (x : Byte) (c : CfgRegs) :
    s.writeCfg x c = .next (s.refuse (.configWriteInSession x)) := if_neg h

end Writes

/-- Settles O52: the map's groups of indices, and what a write to each group does. -/
theorem hostRegisterWrites : Obligations.HostRegisterWrites := by
  intro s v
  refine ⟨fun h => ?_, fun h x hx => ?_, fun x hx => ?_, fun x hx => ?_, rfl, rfl, rfl, rfl, rfl, rfl⟩
  · have stored := writeCfg_closed s h
    exact ⟨stored 0#8 _, stored 1#8 _, stored 2#8 _, stored 3#8 _, stored 4#8 _, stored 5#8 _⟩
  · obtain ⟨c, hc⟩ := hostWrite_cfg s v hx
    rw [hc, writeCfg_inSession s h]
  · exact hostWrite_reserved s v (ofIndex_reserved hx)
  · obtain ⟨r, hr⟩ := Option.isSome_iff_exists.1 (ofIndex_readOnly x hx)
    refine hostWrite_readOnly s v hr ?_
    rw [index_of_ofIndex hr]
    dsimp only at hx
    omega

/-- Settles O3: the write of a command word is the host's next access, and it decodes the word's low byte. -/
theorem stepRunsDecodedCommand : Obligations.StepRunsDecodedCommand := by
  have runs : ∀ (s : State) (v : Word) (rest : List HostAction) (i : Instr), s.running = none → s.seq = none →
      s.queue = .write 0x70#8 v :: rest → decode (BitVec.ofNat 8 v.toNat) = .ok i →
      step s = exec i { s with queue := rest } := by
    intro s v rest i hr hq hl hd
    rw [step_host hr hq hl]
    show State.writeCmd _ v = _
    simp only [State.writeCmd, hd]
  refine ⟨runs, fun s i => runs _ _ s.queue i rfl rfl rfl ?_⟩
  cases i <;> decide +kernel

/-! ## Reads -/

/-- The host's read of a register that holds a value changes nothing (R72). -/
theorem hostRead_value {s : State} {w : Word} (r : Reg) (h : s.readReg r = some w) :
    s.hostRead (BitVec.ofNat 8 r.index) = .ok (w, s) := by
  simp only [State.hostRead, ofIndex_index, h]

theorem hostRead_unwritten {s : State} (r : Reg) (h : s.readReg r = none) :
    s.hostRead (BitVec.ofNat 8 r.index) = .error (.unwrittenConfigRead (BitVec.ofNat 8 r.index)) := by
  simp only [State.hostRead, ofIndex_index, h]

theorem image32_of_lt {n : Nat} (h : n < 2 ^ 32) : image32 n = BitVec.ofNat 32 n := if_pos h

/-- The codes of `STATUS` fit their fields (R45 to R49). -/
theorem status_codes_lt (t : Status) :
    t.session.code < 4 ∧ t.dstate.code < 4 ∧ t.dcause.code < 8 ∧ t.err.code < 16 := by
  refine ⟨?_, ?_, ?_, ?_⟩
  · cases t.session <;> decide
  · cases t.dstate <;> decide
  · cases t.dcause <;> decide
  · cases t.err <;> decide

/-- The fields of the image of `STATUS` (R45 to R49). -/
theorem statusImage_fields (t : Status) :
    (t.image.extractLsb' 0 2).toNat = t.session.code ∧ (t.image.extractLsb' 2 2).toNat = t.dstate.code ∧
      (t.image.extractLsb' 4 3).toNat = t.dcause.code ∧ t.image.getLsbD 7 = false ∧
      (t.image.extractLsb' 8 4).toNat = t.err.code ∧ (t.image.extractLsb' 12 20).toNat = 0 := by
  obtain ⟨h1, h2, h3, h4⟩ := status_codes_lt t
  have hn : t.image.toNat = t.session.code + 4 * t.dstate.code + 16 * t.dcause.code + 256 * t.err.code := by
    rw [Status.image, BitVec.toNat_ofNat]
    omega
  simp only [BitVec.extractLsb'_toNat, BitVec.getLsbD, hn, Nat.shiftRight_eq_div_pow, Nat.testBit_eq_decide_div_mod_eq,
    decide_eq_false_iff_not]
  omega

/-- The image of a width: bit 31 is 0, and below 2^31 it is the width (R41). -/
theorem pulseImage_width (n : Nat) :
    (Pulse.width n).image.getLsbD 31 = false ∧ (n < 2 ^ 31 → (Pulse.width n).image.toNat = n) := by
  have small : ∀ m < 2 ^ 31, (BitVec.ofNat 32 m).getLsbD 31 = false ∧ (BitVec.ofNat 32 m).toNat = m := by
    intro m hm
    rw [BitVec.getLsbD, BitVec.toNat_ofNat, Nat.mod_eq_of_lt (by omega)]
    exact ⟨Nat.testBit_lt_two_pow hm, rfl⟩
  simp only [Pulse.image]
  split_ifs with h
  · exact ⟨(small n h).1, fun _ => (small n h).2⟩
  · exact ⟨(small _ (Nat.mod_lt _ (by decide))).1, fun hn => absurd hn h⟩

/-- The fields of `DEC_SHIFT`'s word (R39). -/
theorem shiftImage_fields (d : DecRegs) :
    let w := BitVec.ofNat 32 (d.shift.toNat + 256 * d.nbits.toNat)
    w.extractLsb' 0 8 = d.shift ∧ w.extractLsb' 8 4 = d.nbits ∧ (w.extractLsb' 12 20).toNat = 0 := by
  have h1 := d.shift.isLt
  have h2 := d.nbits.isLt
  refine ⟨BitVec.eq_of_toNat_eq ?_, BitVec.eq_of_toNat_eq ?_, ?_⟩ <;>
    simp only [BitVec.extractLsb'_toNat, BitVec.toNat_ofNat, Nat.shiftRight_eq_div_pow] <;> omega

/-- Registers that hold a word are read as it. -/
theorem hostRead_words {s : State} (l : List (Reg × Word)) (h : ∀ q ∈ l, s.readReg q.1 = some q.2) :
    ∀ p ∈ l.map fun q => (BitVec.ofNat 8 q.1.index, q.2), s.hostRead p.1 = .ok (p.2, s) :=
  List.forall_mem_map.2 fun q hq => hostRead_value q.1 (h q hq)

/-- Registers that hold a natural are read as it, where it fits (log 10). -/
theorem hostRead_naturals {s : State} (l : List (Reg × Nat)) (h : ∀ q ∈ l, s.readReg q.1 = some (image32 q.2)) :
    ∀ p ∈ l.map fun q => (BitVec.ofNat 8 q.1.index, q.2),
      p.2 < 2 ^ 32 → s.hostRead p.1 = .ok (BitVec.ofNat 32 p.2, s) :=
  List.forall_mem_map.2 fun q hq hlt => hostRead_value q.1 (by rw [h q hq, image32_of_lt hlt])

/-- A configuration register is read as written last, and faults when it never was (R23). -/
theorem hostRead_config (s : State) (l : List Reg) :
    ∀ p ∈ l.map fun r => (BitVec.ofNat 8 r.index, s.readReg r),
      (∀ v, p.2 = some v → s.hostRead p.1 = .ok (v, s)) ∧
        (p.2 = none → s.hostRead p.1 = .error (.unwrittenConfigRead p.1)) :=
  List.forall_mem_map.2 fun r _ => ⟨fun _ hv => hostRead_value r hv, hostRead_unwritten r⟩

/-- Settles O53: each index names its register, whose content is read. -/
theorem hostRegisterReads : Obligations.HostRegisterReads := by
  intro s
  refine ⟨?status, hostRead_config s [.cfgRate, .cfgFmt, .cfgVol, .cfgDet, .cfgHys, .cfgFord], ?words, ?shift,
    fun h => hostRead_value .pulse (by rw [State.readReg, h]; rfl), fun n h => ?width, ?count, ?naturals, ?levels,
    ?phase, ⟨_, hostRead_value .cmd rfl, ?cmd⟩⟩
  case status =>
    obtain ⟨hses, hds, hdc, h7, herr, htop⟩ := statusImage_fields s.status
    refine ⟨s.status.image, hostRead_value .status rfl, hses.trans ?_, hds.trans ?_, hdc.trans ?_, h7,
      herr.trans ?_, htop⟩
    · cases s.status.session <;> rfl
    · cases s.status.dstate <;> rfl
    · cases s.status.dcause <;> rfl
    · cases s.status.err <;> rfl
  case words =>
    exact hostRead_words [(.arg0, s.io.arg0), (.arg1, s.io.arg1), (.arg2, s.io.arg2), (.arg3, s.io.arg3),
      (.res, s.io.res), (.resHi, s.io.resHi), (.decCount, s.dec.count), (.decCap, s.dec.cap)] (by simp [State.readReg])
  case shift => exact ⟨_, hostRead_value .decShift rfl, shiftImage_fields s.dec⟩
  case width =>
    exact ⟨(Pulse.width n).image, hostRead_value .pulse (by rw [State.readReg, h]), pulseImage_width n⟩
  case count =>
    exact ⟨_, _, hostRead_value .encCountLo rfl, hostRead_value .encCountHi rfl, BitVec.toNat_ofNat _ _,
      BitVec.toNat_ofNat _ _⟩
  case naturals =>
    exact hostRead_naturals [(.tmHiS .pilot, s.derived.hiS.pilot), (.tmHiS .sync, s.derived.hiS.sync),
      (.tmHiS .bit0, s.derived.hiS.bit0), (.tmHiS .bit1, s.derived.hiS.bit1), (.tmHiS .endMark, s.derived.hiS.endMark),
      (.tmLoS .pilot, s.derived.loS.pilot), (.tmLoS .sync, s.derived.loS.sync), (.tmLoS .bit0, s.derived.loS.bit0),
      (.tmLoS .bit1, s.derived.loS.bit1), (.tmLoS .endMark, s.derived.loS.endMark),
      (.tmRef .pilot, s.derived.ref.pilot), (.tmRef .sync, s.derived.ref.sync), (.tmRef .bit0, s.derived.ref.bit0),
      (.tmRef .bit1, s.derived.ref.bit1),
      (.tmRef .endMark, s.derived.ref.endMark), (.tmTol, s.derived.tol), (.frameBytes, s.derived.frameBytes),
      (.leadFrames, s.derived.leadFrames), (.trailFrames, s.derived.trailFrames), (.fltOrder, s.derived.fltOrder),
      (.pcnt, s.edge.pcnt), (.inPos, s.inPos)] (by simp [State.readReg, PerSymbol.get])
  case levels =>
    exact hostRead_words [(.lvlHi, s.derived.lvlHi), (.lvlLo, s.derived.lvlLo), (.lvlMid, s.derived.lvlMid)]
      (by simp [State.readReg])
  case phase =>
    refine ⟨_, hostRead_value .ph rfl, ?_⟩
    cases s.edge.ph <;> rfl
  case cmd =>
    have := s.io.cmd.isLt
    refine BitVec.eq_of_toNat_eq ?_
    simp only [BitVec.extractLsb'_toNat, BitVec.toNat_setWidth, Nat.shiftRight_zero]
    omega

end Sys2Proof.Proofs.Registers
end

section
/-! PROOF. `OUT` holds whole frames (R69, R145): every frame an emission writes has `FRAME_BYTES` bytes, and in an open
ENCODE session nothing else writes `OUT`. -/

namespace Sys2Proof.Proofs.WholeOutput

open Sys2Proof Sys2Proof.Machine Sys2Proof.Safety Sys2Proof.Laws Sys2Proof.Proofs.Session Sys2Proof.Proofs.Encoder

/-! ## The frames of the emission commands -/

theorem mem_of_mem_repeatFrames {n : Nat} {fs : List Frame} {f : Frame} (h : f ∈ repeatFrames n fs) : f ∈ fs := by
  obtain ⟨gs, hgs, hf⟩ := List.mem_flatten.1 h
  rwa [List.eq_of_mem_replicate hgs] at hf

/-- Every frame an emission command writes has `FRAME_BYTES` bytes (R65, R137 to R142). -/
theorem emissionFrames_frames {i : Instr} {s : State} {fs : List Frame} (h : s.status.session ≠ .closed)
    (hm : s.cfg.mode = .encode) (hs : SessionConstants s) (he : emissionFrames i s = some fs) :
    ∀ f ∈ fs, f.length = s.derived.frameBytes := by
  obtain ⟨encoded, -, -⟩ := session_frames s h hs
  obtain ⟨hwt, hsil⟩ := session_tables s h hm hs
  have cycle : ∀ y, ∀ f ∈ s.tables.wt.get y, f.length = s.derived.frameBytes := fun y => by
    rw [hwt y]
    exact symbolCycle_frames s h hs y
  have byte : ∀ b, ∀ f ∈ byteFrames s.tables b, f.length = s.derived.frameBytes := fun b => by
    rw [byteFrames_eq s h hm hs]
    exact byteCycles_frames h hs b
  intro f hf
  cases i with
  | encFrame =>
    obtain ⟨_, hv, rfl⟩ := Option.map_eq_some_iff.1 he
    obtain ⟨v, -, rfl⟩ := Option.map_eq_some_iff.1 hv
    rw [List.mem_singleton.1 hf]
    exact encoded v
  | encSilence =>
    cases he
    have hf := mem_of_mem_repeatFrames hf
    rw [hsil] at hf
    rw [List.mem_singleton.1 hf]
    exact encoded _
  | encCycle =>
    obtain ⟨_, hy, rfl⟩ := Option.map_eq_some_iff.1 he
    obtain ⟨y, -, rfl⟩ := Option.map_eq_some_iff.1 hy
    exact cycle y f hf
  | encPilot =>
    cases he
    exact cycle .pilot f (mem_of_mem_repeatFrames hf)
  | encByte =>
    cases he
    exact byte _ f hf
  | encBlock =>
    obtain ⟨_, hb, rfl⟩ := Option.map_eq_some_iff.1 he
    obtain ⟨bytes, -, rfl⟩ := Option.map_eq_some_iff.1 hb
    simp only [blockFrames, List.mem_append, List.mem_flatMap] at hf
    rcases hf with ((hf | hf) | ⟨b, -, hf⟩) | hf
    · exact cycle .pilot f (mem_of_mem_repeatFrames hf)
    · exact cycle .sync f hf
    · exact byte b f hf
    · exact cycle .endMark f hf
  | _ => cases he

/-- An emission that leaves the session open has written all its frames (R146, R255). -/
theorem emissionEnd_wholeFrames {i : Instr} {s t : State} (hs : SessionConstants s) (hw : WholeFrames s)
    (h : EmissionEnd i s t) : WholeFrames t := by
  rcases h with ⟨fs, k, d, n, he, rfl⟩ | ⟨gs, k, d, rfl⟩
  · intro (ho : s.status.session = .opened) (hm : s.cfg.mode = .encode)
    have frames := emissionFrames_frames (by rw [ho]; decide) hm hs he
    show s.derived.frameBytes ∣ (s.out ++ fs.flatten).length
    rw [List.length_append, flatten_length _ _ frames]
    exact Nat.dvd_add (hw ho hm) (Nat.dvd_mul_left _ _)
  · exact fun ho => nomatch ho

/-! ## Steps -/

/-- What leaves the session and `OUT` alone keeps whole frames. -/
theorem sameSession_wholeFrames {s t : State} (h : SameSession s t) (hw : WholeFrames s) : WholeFrames t := by
  unfold WholeFrames
  rw [h.session, h.cfg, h.derived, h.out]
  exact hw

theorem effect_wholeFrames {i : Instr} {s t : State} (hs : SessionConstants s) (hw : WholeFrames s)
    (hp : preRefusal i s = none) (h : Effect i s t) (ho : i ≠ .openSession) (hc : i ≠ .closeSession) :
    WholeFrames t := by
  by_cases hd : modeNeeded i = some .decode
  · intro _ hm
    rw [(effect_inSession hp h ho hc).cfg, (ready_of_admitted hp hd).2] at hm
    cases hm
  cases i
  case openSession => exact absurd rfl ho
  case closeSession => exact absurd rfl hc
  case encFrame | encSilence | encCycle | encPilot | encByte | encBlock => exact emissionEnd_wholeFrames hs hw h
  case encLevels | encCount =>
    obtain ⟨r, rh, rfl⟩ := h
    exact hw
  case tmScale | tmUnscale | tmTol =>
    obtain ⟨r, rfl⟩ := h
    exact hw
  all_goals exact absurd rfl hd

/-- A host access keeps the open session it acts in (R23). -/
theorem hostSide_wholeFrames {s t : State} (h : HostSide s t) (hw : WholeFrames s) : WholeFrames t := by
  intro ho
  rw [h.status] at ho
  exact sameSession_wholeFrames (sameSession_of_hostSide h (by rw [ho]; decide)) hw (by rw [h.status, ho])

theorem exec_wholeFrames {i : Instr} {s t : State} (hs : SessionConstants s) (hw : WholeFrames s)
    (h : exec i s = .next t) : WholeFrames t := by
  rcases exec_cases h with ⟨r, rfl⟩ | ⟨hp, he⟩
  · exact hw
  by_cases ho : i = .openSession
  · subst ho
    obtain ⟨ha, ⟨e, -, rfl⟩ | ⟨hn, rfl⟩⟩ := he
    · exact hw
    · intro _ hm
      rw [(justOpened_opened (s := s.setCmd .openSession) ha hn).out hm]
      exact Nat.dvd_zero _
  by_cases hc : i = .closeSession
  · subst hc
    cases he
    exact fun ho => nomatch ho
  · exact effect_wholeFrames hs hw hp he ho hc

/-- Settles O60: a step ends the session, opens one with `OUT` empty, appends whole frames, or leaves `OUT` alone. -/
theorem stepKeepsWholeFrames : Obligations.StepKeepsWholeFrames := by
  rintro s t ⟨hs, -, hp⟩ hw h
  rcases step_cases h with ⟨a, ha, rfl⟩ | ⟨hr, h | ⟨i, u, hu, he⟩⟩
  · have ready : Ready .decode s := hp (by simp [ha])
    intro _ hm
    rw [(resume_inSession ready hp).cfg, ready.2] at hm
    cases hm
  · exact hostSide_wholeFrames h hw
  · refine exec_wholeFrames (fun hc => ?_) (hostSide_wholeFrames hu hw) he
    rw [hu.status] at hc
    have same := sameSession_of_hostSide hu hc
    rw [same.cfg, same.derived, same.params, same.tables]
    exact hs hc

end Sys2Proof.Proofs.WholeOutput
end

section
/-! PROOF. The bytes of a frame and of a sample (R63, R65). -/

namespace Sys2Proof.Proofs.Samples

open Sys2Proof Sys2Proof.Machine Sys2Proof.Safety Sys2Proof.Laws

/-! ## Bytes -/

theorem getElem?_bytesOfWord {n k : Nat} (h : k < n) (w : Word) :
    (bytesOfWord n w)[k]? = some (w.extractLsb' (8 * k) 8) := by
  have byte : BitVec.ofNat 8 (w.toNat / 256 ^ k) = w.extractLsb' (8 * k) 8 := by
    apply BitVec.eq_of_toNat_eq
    rw [BitVec.extractLsb'_toNat, BitVec.toNat_ofNat, Nat.shiftRight_eq_div_pow, Nat.pow_mul]
  simp [bytesOfWord, h, byte]

/-- Copy `j` of a list repeated end to end. -/
theorem getElem?_flatten_replicate {α : Type} {l : List α} {n j k : Nat} (hj : j < n) (hk : k < l.length) :
    (List.replicate n l).flatten[j * l.length + k]? = l[k]? := by
  induction j generalizing n with
  | zero =>
    obtain ⟨n, rfl⟩ : ∃ m, n = m + 1 := ⟨n - 1, by omega⟩
    rw [List.replicate_succ, List.flatten_cons, Nat.zero_mul, Nat.zero_add, List.getElem?_append_left hk]
  | succ j ih =>
    obtain ⟨n, rfl⟩ : ∃ m, n = m + 1 := ⟨n - 1, by omega⟩
    rw [List.replicate_succ, List.flatten_cons, List.getElem?_append_right (by rw [Nat.succ_mul]; omega),
      show (j + 1) * l.length + k - l.length = j * l.length + k by rw [Nat.succ_mul]; omega]
    exact ih (by omega)

/-- Settles O19: a frame is the bytes of the level, once per channel. -/
theorem encodedFrameBytes : Obligations.EncodedFrameBytes := by
  intro c v _
  refine ⟨encodeFrame_length c v, fun ch k hch hk => ?_⟩
  have len : (bytesOfWord (c.bits / 8) v).length = c.bits / 8 := bytesOfWord_length _ v
  have copy := getElem?_flatten_replicate hch (hk.trans_eq len.symm)
  rw [len] at copy
  exact copy.trans (getElem?_bytesOfWord hk v)

/-! ## Samples -/

/-- The bytes of a level's image stand for the level modulo `2^bits` (R34, R65). -/
theorem natOfBytes_levelImage {bits : Nat} (h : bits ∈ [8, 16, 24, 32]) (v : Int) :
    BitVec.ofNat bits (natOfBytes (bytesOfWord (bits / 8) (levelImage v))) = BitVec.ofInt bits v := by
  obtain ⟨width, bound⟩ := (by decide : ∀ n ∈ [8, 16, 24, 32], 256 ^ (n / 8) = 2 ^ n ∧ n ≤ 32) bits h
  have dvd : (2 : Int) ^ bits ∣ 2 ^ 32 := pow_dvd_pow 2 bound
  apply BitVec.eq_of_toNat_eq
  rw [natOfBytes_bytesOfWord, width, levelImage, BitVec.toNat_ofNat, BitVec.toNat_ofInt, BitVec.toNat_ofInt,
    Nat.mod_mod]
  zify
  push_cast
  rw [Int.toNat_of_nonneg (Int.emod_nonneg v (by positivity)),
    Int.toNat_of_nonneg (Int.emod_nonneg v (by positivity))]
  exact Int.emod_emod_of_dvd v dvd

/-- Settles O20: reading the bytes back is reading the low bits of the level's image. -/
theorem pcmRoundTrip : Obligations.PcmRoundTrip := by
  refine ⟨fun v h0 h1 => ?_, fun bits hb v hlo hhi => ?_⟩
  · have byte := congrArg BitVec.toNat (natOfBytes_levelImage (bits := 8) (by decide) v)
    have bound := natOfBytes_lt (bytesOfWord 1 (levelImage v))
    rw [bytesOfWord_length] at bound
    rw [BitVec.toNat_ofNat, BitVec.toNat_ofInt] at byte
    have value : natOfBytes (bytesOfWord 1 (levelImage v)) = v.toNat :=
      calc _ = _ % 2 ^ 8 := (Nat.mod_eq_of_lt bound).symm
        _ = (v % 2 ^ 8).toNat := byte
        _ = v.toNat := by omega
    rw [sampleOf, if_pos rfl, value, Int.toNat_of_nonneg h0]
  · obtain ⟨h8, hpos⟩ := (by decide : ∀ n ∈ [16, 24, 32], n ≠ 8 ∧ 0 < n) bits hb
    rw [sampleOf, if_neg h8, sext, natOfBytes_levelImage (List.mem_cons_of_mem _ hb)]
    exact BitVec.toInt_ofInt_eq_self hpos hlo hhi

end Sys2Proof.Proofs.Samples
end

section
/-! PROOF. What can write `DST` (R71, R205), and the canonical form of its memory. -/

namespace Sys2Proof.Proofs.Destination

open Sys2Proof Sys2Proof.Machine Sys2Proof.Safety Sys2Proof.Laws

theorem measureEnd_dst {a : Activity} {s t : State} (h : MeasureEnd a s t) : t.dst = s.dst :=
  measure_keeps State.dst h (fun _ hu => congrArg State.dst hu :) (fun _ _ => rfl) (fun _ => rfl) fun _ => rfl

theorem emissionEnd_dst {i : Instr} {s t : State} (h : EmissionEnd i s t) : t.dst = s.dst :=
  emission_keeps State.dst h (by simp [wrote, ran]) (by simp [wrote, ran])

/-- What every decoder transition keeps of the decoder side, a block-load attempt leaves of the buffer. -/
theorem blockEnd_decoderSide {s t : State} (h : BlockEnd s t) (P : DecRegs → Memory → Prop)
    (hd : ∀ (u : State) (p : Pulse), P u.dec u.dst → P (u.decStep p).dec (u.decStep p).dst) (hs : P s.dec s.dst) :
    P t.dec t.dst := by
  obtain ⟨u, -, keeps, ht⟩ := h
  have hu : P u.dec u.dst := keeps (fun v => P v.dec v.dst) (fun _ _ _ _ _ h => h) hd hs
  rcases ht with ⟨rfl, -⟩ | rfl | rfl <;> simpa using hu

/-- An attempt writes no byte at its capacity or above (R71, R205). -/
theorem blockEnd_dst {s t : State} (h : BlockEnd s t) :
    ∀ a, s.dec.cap.toNat ≤ a → t.dst.read a = s.dst.read a := by
  have kept := blockEnd_decoderSide h
    (fun d m => d.cap = s.dec.cap ∧ ∀ a, s.dec.cap.toNat ≤ a → m.read a = s.dst.read a)
    (fun u p ⟨hcap, hread⟩ => by
      obtain ⟨cap, read⟩ := decStep_dst u p
      exact ⟨cap.trans hcap, fun a ha => (read a (.inr (hcap ▸ ha))).trans (hread a ha)⟩)
    ⟨rfl, fun _ _ => rfl⟩
  exact kept.2

/-- Only `DEC.STEP` and `DEC.BLOCK` write `DST` (R71). -/
theorem effect_dst {i : Instr} {s t : State} (h : Effect i s t) (hs : i ≠ .decStep) (hb : i ≠ .decBlock) :
    t.dst = s.dst := by
  cases i
  case decStep => exact absurd rfl hs
  case decBlock => exact absurd rfl hb
  case openSession =>
    obtain ⟨-, ⟨e, -, rfl⟩ | ⟨-, rfl⟩⟩ := h
    · rfl
    · rw [opened_frame]; rfl
  case closeSession =>
    cases h
    simp only [setSession_dst, setResNat_eq, setRes_dst]
    rw [handBack_frame]; rfl
  case tmScale | tmUnscale | tmTol | decClassify =>
    obtain ⟨r, rfl⟩ := h
    rfl
  case encLevels | encCount =>
    obtain ⟨r, rh, rfl⟩ := h
    rfl
  case encFrame | encSilence | encCycle | encPilot | encByte | encBlock => exact emissionEnd_dst h
  case clsSample => exact measureEnd_dst (s := s.setCmd .clsSample) h
  case clsPulse => exact measureEnd_dst (s := (s.setCmd .clsPulse).startPulse) h
  case fltClear | decReset =>
    cases h
    rfl

/-- Settles O49: a transition writes at most the byte at `DEC_COUNT`, below a capacity that it keeps. -/
theorem destinationWrites : Obligations.DestinationWrites := by
  intro i s t h
  rcases exec_cases h with ⟨r, rfl⟩ | ⟨-, he⟩
  · exact ⟨fun _ _ => rfl, fun _ _ _ => rfl, fun _ _ _ => rfl⟩
  refine ⟨effect_dst he, ?_, ?_⟩
  · rintro rfl
    exact blockEnd_dst he
  · rintro rfl a ha
    obtain ⟨p, rfl⟩ := he
    rw [setResNat_eq, setRes_dst]
    exact (decStep_dst (ran .decStep s) p).2 a ha

/-! ## The canonical form -/

theorem blockEnd_memoryCanonical {s t : State} (h : BlockEnd s t) (hw : MemoryCanonical s) : MemoryCanonical t :=
  blockEnd_decoderSide h (fun _ m => Memory.wf m = true) decStep_wf hw

theorem exec_memoryCanonical {i : Instr} {s t : State} (hw : MemoryCanonical s) (h : exec i s = .next t) :
    MemoryCanonical t := by
  rcases exec_cases h with ⟨r, rfl⟩ | ⟨-, he⟩
  · exact hw
  by_cases hs : i = .decStep
  · subst hs
    obtain ⟨p, rfl⟩ := he
    rw [MemoryCanonical, setResNat_eq, setRes_dst]
    exact decStep_wf (ran .decStep s) p hw
  by_cases hb : i = .decBlock
  · subst hb
    exact blockEnd_memoryCanonical he hw
  · unfold MemoryCanonical
    rwa [effect_dst he hs hb]

theorem resume_memoryCanonical (a : Activity) {s : State} (hw : MemoryCanonical s) : MemoryCanonical (a.resume s) := by
  obtain ⟨u, hu, h⟩ := resume_cases a s
  have hwu : MemoryCanonical u := by rw [hu]; exact hw
  rcases h with ⟨b, -, h⟩ | ⟨-, h⟩ | h
  · unfold MemoryCanonical
    rwa [measureEnd_dst h]
  · exact blockEnd_memoryCanonical h hwu
  · rw [h]
    exact hw

/-- Settles O57: the host's accesses, the decoder's transitions and the commands that leave `DST` alone each keep the
form. -/
theorem stepKeepsMemoryCanonical : Obligations.StepKeepsMemoryCanonical := by
  intro s t hw h
  rcases step_cases h with ⟨a, -, rfl⟩ | ⟨-, h | ⟨i, u, hu, he⟩⟩
  · exact resume_memoryCanonical a hw
  · exact h.dst hw
  · exact exec_memoryCanonical (hu.dst hw) he

end Sys2Proof.Proofs.Destination
end

section
/-! PROOF. A command in progress and the free answers of the input oracle (R61, R188, R255). -/

namespace Sys2Proof.Proofs.Waiting

open Sys2Proof Sys2Proof.Machine Sys2Proof.Safety Sys2Proof.Laws

/-- The bytes of an answer complete a frame of at most 8 bytes (R35). -/
theorem length_append_answer {n : Nat} {bytes : List Byte} (bits : BitVec 64) (hl : bytes.length < n) (h8 : n ≤ 8) :
    (bytes ++ (bytesOfAnswer bits).take (n - bytes.length)).length = n := by
  have eight : (bytesOfAnswer bits).length = 8 := by simp [bytesOfAnswer]
  rw [List.length_append, List.length_take, eight]
  omega

/-- `s` after this answer of the input oracle to a read it owes (R61; log 3). -/
def answered (s : State) (answer : InputAnswer) : State :=
  { s with
    inp := match answer with
      | .wait => s.inp
      | .frame bits =>
        ⟨s.inp.bytes ++ (bytesOfAnswer bits).take (s.derived.frameBytes - s.inp.bytes.length), s.inp.tail⟩
      | .eos => ⟨s.inp.bytes, .eos⟩
      | .fail => ⟨s.inp.bytes, .fails⟩
    draws := s.draws + 1 }

/-- A command in progress at a read the oracle owes goes on with the oracle's answer. -/
theorem step_answered {s : State} {a : Activity} (hr : s.running = some a) (ht : s.inp.tail = .oracle)
    (hl : s.inp.bytes.length < s.derived.frameBytes) :
    step s = .next ((a.go (answered s (Config.inputAnswer s.draws))).settle s) := by
  rw [step_running s a hr, askInput_owed s ht hl]
  rfl

/-- Settles O38: the oracle is asked, and the command goes on with its answer. -/
theorem oracleAnswersBlockedRead : Obligations.OracleAnswersBlockedRead := by
  intro s a hr ht hl h8 hw
  have go := step_answered hr ht hl
  cases hans : Config.inputAnswer s.draws <;> rw [hans] at go
  case wait =>
    rw [go_oracle a (answered s .wait) hl ht, Run.settle, ← hr] at go
    exact go
  case frame bits =>
    have fits (n : Nat) : PcntFits s n := by simp only [PcntFits, pcntOverflows, hw]
    obtain ⟨v, hv, hpos⟩ := go_frame a (answered s (.frame bits)) (length_append_answer bits hl h8)
      (Nat.zero_lt_of_lt hl) ht (fits _)
    rcases hv with hv | ⟨b, hv⟩ <;> rw [hv] at go <;> exact ⟨_, go, hpos⟩
  case eos =>
    obtain ⟨v, hv, hpos, hsess, hinp⟩ := go_eos a (answered s .eos) hl rfl
    rw [hv] at go
    exact ⟨_, go, rfl, hpos, hsess, hinp⟩
  case fail =>
    obtain ⟨v, hv, hpos, hedge, hsess, herr, hio⟩ := go_fails a (answered s .fail) hl rfl
    rw [hv] at go
    exact ⟨_, go, rfl, hpos, hedge, hsess, herr, hio⟩

end Sys2Proof.Proofs.Waiting
end

section
/-! PROOF. The command words and their decoder (R90, R92, R93, R99), and the write of a reserved word to `CMD`. -/

namespace Sys2Proof.Proofs.Encoding

open Sys2Proof Sys2Proof.Machine Sys2Proof.Safety Sys2Proof.Laws

/-! ## One word -/

/-- The facts of Laws/PerInstr.lean, for every command. -/
theorem statement_all (i : Instr) : F.Statement i := by
  cases i
  exacts [F.openSession, F.closeSession, F.tmScale, F.tmUnscale, F.tmTol, F.encLevels, F.encFrame, F.encSilence,
    F.encCycle, F.encPilot, F.encByte, F.encBlock, F.encCount, F.clsSample, F.fltClear, F.clsPulse, F.decReset,
    F.decStep, F.decClassify, F.decBlock]

/-- The opcode map has one word for each command (R92). -/
theorem decode_eq_ok_iff {w : Byte} {i : Instr} : decode w = .ok i ↔ w = i.code := by
  obtain ⟨-, -, -, h⟩ := statement_all i
  exact h w

/-- The four families of command words (R92). -/
theorem code_ranges (i : Instr) :
    (0x01 ≤ i.code.toNat ∧ i.code.toNat ≤ 0x05) ∨ (0x10 ≤ i.code.toNat ∧ i.code.toNat ≤ 0x17) ∨
      (0x20 ≤ i.code.toNat ∧ i.code.toNat ≤ 0x22) ∨ (0x30 ≤ i.code.toNat ∧ i.code.toNat ≤ 0x33) := by
  cases i <;> decide

/-- Settles O2: each word is the code of its row's command. -/
theorem wordsSelectTheirRows : Obligations.WordsSelectTheirRows :=
  ⟨decode_eq_ok_iff.2 rfl, decode_eq_ok_iff.2 rfl, decode_eq_ok_iff.2 rfl, decode_eq_ok_iff.2 rfl⟩

/-! ## Programs -/

/-- A program's commands are those of its words, one each (R90). -/
theorem decodeProgram_cons_eq_ok_iff {w : Byte} {ws : List Byte} {is : List Instr} :
    decodeProgram (w :: ws) = .ok is ↔ ∃ i js, decode w = .ok i ∧ decodeProgram ws = .ok js ∧ is = i :: js := by
  rw [decodeProgram]
  cases decode w with
  | error e => simp
  | ok i => cases decodeProgram ws <;> simp [eq_comm]

theorem decodeProgram_eq_ok_iff (ws : List Byte) : ∀ is : List Instr,
    decodeProgram ws = .ok is ↔ ws = is.flatMap encode := by
  induction ws with
  | nil =>
    intro is
    cases is <;> simp [decodeProgram, encode]
  | cons w ws ih =>
    intro is
    rw [decodeProgram_cons_eq_ok_iff]
    cases is with
    | nil => simp
    | cons i is => simp [decode_eq_ok_iff, ih, encode]

/-- Settles O1: by induction on the bytes; a command has one word, and no other word decodes to it. -/
theorem decodeEncodePrograms : Obligations.DecodeEncodePrograms := fun is ws _ => decodeProgram_eq_ok_iff ws is

/-! ## Reserved words -/

/-- A reserved value is no command's word (R93). -/
theorem decode_ne_ok_of_reserved {w : Byte}
    (h : w.toNat = 0x00 ∨ (0x06 ≤ w.toNat ∧ w.toNat ≤ 0x0F) ∨ (0x18 ≤ w.toNat ∧ w.toNat ≤ 0x1F) ∨
      (0x23 ≤ w.toNat ∧ w.toNat ≤ 0x2F) ∨ 0x34 ≤ w.toNat) (i : Instr) : decode w ≠ .ok i := by
  intro hd
  have ranges := code_ranges i
  rw [← decode_eq_ok_iff.1 hd] at ranges
  omega

/-- The write of a word that selects no command is refused (R93). -/
theorem writeCmd_of_no_command {s : State} {v : Word} (h : ∀ i, decode (BitVec.ofNat 8 v.toNat) ≠ .ok i) :
    s.writeCmd v = .next (s.refuse (.reservedCommand (BitVec.ofNat 8 v.toNat))) := by
  unfold State.writeCmd
  cases hd : decode (BitVec.ofNat 8 v.toNat) with
  | ok i => exact absurd hd (h i)
  | error e => rfl

/-- Settles O4: the host's next access is a write that selects no command, and a refusal sets the mark alone. -/
theorem reservedCommandRefused : Obligations.ReservedCommandRefused := by
  intro s v rest hr hq hl hres
  have low : (BitVec.ofNat 8 v.toNat).toNat = v.toNat % 256 := BitVec.toNat_ofNat _ _
  have refused := writeCmd_of_no_command (s := { s with queue := rest })
    (decode_ne_ok_of_reserved (w := BitVec.ofNat 8 v.toNat) (by rw [low]; exact hres))
  exact ⟨_, (step_host hr hq hl).trans refused, refuse_ne_none _ _, rfl, rfl⟩

end Sys2Proof.Proofs.Encoding
end

section
/-! PROOF. What refuses a command: its session and mode preconditions (R94), an operand it does not admit (R95, R70),
and a counter that would exceed its width (R12). -/

namespace Sys2Proof.Proofs.Refusals

open Sys2Proof Sys2Proof.Machine Sys2Proof.Safety Sys2Proof.Laws

/-! ## Preconditions -/

section Preconditions

variable {i : Instr} {s : State}

theorem exec_of_wrong_session (h : sessionOk i s.status.session = false) :
    exec i s = .next (s.refuse .sessionPrecondition) :=
  exec_refused i s _ (preRefusal_session i s h)

theorem exec_of_wrong_mode {m : Mode} (h : sessionOk i s.status.session = true) (hm : modeNeeded i = some m)
    (hne : s.cfg.mode ≠ m) : exec i s = .next (s.refuse .modePrecondition) :=
  exec_refused i s _ (preRefusal_mode i s m h hm hne)

/-- A command of one session kind is admitted in an open session (R94). -/
theorem sessionOk_opened {m : Mode} (h : modeNeeded i = some m) : sessionOk i .opened = true := by
  cases i with
  | openSession => cases h
  | _ => rfl

/-- A command of one session kind, in an open session of the other kind (R94). -/
theorem exec_opened_of_wrong_mode {m : Mode} (ho : s.status.session = .opened) (hm : modeNeeded i = some m)
    (hne : s.cfg.mode ≠ m) : exec i s = .next (s.refuse .modePrecondition) :=
  exec_of_wrong_mode (by rw [ho]; exact sessionOk_opened hm) hm hne

end Preconditions

/-- Settles O5: the session states and the session kind that each group of commands needs. -/
theorem preconditionsRefuse : Obligations.PreconditionsRefuse := by
  intro s
  refine ⟨fun h => exec_of_wrong_session ?_, fun i hi h => exec_of_wrong_session ?_,
    fun i hi h => exec_of_wrong_session ?_, fun i hi ho hm => exec_opened_of_wrong_mode (m := .encode) ho ?_ ?_,
    fun h hm => exec_of_wrong_mode (m := .encode) ?_ rfl ?_,
    fun i hi ho hm => exec_opened_of_wrong_mode (m := .decode) ho ?_ ?_⟩
  · simpa [sessionOk] using h
  · rw [h]
    revert i
    decide
  · have admitted : sessionOk i s.status.session = (s.status.session == .opened) := by
      revert i
      cases s.status.session <;> decide
    simpa [admitted] using h
  · revert i
    decide
  · simp [hm]
  · cases hs : s.status.session with
    | closed => exact absurd hs h
    | opened | aborted => rfl
  · simp [hm]
  · revert i
    decide
  · simp [hm]

/-! ## Operands -/

/-- The level selector 3 selects no level (R95). -/
theorem levelSelector_three {a : Word} (h : a.toNat % 4 = 3) (d : Derived) : levelSelector a d = none := by
  simp [levelSelector, h]

/-- The values 5 to 7 name no symbol (R30, R95). -/
theorem symbolOperand_above_four {a : Word} (h : 4 < a.toNat % 8) : symbolOperand a = none := by
  have past : a.toNat % 8 = 5 ∨ a.toNat % 8 = 6 ∨ a.toNat % 8 = 7 := by omega
  rcases past with h | h | h <;> simp [symbolOperand, h]

theorem srcOperand_past_end {src : List Byte} {off len : Word} (h : src.length < off.toNat + len.toNat) :
    srcOperand src off len = none := if_neg (by omega)

/-- An `EOS` image with width bits is no pulse (R95). -/
theorem pulseOperand_eos_with_width {a : Word} (he : a.getLsbD 31 = true) (hw : a.toNat % 2 ^ 31 ≠ 0) :
    pulseOperand a = none := by
  have high : 2 ^ 31 ≤ a.toNat := by
    by_contra hlt
    rw [BitVec.getLsbD, Nat.testBit_lt_two_pow (by omega)] at he
    cases he
  unfold pulseOperand
  rw [if_neg (by omega), if_neg (by omega)]

/-! ## Counters -/

/-- A command that emits frames needs an ENCODE session (R94). -/
theorem admitted_of_emission {i : Instr} {s : State} {e : Emission} (hr : Ready .encode s)
    (he : emissionOf i s = some e) : preRefusal i s = none := by
  cases i
  case encFrame | encSilence | encCycle | encPilot | encByte | encBlock =>
    exact preRefusal_ready _ s .encode hr (by decide) (.inr rfl)
  all_goals cases he

/-- The width of `ENC_COUNT` refuses an emission (R12). -/
theorem exec_of_emit_overflow {i : Instr} {s : State} {fs : List Frame} (hr : Ready .encode s)
    (hfs : emissionFrames i s = some fs) (ho : (s.setCmd i).emit fs = .overflow) :
    exec i s = .next (s.refuse .counterOverflow) := by
  obtain ⟨e, he, rfl⟩ := Option.map_eq_some_iff.1 hfs
  exact exec_emission_overflow (admitted_of_emission hr he) he ho

theorem nextFrames_singleton {s : State} {f : Frame} {rest : List Byte} (hb : s.inp.bytes = f ++ rest)
    (hf : f.length = s.derived.frameBytes) : NextFrames s [f] rest := by
  simp [NextFrames, hb, hf]

/-- The frame past the width of `PCNT` refuses `CLS.PULSE` (R12, R182). -/
theorem exec_clsPulse_overflow {s : State} {fs : List Frame} {f : Frame} {rest : List Byte} {tail : List Region}
    {ph : Phase} {k : Nat} (h : preRefusal .clsPulse s = none) (hn : NextFrames s fs (f ++ rest))
    (hf : f.length = s.derived.frameBytes) (hk : s.readFuel = fs.length + (k + 1)) (hreg : (scanRegions s fs).1 = tail)
    (htail : ScansTo ph tail) (hp : PcntFits s tail.length) (ho : ¬PcntFits s (tail.length + 1)) :
    exec .clsPulse s = .next (s.refuse .counterOverflow) := by
  have hlen : tail.length = fs.length := by rw [← hreg, scanRegions_length]
  rw [hlen] at hp ho
  obtain ⟨u, hu⟩ : ∃ u, u = (s.setCmd .clsPulse).startPulse := ⟨_, rfl⟩
  have hsc := scanRegions_congr fs s u (by rw [hu]; rfl) (by rw [hu]; rfl) (by rw [hu]; rfl)
  have counts := (loops_count fs u (f ++ rest) ph (k + 1) (by rw [hu]; exact hn)
    (by rw [hu]; show PcntFits s (0 + fs.length); rwa [Nat.zero_add])
    (by rw [hsc.1, hreg, hu]; exact phaseAfter_scansTo ph tail htail)).1
  have overflows := (loops_overflow (counted u fs ph (f ++ rest)) f rest k
    (nextFrames_singleton rfl (by rw [hu]; exact hf))
    (by rw [hu]; show ¬PcntFits s (0 + fs.length + 1); rwa [Nat.zero_add])).1
  rw [exec_clsPulse h, hk, ← hu, counts, overflows]
  rfl

/-- The frame past the width of `PCNT`, after complete pulses, refuses `DEC.BLOCK` (R12, R207). -/
theorem exec_decBlock_overflow {s : State} {fs : List Frame} {f : Frame} {rest : List Byte}
    {pulses : List (List Region)} {tail : List Region} {ph : Phase} {k : Nat} (h : preRefusal .decBlock s = none)
    (hn : NextFrames s fs (f ++ rest)) (hf : f.length = s.derived.frameBytes)
    (hk : s.readFuel = fs.length + (k + 1)) (hreg : (scanRegions s fs).1 = pulses.flatten ++ tail)
    (hall : ∀ p ∈ pulses, OnePulse p ∧ PcntFits s p.length) (htail : ScansTo ph tail) (hp : PcntFits s tail.length)
    (ho : ¬PcntFits s (tail.length + 1)) (hd : (afterPulses s pulses).status.dstate ≠ .done) :
    exec .decBlock s = .next (s.refuse .counterOverflow) := by
  obtain ⟨d, counts⟩ := exec_decBlock_counts fs (f ++ rest) pulses tail ph (k + 1) h hn hk hreg hall htail hp hd
  have frame := afterPulses_frame s pulses
  rw [counts, (loops_overflow _ f rest k (nextFrames_singleton rfl ?_) ?_).2]
  · rfl
  · rw [frame]
    exact hf
  · rw [frame]
    exact ho

/-- Settles O6: what each operand selects, and the counters' overflow in the loops that count. -/
theorem operandsAndOverflowsRefused : Obligations.OperandsAndOverflowsRefused := by
  refine ⟨fun s ho => ⟨fun hm h => ?_, fun hm h => ?_, fun hm h => ?_, fun hm he hw => ?_⟩,
    fun i s fs k f hr hfs hf hs hc => ?_, fun i s fs k taken f hr hfs hs hf hc => ?_,
    fun s fs f rest pulses tail ph hr hpos hn hreg hall htail hp hover => ?_⟩
  · rw [exec_encFrame (preRefusal_ready _ s .encode ⟨ho, hm⟩ (by decide) (.inr rfl)), levelSelector_three h]
  · rw [exec_encCycle (preRefusal_ready _ s .encode ⟨ho, hm⟩ (by decide) (.inr rfl)), symbolOperand_above_four h]
  · rw [exec_encBlock (preRefusal_ready _ s .encode ⟨ho, hm⟩ (by decide) (.inr rfl)), srcOperand_past_end h]
  · have notAdmitted := pulseOperand_eos_with_width he hw
    rw [exec_decStep (preRefusal_ready _ s .decode ⟨ho, hm⟩ (by decide) (.inr rfl)),
      exec_decClassify (preRefusal_ready _ s .decode ⟨ho, hm⟩ (by decide) (.inr rfl)), notAdmitted]
    exact ⟨rfl, rfl⟩
  · exact exec_of_emit_overflow hr hfs (emit_overflow fs (s.setCmd i) k f hf hs hc)
  · exact exec_of_emit_overflow hr hfs (emit_fail_overflow fs (s.setCmd i) k taken f hs hf hc)
  · obtain ⟨hb, hlen⟩ := hn
    have next : NextFrames s fs (f ++ rest) := ⟨by rw [hb]; simp, fun g hg => hlen g (by simp [hg])⟩
    have hf : f.length = s.derived.frameBytes := hlen f (by simp)
    obtain ⟨k, hk⟩ : ∃ k, s.readFuel = fs.length + (k + 1) := by
      have enough := nextFrames_length s (fs ++ [f]) rest ⟨hb, hlen⟩ hpos
      rw [List.length_append, List.length_singleton] at enough
      exact ⟨s.inp.bytes.length - fs.length, by unfold State.readFuel; omega⟩
    refine ⟨fun hnil => ?_, fun hd => ?_⟩
    · subst hnil
      exact exec_clsPulse_overflow (preRefusal_ready _ s .decode hr (by decide) (.inr rfl)) next hf hk
        (by simpa using hreg) htail hp hover
    · exact exec_decBlock_overflow (preRefusal_ready _ s .decode hr (by decide) (.inr rfl)) next hf hk hreg hall htail
        hp hover hd

end Sys2Proof.Proofs.Refusals
end

section
/-! PROOF. The timing model (R15, R110 to R116, R131 to R134): the timing commands, the derived registers, and the
round trip from samples to cycles. -/

namespace Sys2Proof.Proofs.Timing

open Sys2Proof Sys2Proof.Machine Sys2Proof.Safety Sys2Proof.Laws

/-! ## Commands -/

/-- A command of any session kind needs an open session only (R94). -/
theorem admitted_of_opened {i : Instr} {s : State} (ho : s.status.session = .opened) (hi : i ≠ .openSession)
    (hm : modeNeeded i = none) : preRefusal i s = none :=
  preRefusal_ready i s s.cfg.mode ⟨ho, rfl⟩ hi (.inl hm)

/-- Settles O13: the half-up quotient is the one that `scale` computes. -/
theorem tmScaleRounds : Obligations.TmScaleRounds := by
  refine ⟨rfl, fun s n ho hclk _ hn => ?_⟩
  have result : n = scale s.params.clk s.cfg.rateNat s.io.arg0.toNat := (scale_halfUp _ _ _ hclk).2 n hn
  rw [exec_tmScale (admitted_of_opened ho (by decide) rfl), ← result, timed]

/-- Settles O14: the half-up quotient is the one that `unscale` computes. -/
theorem tmUnscaleRounds : Obligations.TmUnscaleRounds := by
  refine ⟨rfl, fun s n ho _ hrate hn => ?_⟩
  have positive : 0 < s.cfg.rateNat := Int.lt_toNat.2 hrate
  have result : n = unscale s.params.clk s.cfg.rateNat s.io.arg0.toNat := (unscale_halfUp _ _ _ positive).2 n hn
  rw [exec_tmUnscale (admitted_of_opened ho (by decide) rfl), ← result, timed]

/-- Settles O15: the exact half is the doubled denominator. -/
theorem tmTolRoundsExactHalf : Obligations.TmTolRoundsExactHalf := by
  intro s n ho hclk _ hn
  have result : n = tolerance s.params.clk s.cfg.rateNat s.io.arg0.toNat := (tolerance_halfUp _ _ _ hclk).2 n hn
  rw [exec_tmTol (admitted_of_opened ho (by decide) rfl), ← result, timed]

/-! ## Stability -/

/-- A whole quotient is its own rounding. -/
theorem halfUp_mul_self {d : Nat} (hd : 0 < d) (n : Nat) : HalfUp (n * d) d n := by
  constructor <;> linarith

/-- Samples to cycles to samples (R116). With a clock faster than the rate, half a cycle of rounding is less than half a
sample; at equal speeds nothing is rounded. -/
theorem scale_unscale {clk rate : Nat} (hrate : 0 < rate) (hle : rate ≤ clk) (n : Nat) :
    scale clk rate (unscale clk rate n) = n := by
  have hclk : 0 < clk := hrate.trans_le hle
  refine ((scale_halfUp clk rate _ hclk).2 n ?_).symm
  rcases hle.eq_or_lt with rfl | hlt
  · rw [← (unscale_halfUp rate rate n hrate).2 n (halfUp_mul_self hrate n)]
    exact halfUp_mul_self hrate n
  · obtain ⟨lower, upper⟩ := (unscale_halfUp clk rate n hrate).1
    constructor <;> linarith

/-- Settles O16: the second part is the first at a number of samples that came from cycles. -/
theorem timingStability : Obligations.TimingStability := fun _ _ n _ hrate hle =>
  ⟨scale_unscale hrate hle n, scale_unscale hrate hle _⟩

/-! ## Levels -/

/-- A percentage of an integer, rounded half up, in integers (R15). -/
theorem roundHalfUp_percent (m : Int) (v : Nat) : roundHalfUp ((m : Rat) * v / 100) = (2 * m * v + 100) / 200 := by
  have quotient : (m : Rat) * v / 100 + 1 / 2 = ((2 * m * v + 100 : Int) : Rat) / (200 : Nat) := by
    push_cast
    ring
  calc roundHalfUp ((m : Rat) * v / 100) = ⌊(m : Rat) * v / 100 + 1 / 2⌋ := rfl
    _ = ⌊((2 * m * v + 100 : Int) : Rat) / (200 : Nat)⌋ := by rw [quotient]
    _ = (2 * m * v + 100) / 200 := Rat.floor_intCast_div_natCast _ _

/-- The levels of 8-bit samples in integers (R132, R133). -/
theorem levels_unsigned (v : Nat) :
    levels 8 v = ⟨128 + (2 * 127 * v + 100) / 200, 129 - (2 * 127 * v + 100) / 200, 128⟩ := by
  have percent : roundHalfUp ((127 : Rat) * v / 100) = (2 * 127 * v + 100) / 200 := by
    simpa only [Int.cast_ofNat] using roundHalfUp_percent 127 v
  rw [levels, if_pos rfl, percent]

/-- The levels of signed samples in integers (R131, R133). -/
theorem levels_signed {bits : Nat} (h : bits ≠ 8) (v : Nat) : levels bits v =
    ⟨(2 * (2 ^ (bits - 1) - 1) * v + 100) / 200, -((2 * (2 ^ (bits - 1) - 1) * v + 100) / 200) + 1, 0⟩ := by
  have percent := roundHalfUp_percent (2 ^ (bits - 1) - 1) v
  push_cast at percent
  rw [levels, if_neg h, percent]

end Sys2Proof.Proofs.Timing
end

section
/-! PROOF. `OPEN` and `CLOSE` (R117 to R120), the registers a session starts with (R51), and the end of a run (R295). -/

namespace Sys2Proof.Proofs.OpenClose

open Sys2Proof Sys2Proof.Machine Sys2Proof.Safety Sys2Proof.Laws Sys2Proof.Proofs.Timing

/-! ## OPEN -/

section Opening

variable {s : State}

/-- `OPEN` needs a CLOSED session only (R94). -/
theorem open_admitted (hs : s.status.session = .closed) : preRefusal .openSession s = none :=
  (preRefusal_none_iff _ _).2 ⟨by rw [hs]; rfl, nofun⟩

theorem exec_openSession_unconfigured (hs : s.status.session = .closed) (hw : s.cfg.allWritten = false) :
    exec .openSession s = .next (s.refuse .openUnconfigured) := by
  rw [exec_openSession (open_admitted hs), if_pos hw]

theorem exec_openSession_fails (hs : s.status.session = .closed) (hw : s.cfg.allWritten = true) {e : ErrCode}
    (he : s.cfg.configError = some e) : exec .openSession s = .next ((ran .openSession s).setErr e) := by
  rw [exec_openSession (open_admitted hs), hw, he]
  rfl

theorem exec_openSession_opens (hs : s.status.session = .closed) (hw : s.cfg.allWritten = true)
    (he : s.cfg.configError = none) :
    exec .openSession s = .next { (s.setCmd .openSession).opened with running := none } := by
  rw [exec_openSession (open_admitted hs), hw, he]
  rfl

end Opening

/-- The checks of R118 in their order, each by the condition that passes it. -/
theorem configError_eq (c : CfgRegs) : c.configError =
    if 0 < c.rateHz then
      if c.bits = 8 ∨ c.bits = 16 ∨ c.bits = 24 ∨ c.bits = 32 then
        if c.channels = 1 ∨ c.channels = 2 then
          if c.chsel ≠ 3 then
            if c.volume ≤ 100 then
              if -100 ≤ c.detect ∧ c.detect ≤ 100 then
                if c.hyst ≤ 100 then none else some .cfgHyst
              else some .cfgDetect
            else some .cfgVolume
          else some .cfgChsel
        else some .cfgChannels
      else some .cfgBits
    else some .cfgRate := by
  simp only [CfgRegs.configError, ← not_or, ← not_and_or, ← not_le, ite_not, ne_eq]

/-! The fields of the configuration as bits of their registers (R25 to R28). -/

section Fields

variable {c : CfgRegs} {w : Word}

theorem bits_eq (h : c.fmt = some w) : c.bits = (w.extractLsb' 0 6).toNat := by
  simp [CfgRegs.bits, CfgRegs.fmtNat, h]

theorem channels_eq (h : c.fmt = some w) : c.channels = (w.extractLsb' 8 2).toNat := by
  simp [CfgRegs.channels, CfgRegs.fmtNat, h, Nat.shiftRight_eq_div_pow]

theorem chsel_eq (h : c.fmt = some w) : c.chsel = (w.extractLsb' 10 2).toNat := by
  simp [CfgRegs.chsel, CfgRegs.fmtNat, h, Nat.shiftRight_eq_div_pow]

theorem volume_eq (h : c.vol = some w) : c.volume = (w.extractLsb' 0 8).toNat := by
  simp [CfgRegs.volume, h]

theorem detect_eq (h : c.det = some w) : c.detect = (w.extractLsb' 0 8).toInt := by
  rw [CfgRegs.detect, h]
  rfl

theorem hyst_eq (h : c.hys = some w) : c.hyst = (w.extractLsb' 0 8).toNat := by
  simp [CfgRegs.hyst, h]

end Fields

/-- Settles O8: `OPEN` ends by the first check of R118 that fails. -/
theorem openReportsFirstFailingCheck : Obligations.OpenReportsFirstFailingCheck := by
  refine ⟨fun s hs hnone => exec_openSession_unconfigured hs ?_, fun s rate fmt vol det hys ford hs hcfg => ?_⟩
  · rcases hnone with h | h | h | h | h | h <;> simp [CfgRegs.allWritten, h]
  have written : s.cfg.allWritten = true := by rw [hcfg]; rfl
  have checks := configError_eq s.cfg
  rw [show s.cfg.rateHz = rate.toInt by rw [hcfg]; rfl, bits_eq (w := fmt) (by rw [hcfg]),
    channels_eq (w := fmt) (by rw [hcfg]), chsel_eq (w := fmt) (by rw [hcfg]), volume_eq (w := vol) (by rw [hcfg]),
    detect_eq (w := det) (by rw [hcfg]), hyst_eq (w := hys) (by rw [hcfg])] at checks
  intro bits channels chsel volume detect hyst fails c1 c2 c3 c4 c5 c6 c7
  have failing {e : ErrCode} (h : s.cfg.configError = some e) : fails e := exec_openSession_fails hs written h
  refine ⟨fun h1 => failing ?_, fun h1 h2 => failing ?_, fun h1 h2 h3 => failing ?_, fun h1 h2 h3 h4 => failing ?_,
    fun h1 h2 h3 h4 h5 => failing ?_, fun h1 h2 h3 h4 h5 h6 => failing ?_, fun h1 h2 h3 h4 h5 h6 h7 => failing ?_,
    fun h1 h2 h3 h4 h5 h6 h7 => ⟨_, exec_openSession_opens hs written ?_, ?_⟩⟩
  · rw [checks, if_neg h1]
  · rw [checks, if_pos h1, if_neg h2]
  · rw [checks, if_pos h1, if_pos h2, if_neg h3]
  · rw [checks, if_pos h1, if_pos h2, if_pos h3, if_neg h4]
  · rw [checks, if_pos h1, if_pos h2, if_pos h3, if_pos h4, if_neg h5]
  · rw [checks, if_pos h1, if_pos h2, if_pos h3, if_pos h4, if_pos h5, if_neg h6]
  · rw [checks, if_pos h1, if_pos h2, if_pos h3, if_pos h4, if_pos h5, if_pos h6, if_neg h7]
  · rw [checks, if_pos h1, if_pos h2, if_pos h3, if_pos h4, if_pos h5, if_pos h6, if_pos h7]
  · rw [opened_frame]

/-- Settles O9: the registers of R51, and what `OPEN` takes and builds in each session kind. -/
theorem openEstablishesSession : Obligations.OpenEstablishesSession := by
  intro s hs hw he
  refine ⟨_, exec_openSession_opens hs hw he, ?_⟩
  rw [opened_frame]
  exact ⟨rfl, rfl, opened_encode (s.setCmd .openSession), opened_decode (s.setCmd .openSession),
    fun i => Vector.getElem_replicate i.isLt, rfl, rfl, rfl,
    rfl, rfl, rfl, rfl, rfl, rfl, rfl, rfl, rfl, rfl, rfl, rfl⟩

/-- Settles O12: the derived registers are `derive`'s, and each is its formula rounded. -/
theorem openRoundsDerivedRegisters : Obligations.OpenRoundsDerivedRegisters := by
  intro s hs hw he hclk
  obtain ⟨t, ht, -, derived, -⟩ := openEstablishesSession s hs hw he
  refine ⟨t, ht, ?_⟩
  rw [derived]
  refine ⟨fun y => ?_, (tolerance_halfUp _ _ _ hclk).1, silenceFrames_halfUp _ _, silenceFrames_halfUp _ _, rfl, rfl,
    fun h8 => ?_, fun h8 => ?_⟩
  · cases y <;> exact ⟨(scale_halfUp _ _ _ hclk).1, (scale_halfUp _ _ _ hclk).1, rfl⟩
  · simp only [derive, h8, levels_unsigned]
    exact ⟨rfl, rfl, rfl⟩
  · simp only [derive, levels_signed h8]
    exact ⟨rfl, rfl, rfl⟩

/-! ## CLOSE and the end of a run -/

theorem close_admitted {s : State} (hs : s.status.session = .opened ∨ s.status.session = .aborted) :
    preRefusal .closeSession s = none :=
  (preRefusal_none_iff _ _).2 ⟨by rcases hs with h | h <;> rw [h] <;> rfl, nofun⟩

/-- Where a run has ended (R295). -/
theorem hasEnded_iff (s : State) : s.hasEnded = true ↔
    s.queue = [] ∧ s.seq = none ∧ s.running = none ∧ s.status.session = .closed := by
  simp [State.hasEnded, and_assoc]

/-- Nothing moves after the end of a run. -/
theorem step_hasEnded {s : State} (h : s.hasEnded = true) : step s = .next s := by
  obtain ⟨hq, hseq, hr, -⟩ := (hasEnded_iff s).1 h
  simp only [step, State.advance, hr, hseq, hq]

theorem observeRun_hasEnded {s : State} (h : s.hasEnded = true) (n : Nat) : s.observeRun n = some (s.shown none) := by
  cases n <;> rw [State.observeRun, if_pos h]

/-- Settles O10: what each session kind hands back, and the end of a run after the last `CLOSE`. -/
theorem closeCompletes : Obligations.CloseCompletes := by
  refine ⟨fun s hs => ?_, hasEnded_iff, fun s n h => ⟨step_hasEnded h, observeRun_hasEnded h n⟩⟩
  have closes := exec_closeSession (close_admitted hs)
  refine ⟨fun hm => ?_, fun hm => ?_, fun hq hseq => ⟨_, closes, (hasEnded_iff _).2 ?_⟩⟩
  · rw [closes, State.handBack, show (ran .closeSession s).cfg.mode = .decode from hm]
    rfl
  · rw [closes, State.handBack, show (ran .closeSession s).cfg.mode = .encode from hm]
    rfl
  · rw [handBack_frame]
    exact ⟨hq, hseq, rfl, rfl⟩

end Sys2Proof.Proofs.OpenClose
end

section
/-! PROOF. What no command of a session writes: its constants, and what belongs to the host (R20, R23, R50, R70, R77,
R119). -/

namespace Sys2Proof.Proofs.Constants

open Sys2Proof Sys2Proof.Machine Sys2Proof.Safety Sys2Proof.Laws Sys2Proof.Proofs.Session

/-- What the host writes and no command does: the configuration, the arguments, `SRC`, and the parameters. -/
def hostInputs (s : State) : CfgRegs × (Word × Word × Word × Word) × List Byte × Params :=
  (s.cfg, (s.io.arg0, s.io.arg1, s.io.arg2, s.io.arg3), s.src, s.params)

theorem measureEnd_hostInputs {a : Activity} {s t : State} (h : MeasureEnd a s t) : hostInputs t = hostInputs s :=
  measure_keeps hostInputs h (fun _ hu => congrArg hostInputs hu :) (fun _ _ => rfl) (fun _ => rfl) fun _ => rfl

theorem blockEnd_hostInputs {s t : State} (h : BlockEnd s t) : hostInputs t = hostInputs s :=
  block_keeps hostInputs h (fun _ hu => congrArg hostInputs hu :) (by simp [hostInputs]) (by simp [hostInputs])
    fun _ => rfl

theorem emissionEnd_hostInputs {i : Instr} {s t : State} (h : EmissionEnd i s t) : hostInputs t = hostInputs s :=
  emission_keeps hostInputs h (by simp [hostInputs, wrote, ran]) (by simp [hostInputs, wrote, ran])

theorem effect_hostInputs {i : Instr} {s t : State} (h : Effect i s t) : hostInputs t = hostInputs s := by
  cases i
  case openSession =>
    obtain ⟨-, ⟨e, -, rfl⟩ | ⟨-, rfl⟩⟩ := h
    · rfl
    · rw [opened_frame]; rfl
  case closeSession =>
    rw [h, handBack_frame]; rfl
  case tmScale | tmUnscale | tmTol | decClassify =>
    obtain ⟨r, rfl⟩ := h
    rfl
  case encLevels | encCount =>
    obtain ⟨r, rh, rfl⟩ := h
    rfl
  case encFrame | encSilence | encCycle | encPilot | encByte | encBlock => exact emissionEnd_hostInputs h
  case clsSample => exact measureEnd_hostInputs (s := s.setCmd .clsSample) h
  case clsPulse => exact measureEnd_hostInputs (s := (s.setCmd .clsPulse).startPulse) h
  case decBlock => exact blockEnd_hostInputs (s := ((s.setCmd .decBlock).decReset s.io.arg0).startPulse) h
  case fltClear | decReset =>
    rw [h]; rfl
  case decStep =>
    obtain ⟨p, rfl⟩ := h
    rw [setResNat_eq, decStep_frame]; rfl

/-- Only `OPEN` writes a derived register or a wave table (R119). -/
theorem effect_keeps_derived {i : Instr} {s t : State} (hp : preRefusal i s = none) (h : Effect i s t)
    (ho : i ≠ .openSession) : t.derived = s.derived ∧ t.tables = s.tables := by
  by_cases hc : i = .closeSession
  · subst hc
    rw [h, handBack_frame]
    exact ⟨rfl, rfl⟩
  · have session := effect_inSession hp h ho hc
    exact ⟨session.derived, session.tables⟩

/-- Settles O50: a refusal sets the mark only, and `OPEN` is admitted in CLOSED only. -/
theorem commandsKeepSessionConstants : Obligations.CommandsKeepSessionConstants := by
  intro i s t h
  rcases exec_cases h with ⟨r, rfl⟩ | ⟨hp, he⟩
  · exact ⟨fun _ => ⟨rfl, rfl⟩, rfl, rfl, rfl, rfl, rfl, rfl, rfl⟩
  refine ⟨fun hi => effect_keeps_derived hp he ?_, ?_⟩
  · rcases session_of_admitted hp with ⟨rfl, hs⟩ | ⟨ho, -⟩
    · simp [hs] at hi
    · exact ho
  · simpa [hostInputs, and_assoc] using effect_hostInputs he

end Sys2Proof.Proofs.Constants
end

section
/-! PROOF. The emission commands (R64, R137 to R142, R146) and the other results of the encoder (R130 to R133, R143). -/

namespace Sys2Proof.Proofs.Emission

open Sys2Proof Sys2Proof.Machine Sys2Proof.Safety Sys2Proof.Laws Sys2Proof.Proofs.Timing Sys2Proof.Proofs.Refusals

/-! ## Levels -/

/-- A percentage of at most 100 of a scale stays on it. -/
theorem percent_bounds {m : Int} (hm : 0 ≤ m) {v : Nat} (hv : v ≤ 100) :
    0 ≤ (2 * m * v + 100) / 200 ∧ (2 * m * v + 100) / 200 ≤ m := by
  have lower : 0 ≤ m * v := by positivity
  have upper : m * v ≤ m * 100 := mul_le_mul_of_nonneg_left (by exact_mod_cast hv) hm
  rw [mul_assoc]
  omega

/-- Settles O17: each level is a rounded percentage of the scale. -/
theorem levelsFollowFormulas : Obligations.LevelsFollowFormulas := by
  intro v hv
  refine ⟨⟨levels_unsigned v, percent_bounds (by decide) hv⟩, fun bits hb => ?_⟩
  obtain ⟨h8, nonneg⟩ := (by decide : ∀ n ∈ [16, 24, 32], n ≠ 8 ∧ (0 : Int) ≤ 2 ^ (n - 1) - 1) bits hb
  exact ⟨levels_signed h8 v, percent_bounds nonneg hv⟩

/-- Settles O18: the command is admitted in every open session, and its one refusal is a volume above 100. -/
theorem encLevelsCompletes : Obligations.EncLevelsCompletes := by
  refine ⟨rfl, fun s ho => ?_⟩
  have result := exec_encLevels (admitted_of_opened ho (by decide) rfl)
  refine ⟨fun hle => ?_, fun hgt => ?_⟩
  · rw [result, if_neg (by omega)]
    rfl
  · rw [result, if_pos hgt]

/-- Settles O30: the count is admitted in an aborted session as well. -/
theorem encCountCompletes : Obligations.EncCountCompletes := by
  intro s hs hm
  refine exec_encCount ((preRefusal_none_iff _ s).2 ⟨?_, fun m hn => ?_⟩)
  · rcases hs with h | h <;> rw [h] <;> rfl
  · cases hn
    exact hm

/-! ## Operands -/

theorem levelSelector_of_ne_three {a : Word} (h : a.toNat % 4 ≠ 3) (d : Derived) : levelSelector a d =
    some (if a.toNat % 4 = 0 then d.lvlLo else if a.toNat % 4 = 1 then d.lvlHi else d.lvlMid) := by
  have selects : a.toNat % 4 = 0 ∨ a.toNat % 4 = 1 ∨ a.toNat % 4 = 2 := by omega
  rcases selects with h | h | h <;> simp [levelSelector, h]

theorem symbolOperand_of_index {a : Word} {y : Symbol} (h : a.toNat % 8 = symbolIndex y) :
    symbolOperand a = some y := by
  cases y <;> simp [symbolOperand, h, symbolIndex]

theorem byteOperand_eq (a : Word) : byteOperand a = a.extractLsb' 0 8 := by
  rw [byteOperand, BitVec.ofNat_toNat, BitVec.setWidth_eq_extractLsb' (by decide)]

/-! ## The emission of each command in an ENCODE session -/

theorem repeatFrames_singleton (n : Nat) (f : Frame) : repeatFrames n [f] = List.replicate n f :=
  List.flatten_replicate_singleton

theorem blockFrameCount_eq (d : Derived) (n : Nat) (bytes : List Byte) : blockFrameCount d n bytes =
    n * d.ref.pilot + d.ref.sync + (bytes.map (byteWidth d)).sum + d.ref.endMark := by
  rw [blockFrameCount, funext (bitFrames_eq d)]

section Emissions

variable {s : State}

theorem emissionOf_encFrame (h : s.io.arg0.toNat % 4 ≠ 3) : emissionOf .encFrame s =
    some ⟨[encodeFrame s.cfg (if s.io.arg0.toNat % 4 = 0 then s.derived.lvlLo
      else if s.io.arg0.toNat % 4 = 1 then s.derived.lvlHi else s.derived.lvlMid)], s.derived.frameBytes⟩ := by
  rw [emissionOf, levelSelector_of_ne_three h, Option.map_some]

variable (hr : Ready .encode s) (hs : SessionConstants s)

include hr

theorem ready_ne_closed : s.status.session ≠ .closed := by
  rw [hr.1]
  decide

include hs

/-- The tables of an open ENCODE session are the cycles of its symbols (R135). -/
theorem ready_tables :
    (∀ y, s.tables.wt.get y = symbolCycle s y) ∧ s.tables.sil = [encodeFrame s.cfg s.derived.lvlMid] :=
  session_tables s (ready_ne_closed hr) hr.2 hs

theorem ready_byteFrames : byteFrames s.tables = byteCycles s :=
  funext (byteFrames_eq s (ready_ne_closed hr) hr.2 hs)

theorem emissionOf_encSilence : emissionOf .encSilence s =
    some ⟨List.replicate s.io.arg0.toNat (encodeFrame s.cfg s.derived.lvlMid),
      s.io.arg0.toNat * s.derived.frameBytes⟩ := by
  rw [emissionOf, (ready_tables hr hs).2, repeatFrames_singleton]

theorem emissionOf_encCycle {y : Symbol} (hy : s.io.arg0.toNat % 8 = symbolIndex y) : emissionOf .encCycle s =
    some ⟨symbolCycle s y, s.derived.ref.get y * s.derived.frameBytes⟩ := by
  rw [emissionOf, symbolOperand_of_index hy, Option.map_some, (ready_tables hr hs).1]

theorem emissionOf_encPilot : emissionOf .encPilot s =
    some ⟨(List.replicate s.io.arg0.toNat (symbolCycle s .pilot)).flatten,
      s.io.arg0.toNat * s.derived.ref.pilot * s.derived.frameBytes⟩ := by
  rw [← (ready_tables hr hs).1]
  rfl

theorem emissionOf_encByte : emissionOf .encByte s =
    some ⟨byteCycles s (s.io.arg0.extractLsb' 0 8),
      byteWidth s.derived (s.io.arg0.extractLsb' 0 8) * s.derived.frameBytes⟩ := by
  rw [emissionOf, ready_byteFrames hr hs, bitFrames_eq, byteOperand_eq]

theorem blockFrames_eq (n : Nat) (bytes : List Byte) : blockFrames s.tables n bytes =
    (List.replicate n (symbolCycle s .pilot)).flatten ++ symbolCycle s .sync ++ bytes.flatMap (byteCycles s) ++
      symbolCycle s .endMark := by
  obtain ⟨cycle, -⟩ := ready_tables hr hs
  rw [blockFrames, ready_byteFrames hr hs, ← cycle, ← cycle, ← cycle]
  rfl

theorem emissionOf_encBlock (hsrc : s.io.arg0.toNat + s.io.arg1.toNat ≤ s.src.length) :
    let bytes := (s.src.drop s.io.arg0.toNat).take s.io.arg1.toNat
    emissionOf .encBlock s = some
      ⟨(List.replicate s.io.arg2.toNat (symbolCycle s .pilot)).flatten ++ symbolCycle s .sync ++
        bytes.flatMap (byteCycles s) ++ symbolCycle s .endMark,
      (s.io.arg2.toNat * s.derived.ref.pilot + s.derived.ref.sync + (bytes.map (byteWidth s.derived)).sum +
        s.derived.ref.endMark) * s.derived.frameBytes⟩ := by
  rw [emissionOf, srcOperand, if_pos hsrc, Option.map_some, blockFrames_eq hr hs, blockFrameCount_eq]

end Emissions

/-! ## Completion -/

/-- An emission command whose writes the sink accepts (R64, R146). -/
theorem exec_emission_accept {i : Instr} {s : State} {fs : List Frame} {n : Nat} {k : Sink} (hr : Ready .encode s)
    (he : emissionOf i s = some ⟨fs, n⟩) (hk : sinkAfter fs.length s.sink = some k) (hc : CountFits s fs) :
    exec i s = .next ((wrote (ran i s) fs k).setRes (BitVec.ofNat 32 n)) := by
  rw [exec_emission (admitted_of_emission hr he) he, emitted_accept i s fs n k hk hc]

/-- Settles O22: the selector names the level of the one frame. -/
theorem encFrameCompletes : Obligations.EncFrameCompletes := fun _ _ hr h3 hk hc =>
  exec_emission_accept hr (emissionOf_encFrame h3) hk hc

/-- Settles O23: the silence table is one frame of the silence level. -/
theorem encSilenceCompletes : Obligations.EncSilenceCompletes := fun _ _ hr hs hk hc =>
  exec_emission_accept hr (emissionOf_encSilence hr hs) (by rwa [List.length_replicate]) hc

/-- Settles O24: the table of the operand's symbol is its cycle. -/
theorem encCycleCompletes : Obligations.EncCycleCompletes := fun _ _ _ hr hs hy hk hc =>
  exec_emission_accept hr (emissionOf_encCycle hr hs hy) hk hc

/-- Settles O25: the pilot table is repeated. -/
theorem encPilotCompletes : Obligations.EncPilotCompletes := fun _ _ hr hs hk hc =>
  exec_emission_accept hr (emissionOf_encPilot hr hs) hk hc

/-- Settles O26: the tables of the byte's bits are their cycles, in tape order. -/
theorem encByteCompletes : Obligations.EncByteCompletes := fun _ _ hr hs hk hc =>
  exec_emission_accept hr (emissionOf_encByte hr hs) hk hc

/-- Settles O27: inside `SRC` the block's four parts are written one after the other. -/
theorem encBlockCompletes : Obligations.EncBlockCompletes := fun _ _ hr hs hsrc hk hc =>
  exec_emission_accept hr (emissionOf_encBlock hr hs hsrc) hk hc

/-- Settles O29: the writes before the failing one are accepted, and it leaves what the sink took. -/
theorem failingWriteAborts : Obligations.FailingWriteAborts := by
  intro i s fs k taken f hr hfs hsink hf hc
  obtain ⟨e, he, rfl⟩ := Option.map_eq_some_iff.1 hfs
  rw [exec_emission (admitted_of_emission hr he) he, emitted_fail i s e.frames e.resBytes k taken f hsink hf hc]

end Sys2Proof.Proofs.Emission
end

section
/-! PROOF. What the encoder's commands leave of the decoder side, and the decode commands of the output side (R60, R136,
R282). -/

namespace Sys2Proof.Proofs.Sides

open Sys2Proof Sys2Proof.Machine Sys2Proof.Safety Sys2Proof.Laws

/-- What a measurement writes beside its result: the stream, the filter and the edge detector. -/
def measurementSide (s : State) : Source × Nat × FilterState × Edge := (s.inp, s.inPos, s.filter, s.edge)

/-- What a decoder transition writes beside `DST`: the decoder registers and state. -/
def decoderState (s : State) : DecRegs × DState × DCause := (s.dec, s.status.dstate, s.status.dcause)

/-- What only the encoder's commands write (R60). -/
def outputSide (s : State) : List Byte × Nat × Sink × Word := (s.out, s.encCount, s.sink, s.io.resHi)

/-! ## The encoder's commands -/

/-- What an encoder command leaves alone: the decode side and its destination (R136). -/
def decodeSide (s : State) : (Source × Nat × FilterState × Edge) × (DecRegs × DState × DCause) × Memory :=
  (measurementSide s, decoderState s, s.dst)

theorem emissionEnd_decodeSide {i : Instr} {s t : State} (h : EmissionEnd i s t) : decodeSide t = decodeSide s :=
  emission_keeps decodeSide h (by simp [decodeSide, measurementSide, decoderState, wrote, ran])
    (by simp [decodeSide, measurementSide, decoderState, wrote, ran])

theorem effect_decodeSide {i : Instr} {s t : State} (h : Effect i s t)
    (hi : modeNeeded i = some .encode ∨ i = .encLevels) : decodeSide t = decodeSide s := by
  cases i
  case encLevels | encCount =>
    obtain ⟨r, rh, rfl⟩ := h
    rfl
  case encFrame | encSilence | encCycle | encPilot | encByte | encBlock => exact emissionEnd_decodeSide h
  all_goals exact absurd hi (by decide)

/-! ## The decode commands -/

theorem measureEnd_outputSide {a : Activity} {s t : State} (h : MeasureEnd a s t) : outputSide t = outputSide s :=
  measure_keeps outputSide h (fun _ hu => congrArg outputSide hu :) (fun _ _ => rfl) (fun _ => rfl) fun _ => rfl

theorem blockEnd_outputSide {s t : State} (h : BlockEnd s t) : outputSide t = outputSide s :=
  block_keeps outputSide h (fun _ hu => congrArg outputSide hu :) (by simp [outputSide]) (by simp [outputSide])
    fun _ => rfl

theorem measureEnd_decoderState {a : Activity} {s t : State} (h : MeasureEnd a s t) : decoderState t = decoderState s :=
  measure_keeps decoderState h (fun _ hu => congrArg decoderState hu :) (fun _ _ => rfl) (fun _ => rfl) fun _ => rfl

theorem decStep_sides (s : State) (p : Pulse) :
    outputSide (s.decStep p) = outputSide s ∧ measurementSide (s.decStep p) = measurementSide s := by
  rw [decStep_frame]
  exact ⟨rfl, rfl⟩

theorem effect_outputSide {i : Instr} {s t : State} (h : Effect i s t) (hi : modeNeeded i = some .decode) :
    outputSide t = outputSide s := by
  cases i
  case clsSample => exact measureEnd_outputSide (s := s.setCmd .clsSample) h
  case clsPulse => exact measureEnd_outputSide (s := (s.setCmd .clsPulse).startPulse) h
  case decBlock => exact blockEnd_outputSide (s := ((s.setCmd .decBlock).decReset s.io.arg0).startPulse) h
  case fltClear | decReset =>
    rw [h]
    rfl
  case decClassify =>
    obtain ⟨r, rfl⟩ := h
    rfl
  case decStep =>
    obtain ⟨p, rfl⟩ := h
    exact (decStep_sides (ran .decStep s) p).1
  all_goals exact absurd hi (by decide)

/-- The classifier's commands make no decoder transition (R282). -/
theorem effect_decoderState {i : Instr} {s t : State} (h : Effect i s t)
    (hi : i = .clsSample ∨ i = .fltClear ∨ i = .clsPulse) : decoderState t = decoderState s := by
  rcases hi with rfl | rfl | rfl
  · exact measureEnd_decoderState (s := s.setCmd .clsSample) h
  · cases h
    rfl
  · exact measureEnd_decoderState (s := (s.setCmd .clsPulse).startPulse) h

/-- The decoder's commands on a pulse at hand measure nothing (R282). -/
theorem effect_measurementSide {i : Instr} {s t : State} (h : Effect i s t)
    (hi : i = .decReset ∨ i = .decStep ∨ i = .decClassify) : measurementSide t = measurementSide s := by
  rcases hi with rfl | rfl | rfl
  · cases h
    rfl
  · obtain ⟨p, rfl⟩ := h
    exact (decStep_sides (ran .decStep s) p).2
  · obtain ⟨r, rfl⟩ := h
    rfl

/-- Settles O51: a refusal sets the mark only, and an admitted command writes its own side. -/
theorem sidesLeaveEachOtherAlone : Obligations.SidesLeaveEachOtherAlone := by
  refine ⟨fun i hi => ?_, fun i hi => ?_⟩
  · have encoder : modeNeeded i = some .encode ∨ i = .encLevels := by
      revert i
      decide
    intro s t h
    have kept : decodeSide t = decodeSide s := by
      rcases exec_cases h with ⟨r, rfl⟩ | ⟨-, he⟩
      · rfl
      · exact effect_decodeSide he encoder
    simp only [decodeSide, measurementSide, decoderState, Prod.mk.injEq] at kept
    obtain ⟨⟨hinp, hpos, hfilter, hedge⟩, ⟨hdec, hstate, hcause⟩, hdst⟩ := kept
    exact ⟨hinp, hpos, hfilter, hedge, hdec, hdst, hstate, hcause⟩
  · have decoder : modeNeeded i = some .decode := by
      revert i
      decide
    intro s t h
    rcases exec_cases h with ⟨r, rfl⟩ | ⟨-, he⟩
    · exact ⟨rfl, rfl, rfl, rfl, fun _ => ⟨rfl, rfl, rfl⟩, fun _ => ⟨rfl, rfl, rfl, rfl⟩⟩
    have output := effect_outputSide he decoder
    have classifier := effect_decoderState he
    have pulse := effect_measurementSide he
    simp only [outputSide, decoderState, measurementSide, Prod.mk.injEq] at output classifier pulse
    obtain ⟨hout, hcount, hsink, hres⟩ := output
    exact ⟨hout, hcount, hsink, hres, classifier, pulse⟩

end Sys2Proof.Proofs.Sides
end

section
/-! PROOF. The value and the region of a frame, and the filter (R170 to R179). -/

namespace Sys2Proof.Proofs.Classifier

open Sys2Proof Sys2Proof.Machine Sys2Proof.Safety Sys2Proof.Laws Sys2Proof.Proofs.OpenClose

/-! ## Samples (R63, R171) -/

/-- A sample wider than 8 bits is two's complement: the bytes below half the range, and otherwise the range less
(R14, R63). -/
theorem sampleOf_signed {bits : Nat} (hb : bits ∈ [16, 24, 32]) {b : List Byte} (hl : b.length = bits / 8) :
    sampleOf bits b =
      if natOfBytes b < 2 ^ (bits - 1) then (natOfBytes b : Int) else (natOfBytes b : Int) - 2 ^ bits := by
  obtain ⟨h8, hpos, width⟩ := (by decide : ∀ n ∈ [16, 24, 32], n ≠ 8 ∧ 0 < n ∧ 256 ^ (n / 8) = 2 ^ n) bits hb
  have fits : natOfBytes b < 2 ^ bits := by rw [← width, ← hl]; exact natOfBytes_lt b
  have double : 2 ^ bits = 2 * 2 ^ (bits - 1) := by rw [← pow_succ', Nat.sub_add_cancel hpos]
  rw [sampleOf, if_neg h8, sext, BitVec.toInt_eq_toNat_cond, BitVec.toNat_ofNat, Nat.mod_eq_of_lt fits]
  push_cast
  exact if_congr (by omega) rfl rfl

/-- Samples of every width are at least -1 and below 1 once normalized (R171). -/
theorem normalized_bounds {bits : Nat} (hb : bits ∈ [8, 16, 24, 32]) {b : List Byte} (hl : b.length = bits / 8) :
    -1 ≤ normalized bits (sampleOf bits b) ∧ normalized bits (sampleOf bits b) < 1 := by
  by_cases h8 : bits = 8
  · subst h8
    have bound : (natOfBytes b : Rat) < 256 := by exact_mod_cast (hl ▸ natOfBytes_lt b : natOfBytes b < 256 ^ (8 / 8))
    have nonneg : (0 : Rat) ≤ natOfBytes b := Nat.cast_nonneg _
    simp only [normalized, sampleOf, if_true, Int.cast_natCast]
    constructor <;> linarith
  · have lower : -2 ^ (bits - 1) ≤ sext bits (natOfBytes b) := BitVec.le_toInt _
    have upper : sext bits (natOfBytes b) < 2 ^ (bits - 1) := BitVec.toInt_lt
    have scale : (0 : Rat) < 2 ^ (bits - 1) := by positivity
    rw [normalized, if_neg h8, sampleOf, if_neg h8, le_div_iff₀ scale, div_lt_iff₀ scale, neg_one_mul, one_mul]
    exact_mod_cast And.intro lower upper

/-- The single channel gives both values; of two channels, the first is the left one (R63, R172). -/
theorem channel_values {c : CfgRegs} {f g : Frame} (hf : f.length = c.sampleBytes) (hg : g.length = c.sampleBytes) :
    (c.channels = 1 → leftValue c f = normalized c.bits (sampleOf c.bits f) ∧ rightValue c f = leftValue c f) ∧
    (c.channels = 2 → leftValue c (f ++ g) = normalized c.bits (sampleOf c.bits f) ∧
      rightValue c (f ++ g) = normalized c.bits (sampleOf c.bits g)) := by
  refine ⟨fun h1 => ⟨?_, if_neg (by omega)⟩, fun h2 => ⟨?_, ?_⟩⟩
  · rw [leftValue, List.take_of_length_le hf.le]
  · rw [leftValue, List.take_left' hf]
  · rw [rightValue, if_pos h2, List.drop_left' hf, List.take_of_length_le hg.le]

/-! ## The value of a frame (R170, R173) -/

theorem filterEn_eq {c : CfgRegs} {w : Word} (h : c.fmt = some w) : c.filterEn = w.getLsbD 13 := by
  rw [CfgRegs.filterEn, CfgRegs.fmtNat, h, BitVec.getLsbD, Nat.testBit_eq_decide_div_mod_eq]
  rfl

/-- The sum of the cells below the order, cell by cell (R173). -/
theorem filterSum_eq (t : FilterState) {order : Nat} (h : order ≤ 55) :
    (t.buf.toList.take order).sum = ((List.range order).map fun i => t.buf.toList.getD i 0).sum := by
  congr 1
  refine List.ext_getElem (by simpa using h) fun i h1 h2 => ?_
  have hi : i < 55 := by simp at h2; omega
  simp [hi]

/-- Settles O21: the samples by their width, the channels by their bytes, and one filter step where it is enabled. -/
theorem normalizedSamples : Obligations.NormalizedSamples := by
  unfold Obligations.NormalizedSamples
  intro unsigned
  have value (b : List Byte) : unsigned b = natOfBytes b := by
    induction b with
    | nil => rfl
    | cons x b ih => simpa [unsigned, natOfBytes] using ih
  refine ⟨fun b => ?_, fun bits hb b hl => ?_, fun bits hb b hl => normalized_bounds hb hl,
    fun c f g hf hg => channel_values hf hg, fun l r => ⟨rfl, rfl, rfl, fun k => ?_⟩,
    fun s w f hw _ h2 h55 => ⟨fun hoff => ?_, fun hon => ?_, rfl⟩⟩
  · simp [normalized, sampleOf, natOfBytes]
  · have h8 := (by decide : ∀ n ∈ [16, 24, 32], n ≠ 8) bits hb
    rw [value, normalized, if_neg h8, sampleOf_signed hb hl]
    refine ⟨fun hlo => ?_, fun hhi => ?_⟩
    · rw [if_pos hlo, Int.cast_natCast]
    · rw [if_neg hhi.not_gt]
      push_cast
      rfl
  · unfold selectChannel
    split_ifs
    · exact add_self_div_two l
    all_goals rfl
  · rw [State.value, filterEn_eq hw, hoff, chsel_eq hw]
    rfl
  · obtain ⟨mean, cells, index⟩ := filterStep_spec s.filter s.derived.fltOrder
      (selectChannel (w.extractLsb' 10 2).toNat (leftValue s.cfg f) (rightValue s.cfg f)) (by omega) h55
    refine ⟨_, ?_, cells, index⟩
    rw [← filterSum_eq _ h55, ← mean, State.value, filterEn_eq hw, hon, chsel_eq hw]
    rfl

/-- Settles O31: the two strict comparisons exclude each other, as the half-width is not negative. -/
theorem regionFollowsBand : Obligations.RegionFollowsBand := by
  intro c y thr hw hi lo
  have nonneg : 0 ≤ hw := by positivity
  have band {r : Region} (raw : rawRegion thr hw y = r) : region c y = if c.invert then r.swap else r := by
    rw [← raw]
    rfl
  refine ⟨fun above => band (if_pos above), fun below => band ?_, fun h1 h2 => (band (r := .dead) ?_).trans (ite_self _)⟩
  · rw [rawRegion, if_neg (by linarith), if_pos below]
  · rw [rawRegion, if_neg (by linarith), if_neg (by linarith)]

/-! ## The filter on a constant input (R174) -/

/-- After a clear and `m` steps on `v`: the first `m` cells below the order hold `v`, the others 0. -/
def FedConstant (order : Nat) (v : Rat) (m : Nat) (t : FilterState) : Prop :=
  (∀ i : Fin 55, i.val < order → t.buf[i] = if i.val < m then v else 0) ∧ t.idx.val = m % order

theorem cleared_fedConstant (order : Nat) (v : Rat) : FedConstant order v 0 FilterState.cleared :=
  ⟨fun i _ => by simp [FilterState.cleared], by simp [FilterState.cleared]⟩

theorem step_fedConstant {order m : Nat} {v : Rat} {t : FilterState} (hpos : 0 < order) (h55 : order ≤ 55)
    (h : FedConstant order v m t) : FedConstant order v (m + 1) (t.step order v).2 := by
  obtain ⟨cells, index⟩ := h
  obtain ⟨-, cells', index'⟩ := filterStep_spec t order v hpos h55
  refine ⟨fun i hi => ?_, by rw [index', index, Nat.mod_add_mod]⟩
  have holds : i.val < m + 1 ↔ i = t.idx ∨ i.val < m := by
    rw [Fin.ext_iff, index]
    rcases Nat.lt_or_ge m order with hm | hm
    · rw [Nat.mod_eq_of_lt hm]
      omega
    · omega
  rw [cells', cells i hi, if_congr holds rfl rfl, ite_or]

theorem iterate_fedConstant {order : Nat} (v : Rat) (hpos : 0 < order) (h55 : order ≤ 55) (m : Nat) :
    FedConstant order v m ((fun t : FilterState => (t.step order v).2)^[m] FilterState.cleared) := by
  induction m with
  | zero => exact cleared_fedConstant order v
  | succ m ih =>
    rw [Function.iterate_succ_apply']
    exact step_fedConstant hpos h55 ih

theorem sum_range_indicator (v : Rat) (m n : Nat) :
    ((List.range n).map fun i => if i < m then v else 0).sum = (min m n : Nat) * v := by
  induction n with
  | zero => simp
  | succ n ih =>
    rw [List.range_succ, List.map_append, List.sum_append, ih]
    by_cases h : n < m
    · rw [min_eq_right h.le, min_eq_right h]
      simp [h, add_mul]
    · rw [min_eq_left (by omega), min_eq_left (by omega)]
      simp [h]

theorem sum_fedConstant {order m : Nat} {v : Rat} {t : FilterState} (h55 : order ≤ 55) (h : FedConstant order v m t) :
    (t.buf.toList.take order).sum = (min m order : Nat) * v := by
  rw [filterSum_eq t h55, ← sum_range_indicator]
  congr 1
  refine List.map_congr_left fun i hi => ?_
  have hlt : i < order := List.mem_range.1 hi
  have inBuffer : i < 55 := by omega
  simpa [inBuffer] using h.1 ⟨i, inBuffer⟩ hlt

/-- Settles O33: the cells after `k` steps on a constant. -/
theorem filterSteadyState : Obligations.FilterSteadyState := by
  intro order k v h2 h55 hk
  have hpos : 0 < order := by omega
  have before := iterate_fedConstant v hpos h55 (k - 1)
  have after := step_fedConstant hpos h55 before
  rw [Nat.sub_add_cancel hk] at after
  rw [(filterStep_spec _ order v hpos h55).1, sum_fedConstant h55 after]

/-! ## The commands -/

/-- A command of an open DECODE session is admitted (R94). -/
theorem admitted_of_decode {i : Instr} {s : State} (hr : Ready .decode s) (hm : modeNeeded i = some .decode) :
    preRefusal i s = none :=
  preRefusal_ready i s .decode hr (by rintro rfl; cases hm) (.inr hm)

/-- Settles O34: the cleared filter is the one the statement describes. -/
theorem fltClearCompletes : Obligations.FltClearCompletes :=
  ⟨rfl, fun _ hr => ⟨FilterState.cleared, fun i => by simp [FilterState.cleared], rfl,
    exec_fltClear (admitted_of_decode hr rfl)⟩⟩

/-- Settles O32: the one read of the command finds a frame, or what follows the supplied bytes. -/
theorem clsSampleCompletes : Obligations.ClsSampleCompletes := by
  refine ⟨rfl, fun s hr => ⟨fun f rest hn => ?_, fun hl => ?_⟩⟩
  · have read := inRead_frame (s.setCmd .clsSample) f rest (by simpa using hn.1) (hn.2 f (by simp))
    obtain ⟨sameRegion, sameFilter⟩ := classify_congr s (readFrames (s.setCmd .clsSample) 1 rest) f rfl rfl rfl
    rw [exec_clsSample (admitted_of_decode hr rfl), sampleAccess, read]
    dsimp only
    rw [classify_frame, sameRegion, sameFilter, State.classify]
    cases region s.cfg (s.value f).1 <;> rfl
  · have read := inRead_tail (s.setCmd .clsSample) hl
    rw [exec_clsSample (admitted_of_decode hr rfl), sampleAccess, read]
    refine ⟨fun ht => ?_, fun ht => ?_⟩ <;> rw [show (s.setCmd .clsSample).inp.tail = _ from ht] <;> rfl

end Sys2Proof.Proofs.Classifier
end

section
/-! PROOF. `CLS.PULSE` (R182 to R185, R188): a complete pulse, a stream that ends first, and a clean cycle. -/

namespace Sys2Proof.Proofs.PulseMeasurement

open Sys2Proof Sys2Proof.Machine Sys2Proof.Safety Sys2Proof.Laws Sys2Proof.Proofs.Classifier

section Measurement

variable {s : State} {fs : List Frame} {rest : List Byte}

/-- A command makes enough accesses for the frames supplied and what follows them (R262). -/
theorem readFuel_eq (hpos : 0 < s.derived.frameBytes) (hn : NextFrames s fs rest) :
    ∃ k, s.readFuel = fs.length + (k + 1) := by
  have supplied := nextFrames_length s fs rest hn hpos
  exact ⟨s.inp.bytes.length - fs.length, by unfold State.readFuel; omega⟩

/-- The frames of a measurement are classified as at the start of its command. -/
theorem scanRegions_startPulse (s : State) (i : Instr) (fs : List Frame) :
    (scanRegions (s.setCmd i).startPulse fs).1 = (scanRegions s fs).1 ∧
      (scanRegions (s.setCmd i).startPulse fs).2.filter = (scanRegions s fs).2.filter :=
  scanRegions_congr fs s _ rfl rfl rfl

/-- `s` in the measurement of `CLS.PULSE`, with these frames counted. -/
def midPulse (s : State) (fs : List Frame) (ph : Phase) (rest : List Byte) : State :=
  { readFrames (s.setCmd .clsPulse) fs.length rest with
    filter := (scanRegions s fs).2.filter
    edge := ⟨ph, fs.length, s.edge.pulse⟩ }

theorem counted_startPulse (s : State) (fs : List Frame) (ph : Phase) (rest : List Byte) :
    counted (s.setCmd .clsPulse).startPulse fs ph rest = midPulse s fs ph rest := by
  rw [counted, (scanRegions_startPulse s .clsPulse fs).2]
  simp [midPulse, State.startPulse, readFrames]

/-- `CLS.PULSE` after frames that complete no pulse: the rest of its loop (R183). -/
theorem exec_clsPulse_counts {ph : Phase} (hr : Ready .decode s) (hpos : 0 < s.derived.frameBytes)
    (hn : NextFrames s fs rest) (hp : PcntFits s fs.length) (hscan : ScansTo ph (scanRegions s fs).1) :
    ∃ k, exec .clsPulse s = .next ((pulseLoop (k + 1) (midPulse s fs ph rest)).settle s) := by
  obtain ⟨k, hk⟩ := readFuel_eq hpos hn
  have counts := (loops_count fs (s.setCmd .clsPulse).startPulse rest ph (k + 1) hn
    (by show PcntFits s (0 + fs.length); rwa [Nat.zero_add])
    (by rw [(scanRegions_startPulse s .clsPulse fs).1]; exact phaseAfter_scansTo ph _ hscan)).1
  rw [counted_startPulse] at counts
  exact ⟨k, by rw [exec_clsPulse (admitted_of_decode hr rfl), hk, counts]⟩

/-- `CLS.PULSE` on the frames of one pulse (R182). -/
theorem exec_clsPulse_onePulse (hr : Ready .decode s) (hpos : 0 < s.derived.frameBytes) (hn : NextFrames s fs rest)
    (hp : PcntFits s fs.length) (hone : OnePulse (scanRegions s fs).1) :
    exec .clsPulse s = .next ({ readFrames (ran .clsPulse s) fs.length rest with
      filter := (scanRegions s fs).2.filter
      edge := ⟨.idle, fs.length, .width fs.length⟩ }.setRes (Pulse.width fs.length).image) := by
  obtain ⟨k, hk⟩ := readFuel_eq hpos hn
  have measured := (loops_onePulse (s.setCmd .clsPulse).startPulse fs rest (k + 1) rfl rfl hn hp
    (by rw [(scanRegions_startPulse s .clsPulse fs).1]; exact hone)).1
  rw [counted_startPulse] at measured
  rw [exec_clsPulse (admitted_of_decode hr rfl), hk, measured]
  rfl

end Measurement

/-- Settles O35: the result is the image of the width. -/
theorem clsPulseMeasures : Obligations.ClsPulseMeasures := fun _ fs _ hr hpos hn hp hone =>
  ⟨(Pulse.width fs.length).image, (Registers.pulseImage_width fs.length).1, fun h => if_pos h,
    exec_clsPulse_onePulse hr hpos hn hp hone⟩

/-- Settles O36: after the supplied frames, the last access finds what follows them. -/
theorem clsPulseStreamEnds : Obligations.ClsPulseStreamEnds := by
  intro s fs rest ph hr hpos hn hrest hp hscan u
  obtain ⟨k, result⟩ := exec_clsPulse_counts hr hpos hn hp hscan
  have access := pulseAccess_tail (midPulse s fs ph rest) hrest
  rw [result]
  refine ⟨fun ht => ?_, fun ht => ?_, fun ht => ?_⟩ <;>
    rw [show (midPulse s fs ph rest).inp.tail = _ from ht] at access <;> rw [pulseLoop, access] <;> rfl

/-! ## Clean cycles (R185) -/

/-- From after the first frame of a cycle to the first frame of the next: one pulse. -/
theorem onePulse_cycles (d : Derived) (y z : Symbol) (hpos : ∀ x, 0 < d.hiS.get x ∧ 0 < d.loS.get x) :
    OnePulse ((cycleRegions d y).drop 1 ++ (cycleRegions d z).take 1) := by
  obtain ⟨a, b, hy, -⟩ := cycleRegions_split d y (hpos y)
  obtain ⟨a', b', hz, -⟩ := cycleRegions_split d z (hpos z)
  exact ⟨List.replicate a .low, List.replicate b .high, by simp [hy, hz], by simp, by simp⟩

/-- Settles O37: the frames between are one pulse, and as many as the reference width. -/
theorem cleanCycleMeasured : Obligations.CleanCycleMeasured := by
  intro s y z rest hr hs hw hclean hpos hb
  have hsess : s.status.session ≠ .closed := by
    rw [hr.1]
    decide
  obtain ⟨-, positive, width⟩ := session_frames s hsess hs
  obtain ⟨fs, hfs⟩ : ∃ fs, fs = (symbolCycle s y).drop 1 ++ (symbolCycle s z).take 1 := ⟨_, rfl⟩
  rw [← hfs] at hb
  have next : NextFrames s fs rest := by
    refine ⟨hb, fun f hf => ?_⟩
    rw [hfs, List.mem_append] at hf
    exact hf.elim (fun h => symbolCycle_frames s hsess hs y f (List.mem_of_mem_drop h))
      (fun h => symbolCycle_frames s hsess hs z f (List.mem_of_mem_take h))
  have length : fs.length = s.derived.ref.get y := by
    rw [hfs, List.length_append, List.length_drop, List.length_take, Encoder.symbolCycle_length hsess hs,
      Encoder.symbolCycle_length hsess hs, width y, width z]
    have := hpos y
    have := hpos z
    omega
  have pulse : OnePulse (scanRegions s fs).1 := by
    rw [scanRegions_unfiltered fs s hclean.1, hfs, List.map_append, List.map_drop, List.map_take,
      symbolCycle_regions s hclean, symbolCycle_regions s hclean]
    exact onePulse_cycles s.derived y z hpos
  have fits : PcntFits s fs.length := by simp only [PcntFits, pcntOverflows, hw]
  have result := exec_clsPulse_onePulse hr positive next fits pulse
  rw [length] at result
  exact ⟨_, result, rfl, rfl, rfl, rfl⟩

end Sys2Proof.Proofs.PulseMeasurement
end

section
/-! PROOF. The bounds of R209 on the decoder registers, kept by every step. -/

namespace Sys2Proof.Proofs.CaptureBounds

open Sys2Proof Sys2Proof.Machine Sys2Proof.Safety Sys2Proof.Laws Sys2Proof.Proofs.Session

/-- The decoder registers are in the bounds of R209. -/
def Bounded (d : DecRegs) : Prop := d.count.toNat ≤ d.cap.toNat ∧ d.nbits.toNat ≤ 7

theorem bounded_reset (cap : Word) : Bounded ⟨0#8, 0#4, 0#32, cap⟩ := ⟨Nat.zero_le _, Nat.zero_le _⟩

theorem blockEnd_bounded {s t : State} (h : BlockEnd s t) (hb : Bounded s.dec) : Bounded t.dec :=
  Destination.blockEnd_decoderSide h (fun d _ => Bounded d) decStep_bounds hb

/-- Outside the decoder's commands and `OPEN`, no command writes a decoder register (R136, R282). -/
theorem effect_dec {i : Instr} {s t : State} (h : Effect i s t) (ho : i ≠ .openSession)
    (hd : i ≠ .decReset ∧ i ≠ .decStep ∧ i ≠ .decBlock) : t.dec = s.dec := by
  obtain ⟨hreset, hstep, hblock⟩ := hd
  cases i
  case openSession => exact absurd rfl ho
  case decReset => exact absurd rfl hreset
  case decStep => exact absurd rfl hstep
  case decBlock => exact absurd rfl hblock
  case closeSession =>
    cases h
    simp only [setSession_dec, setResNat_eq, setRes_dec]
    rw [handBack_frame]
    rfl
  case tmScale | tmUnscale | tmTol | decClassify =>
    obtain ⟨r, rfl⟩ := h
    rfl
  case encLevels | encFrame | encSilence | encCycle | encPilot | encByte | encBlock | encCount =>
    exact (congrArg (fun side => side.2.1.1) (Sides.effect_decodeSide h (by decide)) :)
  case clsSample | fltClear | clsPulse =>
    exact (congrArg Prod.fst (Sides.effect_decoderState h (by decide)) :)

/-- A new attempt starts in the bounds, a transition keeps them, and nothing else writes the registers. -/
theorem effect_bounded {i : Instr} {s t : State} (h : Effect i s t) (ho : i ≠ .openSession) (hb : Bounded s.dec) :
    Bounded t.dec := by
  by_cases hreset : i = .decReset
  · subst hreset
    cases h
    exact bounded_reset _
  by_cases hstep : i = .decStep
  · subst hstep
    obtain ⟨p, rfl⟩ := h
    exact decStep_bounds (ran .decStep s) p hb
  by_cases hblock : i = .decBlock
  · subst hblock
    exact blockEnd_bounded h (bounded_reset _)
  · rw [effect_dec h ho ⟨hreset, hstep, hblock⟩]
    exact hb

theorem exec_decoderBounds {i : Instr} {s t : State} (hb : DecoderBounds s) (h : exec i s = .next t) :
    DecoderBounds t := by
  rcases exec_cases h with ⟨r, rfl⟩ | ⟨hp, he⟩
  · exact hb
  rcases session_of_admitted hp with ⟨rfl, -⟩ | ⟨ho, hs⟩
  · obtain ⟨-, ⟨e, -, rfl⟩ | ⟨-, rfl⟩⟩ := he
    · exact hb
    · intro _
      rw [opened_frame]
      exact bounded_reset _
  · exact fun _ => effect_bounded he ho (hb hs)

theorem resume_bounded (a : Activity) {s : State} (hb : Bounded s.dec) : Bounded (a.resume s).dec := by
  obtain ⟨u, hu, h⟩ := resume_cases a s
  have hbu : Bounded u.dec := by rwa [hu]
  rcases h with ⟨b, -, h⟩ | ⟨-, h⟩ | h
  · rwa [show (a.resume s).dec = u.dec from congrArg Prod.fst (Sides.measureEnd_decoderState h)]
  · exact blockEnd_bounded h hbu
  · rw [h]
    exact hb

theorem hostSide_decoderBounds {s t : State} (h : HostSide s t) (hb : DecoderBounds s) : DecoderBounds t := by
  unfold DecoderBounds
  rwa [h.status, h.dec]

/-- Settles O58: a command in progress goes on in an open session, and the host's accesses write no decoder register. -/
theorem stepKeepsDecoderBounds : Obligations.StepKeepsDecoderBounds := by
  rintro s t ⟨-, -, hp⟩ hb h
  rcases step_cases h with ⟨a, ha, rfl⟩ | ⟨-, h | ⟨i, u, hu, he⟩⟩
  · have ready : Ready .decode s := hp (by simp [ha])
    exact fun _ => resume_bounded a (hb (by rw [ready.1]; decide))
  · exact hostSide_decoderBounds h hb
  · exact exec_decoderBounds (hostSide_decoderBounds hu hb) he

end Sys2Proof.Proofs.CaptureBounds
end

section
/-! PROOF. One decoder command on its operand (R202 to R206): the start of an attempt, a transition, and a class. -/

namespace Sys2Proof.Proofs.Transitions

open Sys2Proof Sys2Proof.Machine Sys2Proof.Safety Sys2Proof.Laws Sys2Proof.Proofs.Classifier

/-- Settles O40: the command is admitted in every open DECODE session, and takes no operand it could refuse. -/
theorem decResetCompletes : Obligations.DecResetCompletes :=
  ⟨rfl, fun _ hr => exec_decReset (admitted_of_decode hr rfl)⟩

/-! ## Operands (R91) -/

theorem pulseOperand_width {a : Word} (h : a.toNat < 2 ^ 31) : pulseOperand a = some (.width a.toNat) := if_pos h

theorem pulseOperand_eos {a : Word} (h : a.toNat = 2 ^ 31) : pulseOperand a = some .eos := by
  rw [pulseOperand, if_neg (by omega), if_pos h]

/-! ## The transition table (R204) -/

section Table

variable (s : State) {n : Nat}

theorem decStep_eos_of_ne_done (hv : s.status.dstate ≠ .done) : s.decStep .eos = s.finish .eos := by
  cases h : s.status.dstate with
  | done => exact absurd h hv
  | _ => simp only [State.decStep, h, if_pos]

theorem decStep_searching_pilot (hv : s.status.dstate = .searching) (h : Matches s.derived n .pilot) :
    s.decStep (.width n) = s.setDState .piloting := by
  simp [State.decStep, hv, inWindow_iff, h]

theorem decStep_searching_other (hv : s.status.dstate = .searching) (h : ¬Matches s.derived n .pilot) :
    s.decStep (.width n) = s := by
  simp [State.decStep, hv, inWindow_iff, h]

theorem decStep_piloting_pilot (hv : s.status.dstate = .piloting) (h : Matches s.derived n .pilot) :
    s.decStep (.width n) = s := by
  simp [State.decStep, hv, inWindow_iff, h]

theorem decStep_piloting_sync (hv : s.status.dstate = .piloting) (h : ¬Matches s.derived n .pilot)
    (hsync : Matches s.derived n .sync) :
    s.decStep (.width n) = { s with dec := { s.dec with shift := 0#8, nbits := 0#4 } }.setDState .loading := by
  simp [State.decStep, hv, inWindow_iff, h, hsync]

theorem decStep_piloting_other (hv : s.status.dstate = .piloting) (h : ¬Matches s.derived n .pilot)
    (hsync : ¬Matches s.derived n .sync) : s.decStep (.width n) = s.setDState .searching := by
  simp [State.decStep, hv, inWindow_iff, h, hsync]

theorem decStep_loading_bit0 (hv : s.status.dstate = .loading) (h : Matches s.derived n .bit0) :
    s.decStep (.width n) = s.appendBit false := by
  simp [State.decStep, hv, inWindow_iff, h]

theorem decStep_loading_bit1 (hv : s.status.dstate = .loading) (h : ¬Matches s.derived n .bit0)
    (h1 : Matches s.derived n .bit1) : s.decStep (.width n) = s.appendBit true := by
  simp [State.decStep, hv, inWindow_iff, h, h1]

theorem decStep_loading_other (hv : s.status.dstate = .loading) (h : ¬Matches s.derived n .bit0)
    (h1 : ¬Matches s.derived n .bit1) : s.decStep (.width n) = s.finish .endMark := by
  simp only [State.decStep, hv, inWindow_iff, h, h1, reduceCtorEq, if_false]

theorem setDState_self {v : DState} (hv : s.status.dstate = v) : s.setDState v = s := by
  subst hv
  rfl

end Table

/-! ## The commands on a pulse -/

section Commands

variable {s t : State} {p : Pulse}

/-- `DEC.STEP` on an admitted operand: the transition, and the code of the state it leads to (R204). -/
theorem exec_decStep_pulse (hr : Ready .decode s) (hp : pulseOperand s.io.arg0 = some p)
    (ht : (ran .decStep s).decStep p = t) :
    exec .decStep s = .next (t.setRes (BitVec.ofNat 32 t.status.dstate.code)) := by
  rw [exec_decStep (admitted_of_decode hr rfl), hp, ← ht]
  rfl

/-- `DEC.CLASSIFY` on an admitted operand (R203). -/
theorem exec_decClassify_pulse (hr : Ready .decode s) (hp : pulseOperand s.io.arg0 = some p) {c : Nat}
    (hc : classCode s.derived s.status.dstate p = c) :
    exec .decClassify s = .next ((ran .decClassify s).setRes (BitVec.ofNat 32 c)) := by
  rw [exec_decClassify (admitted_of_decode hr rfl), hp, ← hc]
  rfl

end Commands

/-! ## Classes (R202, R203) -/

theorem classCode_seeking {d : Derived} {v : DState} (hv : v = .searching ∨ v = .piloting) (n : Nat) :
    classCode d v (.width n) =
      if inWindow d (.width n) .pilot then 1 else if inWindow d (.width n) .sync then 2 else 0 := by
  rcases hv with rfl | rfl <;> rfl

theorem classCode_loading (d : Derived) (n : Nat) : classCode d .loading (.width n) =
    if inWindow d (.width n) .bit0 then 3 else if inWindow d (.width n) .bit1 then 4 else 0 := rfl

/-- Settles O43: the class in each state, by its windows in their order. -/
theorem decClassifyCompletes : Obligations.DecClassifyCompletes := by
  refine ⟨rfl, fun s hr => ?_⟩
  dsimp only
  refine ⟨fun hp => exec_decClassify_pulse hr (pulseOperand_eos hp) rfl, fun hp => ?_⟩
  have gives := fun c => exec_decClassify_pulse (c := c) hr (pulseOperand_width hp)
  have inside := fun y => (inWindow_iff s.derived s.io.arg0.toNat y).2
  have outside := fun y => inWindow_false s.derived s.io.arg0.toNat y
  refine ⟨fun hv h => gives 1 ?_, fun hv h h' => gives 2 ?_, fun hv h h' => gives 0 ?_, fun hv h => gives 3 ?_,
    fun hv h h' => gives 4 ?_, fun hv h h' => gives 0 ?_, fun hv => gives 0 ?_⟩
  · rw [classCode_seeking hv, inside _ h]; rfl
  · rw [classCode_seeking hv, outside _ h, inside _ h']; rfl
  · rw [classCode_seeking hv, outside _ h, outside _ h']; rfl
  · rw [hv, classCode_loading, inside _ h]; rfl
  · rw [hv, classCode_loading, outside _ h, inside _ h']; rfl
  · rw [hv, classCode_loading, outside _ h, outside _ h']; rfl
  · rw [hv]; rfl

/-! ## States and bits (R204, R205) -/

/-- Settles O41: the transition of each state on a width, by its windows in their order, and on `EOS`. -/
theorem decStepFollowsTable : Obligations.DecStepFollowsTable := by
  intro s hr
  dsimp only
  refine ⟨fun hv hp => ?_, fun hv hp => ?_, fun hp => ?_⟩
  · have done := fun p => decStep_done (ran .decStep s) p hv
    have code : BitVec.ofNat 32 (ran .decStep s).status.dstate.code = 3#32 :=
      congrArg (fun v : DState => BitVec.ofNat 32 v.code) hv
    rw [← code]
    rcases hp.lt_or_eq with hp | hp
    · exact exec_decStep_pulse hr (pulseOperand_width hp) (done _)
    · exact exec_decStep_pulse hr (pulseOperand_eos hp) (done _)
  · exact exec_decStep_pulse hr (pulseOperand_eos hp) (decStep_eos_of_ne_done (ran .decStep s) hv)
  have step := fun t => exec_decStep_pulse (t := t) hr (pulseOperand_width hp)
  refine ⟨fun hv h => ?_, fun hv h => ?_, fun hv h => ?_, fun hv h h' => ?_, fun hv h h' => ?_, fun hv h h' => ?_⟩
  · exact step _ (decStep_searching_pilot (ran .decStep s) hv h)
  · exact step _ ((decStep_searching_other (ran .decStep s) hv h).trans (setDState_self (ran .decStep s) hv).symm)
  · exact step _ ((decStep_piloting_pilot (ran .decStep s) hv h).trans (setDState_self (ran .decStep s) hv).symm)
  · exact step _ (decStep_piloting_sync (ran .decStep s) hv h h')
  · exact step _ (decStep_piloting_other (ran .decStep s) hv h h')
  · exact step _ (decStep_loading_other (ran .decStep s) hv h h')

/-- The new bit enters at the low end. -/
theorem shiftIn_eq (sh : BitVec 8) (b : Bool) : shiftIn sh b = (sh <<< 1) ||| (if b then 1#8 else 0#8) := by
  have concat : shiftIn sh b = sh.shiftConcat b := by
    apply BitVec.eq_of_toNat_eq
    rw [BitVec.toNat_shiftConcat, shiftIn, BitVec.toNat_ofNat, Nat.shiftLeft_eq, Nat.mul_comm, Nat.pow_one]
  rw [concat]
  ext i hi
  rw [BitVec.getElem_shiftConcat]
  cases b <;> cases i <;> simp

theorem appendBit_eighth {s : State} (h : s.dec.nbits.toNat = 7) (b : Bool) :
    s.appendBit b = s.storeByte (shiftIn s.dec.shift b) := by
  have eight : s.dec.nbits + 1#4 = 8#4 := by
    rw [show s.dec.nbits = 7#4 from BitVec.eq_of_toNat_eq h]
    rfl
  exact if_pos eight

/-- Settles O42: the pulse is the bit, the bit does or does not complete a byte, and the byte does or does not fit. -/
theorem bitsAssembleBytes : Obligations.BitsAssembleBytes := by
  intro s b hr hv _ hp h0 h1
  have bit : (ran .decStep s).decStep (.width s.io.arg0.toNat) = (ran .decStep s).appendBit b := by
    cases b with
    | false => exact decStep_loading_bit0 (ran .decStep s) hv (h0 rfl)
    | true =>
      obtain ⟨not0, is1⟩ := h1 rfl
      exact decStep_loading_bit1 (ran .decStep s) hv not0 is1
  have step := fun t ht => exec_decStep_pulse (t := t) hr (pulseOperand_width hp) (bit.trans ht)
  rw [← shiftIn_eq]
  dsimp only
  have code : BitVec.ofNat 32 (ran .decStep s).status.dstate.code = 2#32 :=
    congrArg (fun v : DState => BitVec.ofNat 32 v.code) hv
  refine ⟨fun hn => ?_, fun hn hc => ⟨s.dst.write s.dec.count.toNat (shiftIn s.dec.shift b), ?_, read_write_same _ _ _,
    fun a ha => read_write_other _ _ _ _ ha⟩, fun hn hc => ?_⟩
  · rw [← code]
    refine step _ ((appendBit_lt (ran .decStep s) b s.dec.nbits.toNat (by simp [ran]) hn).trans ?_)
    rw [← BitVec.ofNat_add_ofNat, BitVec.ofNat_toNat, BitVec.setWidth_eq]
    rfl
  · rw [← code]
    exact step _ ((appendBit_eighth (s := ran .decStep s) hn b).trans (if_pos hc))
  · exact step _ ((appendBit_eighth (s := ran .decStep s) hn b).trans (if_neg hc))

end Sys2Proof.Proofs.Transitions
end

section
/-! PROOF. `DEC.BLOCK` (R206, R207): the decoder's transitions on the pulses of a stream, and what ends them. -/

namespace Sys2Proof.Proofs.BlockLoad

open Sys2Proof Sys2Proof.Machine Sys2Proof.Safety Sys2Proof.Laws Sys2Proof.Proofs.Classifier
  Sys2Proof.Proofs.PulseMeasurement

/-! ## A stream that ends -/

/-- The decoder side at the start of a block-load attempt (R206). -/
def startAttempt (s : State) : State := (ran .decBlock s).decReset s.io.arg0

/-- The start of a block-load attempt in its first measurement (R206, R207). -/
def firstMeasurement (s : State) : State := ((s.setCmd .decBlock).decReset s.io.arg0).startPulse

/-- What the decoder goes on from at the start of an attempt. -/
theorem startAttempt_decoder (s : State) : (startAttempt s).derived = s.derived ∧
    (startAttempt s).dec = ⟨0#8, 0#4, 0#32, s.io.arg0⟩ ∧ (startAttempt s).status.dstate = .searching ∧
    (startAttempt s).dst = s.dst := by
  simp [startAttempt, ran]

/-- Transitions do not depend on the measurement. -/
theorem foldl_firstMeasurement (s : State) (ps : List Pulse) : ps.foldl State.decStep (firstMeasurement s) =
    measuring { ps.foldl State.decStep (startAttempt s) with running := s.running } s.inp s.inPos s.filter
      ⟨.seekHigh, 0, s.edge.pulse⟩ := by
  rw [← foldl_running, ← foldl_measurement]
  rfl

/-- Transitions keep what belongs to the command and to the host's record. -/
theorem foldl_startAttempt_frame (s : State) (ps : List Pulse) :
    (ps.foldl State.decStep (startAttempt s)).obs = s.obs ∧
      (ps.foldl State.decStep (startAttempt s)).running = none := by
  rw [foldl_frame]
  simp [startAttempt, ran]

/-- The pulses of a stream that ends: those its frames complete, and `EOS` (R184, R207). -/
def streamPulses (s : State) (fs : List Frame) : List Pulse :=
  (pulseWidths .seekHigh 0 (scanRegions s fs).1).map Pulse.width ++ [Pulse.eos]

/-- `DEC.BLOCK` on a stream that ends: the transitions on every pulse of its frames, and on `EOS` (R207). -/
theorem exec_decBlock_streamEnds {s : State} {fs : List Frame} {rest : List Byte} (hr : Ready .decode s)
    (hpos : 0 < s.derived.frameBytes) (hn : NextFrames s fs rest) (hrest : rest.length < s.derived.frameBytes)
    (ht : s.inp.tail = .eos) (hp : PcntFits s fs.length) {u : State}
    (hu : (streamPulses s fs).foldl State.decStep (startAttempt s) = u) :
    ∃ (i : Source) (n : Nat) (f : FilterState) (e : Edge), exec .decBlock s = .next ({ u with
      inp := i, inPos := n, filter := f, edge := e, obs := s.obs ++ [Observation.dstAfter u.dec.cap u.dst] }.setRes
        u.dec.count) := by
  obtain ⟨k, hk⟩ := readFuel_eq hpos hn
  have regions : (scanRegions (firstMeasurement s) fs).1 = (scanRegions s fs).1 :=
    (scanRegions_congr fs s (firstMeasurement s) rfl rfl rfl).1
  obtain ⟨i, n, f, e, loop⟩ := blockLoop_pulses fs (firstMeasurement s) rest (fs.length + (k + 1)) hn hrest ht
    (by show PcntFits s (0 + fs.length); rwa [Nat.zero_add]) (by omega)
  rw [regions] at loop
  obtain ⟨hobs, hrun⟩ := foldl_startAttempt_frame s (streamPulses s fs)
  rw [hu] at hobs hrun
  refine ⟨i, n, f, e, ?_⟩
  calc exec .decBlock s
      = .next ((blockLoop s.readFuel (firstMeasurement s)).settle s) := exec_decBlock (admitted_of_decode hr rfl)
    _ = .next ((Run.done (measuring ((streamPulses s fs).foldl State.decStep (firstMeasurement s)) i n f
          e).blockDone).settle s) := by rw [hk, loop]; rfl
    _ = .next ((Run.done (measuring { u with running := s.running } i n f e).blockDone).settle s) := by
        rw [foldl_firstMeasurement, hu]; rfl
    _ = _ := by rw [settle_blockDone u s.running i n f e hobs hrun]

/-! ## Inside an attempt -/

/-- A block-load attempt after complete pulses and a tail in the given phase, at a read. -/
def midAttempt (s : State) (d : Option Activity) (pulses : List (List Region)) (fs : List Frame) (rest : List Byte)
    (tail : List Region) (ph : Phase) : State :=
  measuring { afterPulses s pulses with running := d } { s.inp with bytes := rest } (s.inPos + fs.length)
    (scanRegions s fs).2.filter (edgeAfter s.edge pulses tail ph)

section Attempt

variable {s : State} {fs : List Frame} {rest : List Byte} {pulses : List (List Region)} {tail : List Region}
  {ph : Phase}

/-- An attempt goes on with the configuration, the derived registers and the parameters of its session. -/
theorem midAttempt_session (d : Option Activity) : (midAttempt s d pulses fs rest tail ph).cfg = s.cfg ∧
    (midAttempt s d pulses fs rest tail ph).derived = s.derived ∧
    (midAttempt s d pulses fs rest tail ph).params = s.params := by
  rw [midAttempt, afterPulses_frame]
  exact ⟨rfl, rfl, rfl⟩

/-- The attempt at the next frame, or at what follows the supplied ones. -/
theorem exec_decBlock_midAttempt (hr : Ready .decode s) (hn : NextFrames s fs rest) {k : Nat}
    (hk : s.readFuel = fs.length + k) (hreg : (scanRegions s fs).1 = pulses.flatten ++ tail)
    (hall : ∀ p ∈ pulses, OnePulse p ∧ PcntFits s p.length) (htail : ScansTo ph tail) (hp : PcntFits s tail.length)
    (hd : (afterPulses s pulses).status.dstate ≠ .done) :
    ∃ d, exec .decBlock s = .next ((blockLoop k (midAttempt s d pulses fs rest tail ph)).settle s) :=
  exec_decBlock_counts fs rest pulses tail ph k (admitted_of_decode hr rfl) hn hk hreg hall htail hp hd

/-- The read that finds what follows the supplied bytes. -/
theorem pulseAccess_midAttempt (d : Option Activity) (hrest : rest.length < s.derived.frameBytes) :
    pulseAccess (midAttempt s d pulses fs rest tail ph) =
      match s.inp.tail with
      | .eos => .measured .eos (((midAttempt s d pulses fs rest tail ph).setPhase .idle).setPulse .eos)
      | .fails => .failed
      | .oracle => .pending :=
  pulseAccess_tail _ (by rw [(midAttempt_session d).2.1]; exact hrest)

/-- The transitions of an attempt keep what belongs to the stream, the command and the host's record. -/
theorem afterPulses_kept (s : State) (pulses : List (List Region)) : (afterPulses s pulses).obs = s.obs ∧
    (afterPulses s pulses).running = none ∧ (afterPulses s pulses).inp = s.inp ∧
    (afterPulses s pulses).inPos = s.inPos := by
  rw [afterPulses_frame]
  exact ⟨rfl, rfl, rfl, rfl⟩

/-- A pulse that ends the attempt: the state `DEC.BLOCK` leaves (R207). -/
theorem settle_attemptDone (s : State) (pulses : List (List Region)) (p : Pulse) (d : Option Activity) (n : Nat)
    (rest : List Byte) (f : FilterState) (e : Edge) {u : State} (hu : (afterPulses s pulses).decStep p = u) :
    (Run.done (measuring { u with running := d } { s.inp with bytes := rest } (s.inPos + n) f e).blockDone).settle s =
      { readFrames u n rest with
        filter := f, edge := e, obs := s.obs ++ [Observation.dstAfter u.dec.cap u.dst] }.setRes u.dec.count := by
  obtain ⟨hobs, hrun, hinp, hpos⟩ : u.obs = s.obs ∧ u.running = none ∧ u.inp = s.inp ∧ u.inPos = s.inPos := by
    rw [← hu, decStep_frame]
    exact afterPulses_kept s pulses
  rw [settle_blockDone u d _ _ f e hobs hrun, readFrames, hinp, hpos]

/-- `EOS` ends the attempt (R184, R207). -/
theorem exec_decBlock_eos (hr : Ready .decode s) (hpos : 0 < s.derived.frameBytes) (hn : NextFrames s fs rest)
    (hrest : rest.length < s.derived.frameBytes) (ht : s.inp.tail = .eos)
    (hreg : (scanRegions s fs).1 = pulses.flatten ++ tail) (hall : ∀ p ∈ pulses, OnePulse p ∧ PcntFits s p.length)
    (htail : ScansTo ph tail) (hp : PcntFits s tail.length) (hd : (afterPulses s pulses).status.dstate ≠ .done)
    {u : State} (hu : (afterPulses s pulses).decStep .eos = u) :
    exec .decBlock s = .next ({ readFrames u fs.length rest with
      filter := (scanRegions s fs).2.filter
      edge := ⟨.idle, tail.length, .eos⟩
      obs := s.obs ++ [Observation.dstAfter u.dec.cap u.dst] }.setRes u.dec.count) := by
  obtain ⟨k, hk⟩ := readFuel_eq hpos hn
  obtain ⟨d, attempt⟩ := exec_decBlock_midAttempt hr hn hk hreg hall htail hp hd
  have access := pulseAccess_midAttempt (s := s) (fs := fs) (pulses := pulses) (tail := tail) (ph := ph) d hrest
  have step : (((midAttempt s d pulses fs rest tail ph).setPhase .idle).setPulse .eos).decStep .eos =
      measuring { u with running := d } { s.inp with bytes := rest } (s.inPos + fs.length) (scanRegions s fs).2.filter
        ⟨.idle, tail.length, .eos⟩ := by
    rw [← hu, ← decStep_running, ← decStep_measurement]
    rfl
  have done : u.status.dstate = .done := hu ▸ decStep_eos _
  rw [attempt, blockLoop, access, ht]
  dsimp only
  rw [step, measuring_status, if_pos done, settle_attemptDone s pulses .eos d _ _ _ _ hu]

/-- The frames of the parts of a region sequence. -/
theorem frames_of_regions {as bs : List Region} (h : (scanRegions s fs).1 = as ++ bs) : ∃ gs ls, fs = gs ++ ls ∧
    (scanRegions s gs).1 = as ∧ (scanRegions (scanRegions s gs).2 ls).1 = bs := by
  have total := congrArg List.length h
  rw [scanRegions_length, List.length_append] at total
  have split := (List.take_append_drop as.length fs).symm
  rw [split, scanRegions_append] at h
  obtain ⟨first, second⟩ := List.append_inj h (by rw [scanRegions_length, List.length_take]; omega)
  exact ⟨_, _, split, first, second⟩

/-- The frames of one more pulse, from after complete ones (R182, R207). -/
theorem blockLoop_onePulse {ls : List Frame} {last : List Region} (d : Option Activity) (k : Nat)
    (hframes : ∀ f ∈ ls, f.length = s.derived.frameBytes)
    (hreg : (scanRegions (scanRegions s fs).2 ls).1 = last) (hone : OnePulse last) (hp : PcntFits s last.length)
    {u : State} (hu : (afterPulses s pulses).decStep (.width last.length) = u) (hdone : u.status.dstate = .done) :
    blockLoop (ls.length + k) (midAttempt s d pulses fs (ls.flatten ++ rest) [] .seekHigh) =
      .done (measuring { u with running := d } { s.inp with bytes := rest } (s.inPos + (fs.length + ls.length))
        (scanRegions (scanRegions s fs).2 ls).2.filter ⟨.idle, last.length, .width last.length⟩).blockDone := by
  have length : last.length = ls.length := by rw [← hreg, scanRegions_length]
  rw [length] at hp hu ⊢
  obtain ⟨m, hm⟩ : ∃ m, m = midAttempt s d pulses fs (ls.flatten ++ rest) [] .seekHigh := ⟨_, rfl⟩
  obtain ⟨hcfg, hderived, hparams⟩ : m.cfg = s.cfg ∧ m.derived = s.derived ∧ m.params = s.params :=
    hm ▸ midAttempt_session d
  obtain ⟨scfg, sderived⟩ := scanRegions_session fs s
  obtain ⟨regions, filter⟩ := scanRegions_congr ls (scanRegions s fs).2 m (hcfg.trans scfg.symm)
    (hderived.trans sderived.symm) (by rw [hm]; rfl)
  have loop := (loops_onePulse m ls rest k (by rw [hm]; rfl) (by rw [hm]; rfl)
    ⟨by rw [hm]; rfl, fun f hf => by rw [hderived]; exact hframes f hf⟩
    (by rw [PcntFits, hparams]; exact hp) (by rw [regions, hreg]; exact hone)).2
  have step : ((counted m ls .idle rest).setPulse (.width ls.length)).decStep (.width ls.length) =
      measuring { u with running := d } { s.inp with bytes := rest } (s.inPos + (fs.length + ls.length))
        (scanRegions (scanRegions s fs).2 ls).2.filter ⟨.idle, 0 + ls.length, .width ls.length⟩ := by
    rw [← hu, ← decStep_running, ← decStep_measurement, ← filter, hm, ← Nat.add_assoc]
    rfl
  rw [← hm, loop, step, measuring_status, if_pos hdone, Nat.zero_add]

/-- A complete pulse that ends the attempt, whatever follows it (R207). -/
theorem exec_decBlock_lastPulse {last : List Region} (hr : Ready .decode s) (hpos : 0 < s.derived.frameBytes)
    (hn : NextFrames s fs rest) (hreg : (scanRegions s fs).1 = pulses.flatten ++ last)
    (hall : ∀ p ∈ pulses, OnePulse p ∧ PcntFits s p.length) (hone : OnePulse last) (hp : PcntFits s last.length)
    (hd : (afterPulses s pulses).status.dstate ≠ .done) {u : State}
    (hu : (afterPulses s pulses).decStep (.width last.length) = u) (hdone : u.status.dstate = .done) :
    exec .decBlock s = .next ({ readFrames u fs.length rest with
      filter := (scanRegions s fs).2.filter
      edge := ⟨.idle, last.length, .width last.length⟩
      obs := s.obs ++ [Observation.dstAfter u.dec.cap u.dst] }.setRes u.dec.count) := by
  obtain ⟨k, hk⟩ := readFuel_eq hpos hn
  obtain ⟨gs, ls, rfl, complete, ending⟩ := frames_of_regions hreg
  obtain ⟨d, attempt⟩ := exec_decBlock_midAttempt (fs := gs) (rest := ls.flatten ++ rest) (tail := [])
    (k := ls.length + (k + 1)) hr ⟨by rw [hn.1]; simp, fun g hg => hn.2 g (by simp [hg])⟩
    (by rw [hk, List.length_append]; omega) (by rw [complete, List.append_nil]) hall (.inl ⟨rfl, by simp⟩)
    (pcntFits_mono s _ _ (Nat.zero_le _) hp) hd
  rw [attempt, blockLoop_onePulse d (k + 1) (fun f hf => hn.2 f (by simp [hf])) ending hone hp hu hdone,
    settle_attemptDone s pulses _ d _ _ _ _ hu, scanRegions_append, List.length_append]

/-- A failing read ends the attempt (R188, R207, R255). -/
theorem exec_decBlock_failed (hr : Ready .decode s) (hpos : 0 < s.derived.frameBytes) (hn : NextFrames s fs rest)
    (hrest : rest.length < s.derived.frameBytes) (ht : s.inp.tail = .fails)
    (hreg : (scanRegions s fs).1 = pulses.flatten ++ tail) (hall : ∀ p ∈ pulses, OnePulse p ∧ PcntFits s p.length)
    (htail : ScansTo ph tail) (hp : PcntFits s tail.length) (hd : (afterPulses s pulses).status.dstate ≠ .done) :
    exec .decBlock s = .next { readFrames (afterPulses s pulses) fs.length rest with
      filter := (scanRegions s fs).2.filter
      edge := edgeAfter s.edge pulses tail ph
      status := ⟨.aborted, .done, .ioFail, .streamRead⟩
      obs := s.obs ++ [Observation.dstAfter (afterPulses s pulses).dec.cap (afterPulses s pulses).dst] } := by
  obtain ⟨k, hk⟩ := readFuel_eq hpos hn
  obtain ⟨d, attempt⟩ := exec_decBlock_midAttempt hr hn hk hreg hall htail hp hd
  have access := pulseAccess_midAttempt (s := s) (fs := fs) (pulses := pulses) (tail := tail) (ph := ph) d hrest
  obtain ⟨hobs, hrun, hinp, hinPos⟩ := afterPulses_kept s pulses
  rw [attempt, blockLoop, access, ht]
  simp [Run.settle, midAttempt, measuring, readFrames, State.observe, State.setSession, State.setErr, State.setDState,
    State.setDCause, hobs, hrun, hinp, hinPos]

end Attempt

/-- Settles O44: the loop over all pulses of the stream, and its ends by a last pulse and by `EOS`. -/
theorem decBlockIsResetAndSteps : Obligations.DecBlockIsResetAndSteps := by
  refine ⟨fun s fs rest hr hpos hn hrest ht hp => ⟨?_, exec_decBlock_streamEnds hr hpos hn hrest ht hp rfl⟩,
    fun s fs rest pulses last hr hpos hn hreg hall hone hp hd hdone =>
      exec_decBlock_lastPulse hr hpos hn hreg hall hone hp hd rfl hdone,
    fun s fs rest pulses tail ph hr hpos hn hrest ht hreg hall htail hp hd =>
      exec_decBlock_eos hr hpos hn hrest ht hreg hall htail hp hd rfl⟩
  rw [List.foldl_append]
  exact decStep_eos _

/-- Settles O46: the read after the supplied frames fails. -/
theorem decBlockReadFailure : Obligations.DecBlockReadFailure :=
  fun _ _ _ _ _ _ hr hpos hn hrest ht hreg hall htail hp hd =>
    exec_decBlock_failed hr hpos hn hrest ht hreg hall htail hp hd

/-! ## Noise (R211) -/

/-- Without a pilot the decoder stays in SEARCHING (R204). -/
theorem foldl_searching {s : State} (hv : s.status.dstate = .searching) (ws : List Nat)
    (hw : ∀ w ∈ ws, ¬Matches s.derived w .pilot) : (ws.map Pulse.width).foldl State.decStep s = s := by
  induction ws with
  | nil => rfl
  | cons w ws ih =>
    rw [List.map_cons, List.foldl_cons, Transitions.decStep_searching_other s hv (hw w (by simp))]
    exact ih fun x hx => hw x (by simp [hx])

/-- Settles O45: the attempt is still SEARCHING when `EOS` ends it. -/
theorem noPilotYieldsNoBytes : Obligations.NoPilotYieldsNoBytes := by
  intro s fs rest hr hpos hn hrest ht hp hw
  obtain ⟨hderived, hdec, hstate, hdst⟩ := startAttempt_decoder s
  have transitions : (streamPulses s fs).foldl State.decStep (startAttempt s) = (startAttempt s).finish .eos := by
    rw [streamPulses, List.foldl_append, foldl_searching hstate _ (by rw [hderived]; exact hw)]
    exact Transitions.decStep_eos_of_ne_done (startAttempt s) (by rw [hstate]; decide)
  obtain ⟨i, n, f, e, result⟩ := exec_decBlock_streamEnds hr hpos hn hrest ht hp transitions
  have count : ((startAttempt s).finish .eos).dec.count = 0#32 := congrArg DecRegs.count hdec
  exact ⟨_, result, rfl, rfl, count, count, hdst, rfl⟩

end Sys2Proof.Proofs.BlockLoad
end

section
/-! PROOF. One encoded block read back (R141, R144, R185, R210, R212): the pulses of its stream, what the decoder makes
of them, and the bytes in the buffer. -/

namespace Sys2Proof.Proofs.TapeBlock

open Sys2Proof Sys2Proof.Machine Sys2Proof.Safety Sys2Proof.Laws Sys2Proof.Proofs.BlockLoad
  Sys2Proof.Proofs.Transitions

/-! ## Bytes in the buffer (R71) -/

theorem read_writeBytes_outside (bs : List Byte) : ∀ (m : Memory) (a x : Nat), x < a ∨ a + bs.length ≤ x →
    (m.writeBytes a bs).read x = m.read x := by
  induction bs with
  | nil => intros; rfl
  | cons b bs ih =>
    intro m a x hx
    rw [List.length_cons] at hx
    rw [Memory.writeBytes, ih _ _ _ (by omega), read_write_other _ _ _ _ (by omega)]

theorem read_writeBytes_inside (bs : List Byte) : ∀ (m : Memory) (a i : Nat) (hi : i < bs.length),
    (m.writeBytes a bs).read (a + i) = bs[i] := by
  induction bs with
  | nil => exact fun _ _ i hi => absurd hi (Nat.not_lt_zero i)
  | cons b bs ih =>
    intro m a i hi
    cases i with
    | zero => exact (read_writeBytes_outside bs _ _ _ (.inl (Nat.lt_succ_self a))).trans (read_write_same m a b)
    | succ i =>
      have byte := ih (m.write a b) (a + 1) i (by simpa using hi)
      rw [Nat.add_right_comm] at byte
      exact byte

/-- The first bytes of a buffer after they were written there. -/
theorem readBytes_writeBytes (m : Memory) (bs : List Byte) : (m.writeBytes 0 bs).readBytes bs.length = bs := by
  refine List.ext_getElem (by simp [Memory.readBytes]) fun i _ hi => ?_
  have byte := read_writeBytes_inside bs m 0 i hi
  rw [Nat.zero_add] at byte
  simpa [Memory.readBytes] using byte

/-! ## The pulses of the stream (R185) -/

/-- The cycles of one encoded block (R141). -/
def blockSymbols (n : Nat) (block : List Byte) : List Symbol :=
  List.replicate n Symbol.pilot ++ Symbol.sync :: (block.flatMap bitSymbols ++ [Symbol.endMark])

theorem byteCycles_eq (s : State) (b : Byte) : byteCycles s b = (bitSymbols b).flatMap (symbolCycle s) := by
  simp [byteCycles, bitSymbols]

/-- The frames of the stream of one block. -/
def streamFrames (s : State) (lead trail n : Nat) (block : List Byte) : List Frame :=
  List.replicate lead (encodeFrame s.cfg s.derived.lvlMid) ++
    ((blockSymbols n block).flatMap (symbolCycle s) ++ List.replicate trail (encodeFrame s.cfg s.derived.lvlMid))

theorem blockStream_frames {s : State} {lead trail n : Nat} {block : List Byte}
    (h : BlockStream s lead trail n block) : s.inp.bytes = (streamFrames s lead trail n block).flatten := by
  have bytes : byteCycles s = fun b => (bitSymbols b).flatMap (symbolCycle s) := funext (byteCycles_eq s)
  rw [h.2, bytes]
  simp [streamFrames, blockSymbols, List.flatMap_assoc, List.flatMap_replicate]

theorem streamFrames_length {s : State} (h : s.status.session ≠ .closed) (hs : SessionConstants s)
    (lead trail n : Nat) (block : List Byte) :
    ∀ f ∈ streamFrames s lead trail n block, f.length = s.derived.frameBytes := by
  intro f hf
  simp only [streamFrames, List.mem_append, List.mem_replicate, List.mem_flatMap] at hf
  rcases hf with ⟨-, rfl⟩ | ⟨y, -, hf⟩ | ⟨-, rfl⟩
  · exact (session_frames s h hs).1 _
  · exact symbolCycle_frames s h hs y f hf
  · exact (session_frames s h hs).1 _

/-- The regions of a clean stream: silence is DEAD (R185). -/
theorem scanRegions_streamFrames {s : State} (hc : CleanLevels s.cfg s.derived) (lead trail n : Nat)
    (block : List Byte) : (scanRegions s (streamFrames s lead trail n block)).1 =
      List.replicate lead .dead ++
        ((blockSymbols n block).flatMap (cycleRegions s.derived) ++ List.replicate trail .dead) := by
  have cycles : (fun y => (symbolCycle s y).map (frameRegion s.cfg)) = cycleRegions s.derived :=
    funext (symbolCycle_regions s hc)
  rw [scanRegions_unfiltered _ s hc.1]
  simp [streamFrames, List.map_flatMap, cycles, hc.2.2.2]

/-- The first pulse holds the silence and one frame of the second cycle; the others have their reference widths, and
the last cycle's is not ended (R185). -/
theorem pulseWidths_tape (d : Derived) (hpos : ∀ y, 0 < d.hiS.get y ∧ 0 < d.loS.get y)
    (href : ∀ y, d.ref.get y = d.hiS.get y + d.loS.get y) (lead trail : Nat) (y z : Symbol) (ys : List Symbol) :
    pulseWidths .seekHigh 0 (List.replicate lead .dead ++
        ((y :: z :: ys).flatMap (cycleRegions d) ++ List.replicate trail .dead)) =
      (lead + d.ref.get y + 1) :: ((z :: ys).dropLast).map d.ref.get := by
  obtain ⟨a, b, hy, width⟩ := cycleRegions_split d y (hpos y)
  obtain ⟨a', b', hz, -⟩ := cycleRegions_split d z (hpos z)
  have others := pulseWidths_cycles d hpos href trail ys z
  have first := pulseWidths_one (List.replicate lead Region.dead ++ Region.low :: List.replicate a Region.low)
    (List.replicate b Region.high)
    ((cycleRegions d z).drop 1 ++ (ys.flatMap (cycleRegions d) ++ List.replicate trail Region.dead))
    (by simp) (by simp) 0
  rw [others] at first
  rw [hz] at first
  simp only [List.flatMap_cons, hy, hz, List.append_assoc, List.cons_append, List.drop_succ_cons, List.drop_zero]
    at first ⊢
  rw [first, href]
  simp only [List.length_append, List.length_replicate, List.length_cons]
  congr 1
  omega

/-! ## The decoder on the pulses (R204, R205) -/

/-- The pulse of a cycle. -/
def refPulse (d : Derived) (y : Symbol) : Pulse := .width (d.ref.get y)

/-- In PILOTING every pilot stays there. -/
theorem foldl_pilots {s : State} (hv : s.status.dstate = .piloting) (n : Nat) :
    (List.replicate n (refPulse s.derived .pilot)).foldl State.decStep s = s := by
  induction n with
  | zero => rfl
  | succ n ih =>
    rw [List.replicate_succ, List.foldl_cons, refPulse, decStep_piloting_pilot s hv (matches_self _ _)]
    exact ih

/-- A first pulse of any width, a pilot and more pilots lead from SEARCHING to PILOTING. -/
theorem foldl_leadIn {s : State} (hv : s.status.dstate = .searching) (w n : Nat) :
    (Pulse.width w :: List.replicate (n + 1) (refPulse s.derived .pilot)).foldl State.decStep s =
      s.setDState .piloting := by
  have pilots := foldl_pilots (s := s.setDState .piloting) rfl
  rw [List.foldl_cons]
  by_cases h : Matches s.derived w .pilot
  · rw [decStep_searching_pilot s hv h]
    exact pilots (n + 1)
  · rw [decStep_searching_other s hv h, List.replicate_succ, List.foldl_cons, refPulse,
      decStep_searching_pilot s hv (matches_self _ _)]
    exact pilots n

/-- The bit pulses of bytes that fit, in LOADING with no bit held: they are stored one after the other (R205, R71). -/
theorem foldl_bytes (bs : List Byte) : ∀ {u : State}, u.status.dstate = .loading → u.dec.nbits = 0#4 →
    u.dec.shift = 0#8 → ¬Matches u.derived (u.derived.ref.get .bit1) .bit0 →
    u.dec.count.toNat + bs.length ≤ u.dec.cap.toNat →
    ((bs.flatMap bitSymbols).map (refPulse u.derived)).foldl State.decStep u =
      { u with
        dst := u.dst.writeBytes u.dec.count.toNat bs
        dec := { u.dec with count := u.dec.count + BitVec.ofNat 32 bs.length } } := by
  induction bs with
  | nil =>
    intro u _ _ _ _ _
    simp [Memory.writeBytes]
  | cons b bs ih =>
    intro u hl hn hs h1 hfit
    rw [List.length_cons] at hfit
    have bound := u.dec.cap.isLt
    have next : (u.dec.count + 1#32).toNat = u.dec.count.toNat + 1 := by
      rw [BitVec.toNat_add, BitVec.toNat_ofNat]
      omega
    have byte : ((bitSymbols b).map (refPulse u.derived)).foldl State.decStep u = { u with
        dst := u.dst.write u.dec.count.toNat b, dec := { u.dec with count := u.dec.count + 1#32 } } :=
      (foldl_byte u b hl hn hs h1).trans (if_pos (by omega))
    rw [List.flatMap_cons, List.map_append, List.foldl_append, byte]
    refine (ih (u := { u with
      dst := u.dst.write u.dec.count.toNat b, dec := { u.dec with count := u.dec.count + 1#32 } })
      hl hn hs h1 (by dsimp only; omega)).trans ?_
    dsimp only
    rw [next, BitVec.add_assoc, BitVec.ofNat_add_ofNat, Nat.add_comm 1, List.length_cons, Memory.writeBytes]

section Loading

variable {v : State} {cap : Word} {bs : List Byte}

/-- The lead-in of a block and its sync, from SEARCHING in an attempt just started: LOADING. -/
theorem foldl_toLoading (hv : v.status.dstate = .searching) (hdec : v.dec = ⟨0#8, 0#4, 0#32, cap⟩)
    (hsync : ¬Matches v.derived (v.derived.ref.get .sync) .pilot) (w n : Nat) :
    ((Pulse.width w :: List.replicate (n + 1) (refPulse v.derived .pilot)) ++ [refPulse v.derived .sync]).foldl
      State.decStep v = v.setDState .loading := by
  have registers : { v.dec with shift := 0#8, nbits := 0#4 } = v.dec := by rw [hdec]
  rw [List.foldl_append, foldl_leadIn hv, List.foldl_cons, List.foldl_nil, refPulse,
    decStep_piloting_sync (v.setDState .piloting) rfl hsync (matches_self _ _), setDState_dec, registers]
  rfl

/-- Bytes that fit the capacity are stored from the start of the buffer (R205, R71). -/
theorem foldl_stored (hdec : v.dec = ⟨0#8, 0#4, 0#32, cap⟩)
    (h1 : ¬Matches v.derived (v.derived.ref.get .bit1) .bit0) (hfit : bs.length ≤ cap.toNat) :
    ((bs.flatMap bitSymbols).map (refPulse v.derived)).foldl State.decStep (v.setDState .loading) =
      { v.setDState .loading with
        dst := v.dst.writeBytes 0 bs
        dec := ⟨0#8, 0#4, BitVec.ofNat 32 bs.length, cap⟩ } := by
  have bytes := foldl_bytes bs (u := v.setDState .loading) rfl (by rw [setDState_dec, hdec]) (by rw [setDState_dec, hdec])
    h1 (by rw [setDState_dec, hdec]; show 0 + bs.length ≤ cap.toNat; omega)
  simp only [setDState_dec, hdec, BitVec.zero_add] at bytes
  exact bytes

/-- Of bytes the capacity cannot hold, those below it are stored, and the next one ends the attempt (R205, R212). -/
theorem foldl_overrun (hdec : v.dec = ⟨0#8, 0#4, 0#32, cap⟩)
    (h1 : ¬Matches v.derived (v.derived.ref.get .bit1) .bit0) (hover : cap.toNat < bs.length) :
    ((bs.flatMap bitSymbols).map (refPulse v.derived)).foldl State.decStep (v.setDState .loading) =
      { v with
        dst := v.dst.writeBytes 0 (bs.take cap.toNat)
        dec := ⟨bs[cap.toNat], 0#4, cap, cap⟩
        status := { v.status with dstate := .done, dcause := .overrun } } := by
  have length : (bs.take cap.toNat).length = cap.toNat := List.length_take_of_le hover.le
  have stored := foldl_stored hdec h1 length.le
  rw [length, BitVec.ofNat_toNat, BitVec.setWidth_eq] at stored
  have refused := foldl_byte { v.setDState .loading with
    dst := v.dst.writeBytes 0 (bs.take cap.toNat), dec := ⟨0#8, 0#4, cap, cap⟩ } bs[cap.toNat] rfl rfl rfl h1
  rw [if_neg (lt_irrefl _)] at refused
  have split : bs.flatMap bitSymbols = (bs.take cap.toNat).flatMap bitSymbols ++
      (bitSymbols bs[cap.toNat] ++ (bs.drop (cap.toNat + 1)).flatMap bitSymbols) := by
    rw [← List.flatMap_cons, ← List.drop_eq_getElem_cons, ← List.flatMap_append, List.take_append_drop]
  rw [split, List.map_append, List.map_append, List.foldl_append, List.foldl_append, stored]
  exact (congrArg (fun u => List.foldl State.decStep u _) refused).trans (foldl_done _ _ rfl)

end Loading

/-! ## The attempt (R210, R212) -/

section Attempt

variable {s : State} {lead trail n : Nat} {block : List Byte}

/-- The cycles of a block after its first one, without the last one. -/
theorem blockSymbols_pulses (m : Nat) (block : List Byte) : ∃ ys,
    blockSymbols (m + 2) block = Symbol.pilot :: Symbol.pilot :: ys ∧
    (Symbol.pilot :: ys).dropLast = List.replicate (m + 1) Symbol.pilot ++ Symbol.sync :: block.flatMap bitSymbols := by
  refine ⟨List.replicate m Symbol.pilot ++ Symbol.sync :: (block.flatMap bitSymbols ++ [Symbol.endMark]),
    by simp [blockSymbols, List.replicate_succ], ?_⟩
  rw [← List.cons_append, ← List.replicate_succ, ← List.cons_append, ← List.append_assoc, List.dropLast_concat]

/-- The pulses of the stream: the lead-in, the sync, the bits, and the end (R185, R210). -/
theorem streamPulses_block (hs : SessionConstants s) (ho : s.status.session ≠ .closed) (hc : RoundTripConditions s)
    (m : Nat) : streamPulses s (streamFrames s lead trail (m + 2) block) =
      ((Pulse.width (lead + s.derived.ref.get .pilot + 1) :: List.replicate (m + 1) (refPulse s.derived .pilot)) ++
        [refPulse s.derived .sync]) ++ ((block.flatMap bitSymbols).map (refPulse s.derived) ++ [Pulse.eos]) := by
  obtain ⟨clean, positive, -, -⟩ := hc
  obtain ⟨ys, symbols, complete⟩ := blockSymbols_pulses m block
  rw [streamPulses, scanRegions_streamFrames clean, symbols,
    pulseWidths_tape s.derived positive (session_frames s ho hs).2.2, complete]
  simp [refPulse, Function.comp_def]

/-- `DEC.BLOCK` on the stream of one block: what the block's bits and `EOS` leave in LOADING. -/
theorem exec_decBlock_stream (hr : Ready .decode s) (hs : SessionConstants s) (hw : s.params.wPulse = none)
    (hc : RoundTripConditions s) (hn : 2 ≤ n) (hstream : BlockStream s lead trail n block) {u : State}
    (hu : (((block.flatMap bitSymbols).map (refPulse s.derived)).foldl State.decStep
      ((startAttempt s).setDState .loading)).decStep .eos = u) :
    ∃ t, exec .decBlock s = .next t ∧ t.io.res = u.dec.count ∧ t.dst = u.dst ∧ t.status = u.status ∧
      t.running = none := by
  obtain ⟨m, rfl⟩ : ∃ m, n = m + 2 := ⟨n - 2, by omega⟩
  have ho : s.status.session ≠ .closed := by
    rw [hr.1]
    decide
  have fits (k : Nat) : PcntFits s k := by simp only [PcntFits, pcntOverflows, hw]
  have positive := (session_frames s ho hs).2.1
  have ⟨_, _, sync, _⟩ := hc
  obtain ⟨hderived, hdec, hstate, -⟩ := startAttempt_decoder s
  have transitions : (streamPulses s (streamFrames s lead trail (m + 2) block)).foldl State.decStep (startAttempt s) =
      u := by
    have loading := foldl_toLoading hstate hdec (by rw [hderived]; exact sync)
      (lead + s.derived.ref.get .pilot + 1) m
    rw [hderived] at loading
    rw [streamPulses_block hs ho hc, List.foldl_append, loading, List.foldl_append]
    exact hu
  have running := (foldl_startAttempt_frame s (streamPulses s (streamFrames s lead trail (m + 2) block))).2
  rw [transitions] at running
  obtain ⟨i, k, f, e, result⟩ := exec_decBlock_streamEnds (rest := []) hr positive
    ⟨by rw [blockStream_frames hstream, List.append_nil], streamFrames_length ho hs lead trail (m + 2) block⟩ positive
    hstream.1 (fits _) transitions
  exact ⟨_, result, rfl, rfl, rfl, running⟩

end Attempt

/-- Settles O47: every byte fits, and `EOS` finds the decoder in LOADING. -/
theorem blockRoundTrip : Obligations.BlockRoundTrip := by
  intro s lead trail n block hr hs hw hc hn hfit hstream
  have ⟨_, _, _, bit1⟩ := hc
  obtain ⟨hderived, hdec, -, -⟩ := startAttempt_decoder s
  have stored := foldl_stored hdec (by rw [hderived]; exact bit1) hfit
  rw [hderived] at stored
  obtain ⟨t, result, res, dst, status, running⟩ := exec_decBlock_stream hr hs hw hc hn hstream
    ((congrArg (State.decStep · .eos) stored).trans (decStep_eos_of_ne_done _ (show DState.loading ≠ .done by decide)))
  refine ⟨t, result, res, ?_, by rw [status]; rfl, by rw [status]; rfl, running⟩
  rw [dst]
  exact readBytes_writeBytes _ _

/-- Settles O48: the bytes up to the capacity fit, the next one ends the attempt, and DONE is terminal. -/
theorem blockOverrunIsSafe : Obligations.BlockOverrunIsSafe := by
  intro s lead trail n block hr hs hw hc hn hover hstream
  have ⟨_, _, _, bit1⟩ := hc
  obtain ⟨hderived, hdec, -, hdst⟩ := startAttempt_decoder s
  have overrun := foldl_overrun hdec (by rw [hderived]; exact bit1) hover
  rw [hderived, hdst] at overrun
  obtain ⟨t, result, res, dst, status, running⟩ := exec_decBlock_stream hr hs hw hc hn hstream
    ((congrArg (State.decStep · .eos) overrun).trans (decStep_done _ _ rfl))
  have length : (block.take s.io.arg0.toNat).length = s.io.arg0.toNat := List.length_take_of_le hover.le
  refine ⟨t, result, res, ?_, fun a ha => ?_, by rw [status], by rw [status], running⟩
  · have bytes := readBytes_writeBytes s.dst (block.take s.io.arg0.toNat)
    rw [length] at bytes
    rw [dst]
    exact bytes
  · rw [dst]
    exact read_writeBytes_outside _ _ _ _ (.inr (by omega))

end Sys2Proof.Proofs.TapeBlock
end

section
/-! PROOF. The record sequencer (R230 to R234): what it starts, what it makes of an attempt, and what the host gets
back (R295; log 20). -/

namespace Sys2Proof.Proofs.RecordRecovery

open Sys2Proof Sys2Proof.Machine Sys2Proof.Safety Sys2Proof.Laws

section Judgement
variable (q : Sequencer) (s : State)

/-! ## The size a header says (R230) -/

/-- The first bytes of a buffer, byte by byte. -/
theorem readBytes_getD (m : Memory) {n i : Nat} (b : Byte) (hi : i < n) : (m.readBytes n).getD i b = m.read i := by
  simp [Memory.readBytes, hi]

/-- The data size is read from bytes 12 and 13 of the buffer a header attempt fills. -/
theorem dataSize_readBytes (m : Memory) :
    dataSize (m.readBytes hdrSize) = (m.read 12).toNat + 256 * (m.read 13).toNat + 2 := by
  unfold dataSize
  rw [readBytes_getD m _ (show 12 < hdrSize by decide), readBytes_getD m _ (show 13 < hdrSize by decide)]

/-! ## What a header attempt gave (R232) -/

theorem headerResult_stop (h : s.io.res.toNat = 0) : q.headerResult s = q.conclude s .stop := if_pos h

theorem headerResult_short (h0 : 0 < s.io.res.toNat) (h : s.io.res.toNat < hdrSize) :
    q.headerResult s = q.conclude s .reject :=
  (if_neg h0.ne').trans (if_pos h)

/-- A whole header whose LENGTH is 0 is rejected. -/
theorem headerResult_small (h : hdrSize ≤ s.io.res.toNat)
    (hsize : (s.dst.read 12).toNat + 256 * (s.dst.read 13).toNat + 2 ≤ 2) :
    q.headerResult s = q.conclude s .reject := by
  unfold Sequencer.headerResult
  dsimp only
  rw [if_neg (Nat.ne_zero_of_lt h), if_neg h.not_gt, dataSize_readBytes, if_pos hsize]

theorem headerResult_data (h : hdrSize ≤ s.io.res.toNat)
    (hsize : 2 < (s.dst.read 12).toNat + 256 * (s.dst.read 13).toNat + 2) :
    q.headerResult s = { s with seq := some ⟨q.all, q.records,
      .data (s.dst.readBytes hdrSize) ((s.dst.read 12).toNat + 256 * (s.dst.read 13).toNat + 2)⟩ } := by
  unfold Sequencer.headerResult
  dsimp only
  rw [if_neg (Nat.ne_zero_of_lt h), if_neg h.not_gt, dataSize_readBytes, if_neg hsize.not_ge]

/-! ## The reads before the result (R295) -/

/-- The state after the sequencer read `STATUS` and `RES`. -/
def looked : State :=
  { s with obs := s.obs ++ [.regRead 0x60#8 s.status.image, .regRead 0x75#8 s.io.res] }

theorem lookRes_lookStatus : s.lookStatus.lookRes = looked s := by
  simp [looked, State.observe]

theorem judge_open (result : State → State) (h : s.status.session ≠ .aborted) :
    q.judge s result = result (looked s) :=
  (if_neg h).trans (congrArg result (lookRes_lookStatus s))

theorem judge_aborted (result : State → State) (h : s.status.session = .aborted) : q.judge s result =
    { s with obs := s.obs ++ [.regRead 0x60#8 s.status.image,
                              if q.all then .recAll false q.records else .recRecord .ioFail]
             seq := none } := by
  refine (if_pos h).trans ?_
  cases hall : q.all <;> simp [Sequencer.conclude, State.observe, hall]

/-- STOP, after the reads. -/
theorem conclude_stop_looked : q.conclude (looked s) .stop =
    { s with obs := s.obs ++ [.regRead 0x60#8 s.status.image, .regRead 0x75#8 s.io.res,
                              if q.all then .recAll true q.records else .recRecord .stop]
             seq := none } := by
  cases hall : q.all <;> simp [Sequencer.conclude, State.observe, looked, hall]

/-- A reject, after the reads. -/
theorem conclude_reject_looked : q.conclude (looked s) .reject =
    if q.all then { looked s with seq := some ⟨q.all, q.records, .header⟩ }
    else { s with obs := s.obs ++ [.regRead 0x60#8 s.status.image, .regRead 0x75#8 s.io.res, .recRecord .reject]
                  seq := none } := by
  simp [Sequencer.conclude, State.observe, looked]

/-- A record, after the reads. -/
theorem conclude_record_looked (r : Record) : q.conclude (looked s) (.record r) =
    if q.all then { looked s with seq := some ⟨q.all, q.records ++ [r], .header⟩ }
    else { s with obs := s.obs ++ [.regRead 0x60#8 s.status.image, .regRead 0x75#8 s.io.res, .recRecord (.record r)]
                  seq := none } := by
  simp [Sequencer.conclude, State.observe, looked]

end Judgement

/-! ## One step of each phase -/

section Phases
variable {q : Sequencer} {s : State}

/-- The header attempt of an open DECODE session is a `DEC.BLOCK` (R232). -/
theorem sequencer_header (hp : q.phase = .header) (hr : Ready .decode s) :
    q.step s = exec .decBlock (({ s with seq := some { q with phase := .headerDone } }).attempt hdrSize) := by
  refine sequencer_command ?_
  simp only [Sequencer.command, hp, preRefusal_ready .decBlock s .decode hr (by decide) (.inr rfl)]

/-- The data attempt is a `DEC.BLOCK` of the header's size (R232). -/
theorem sequencer_data {h : List Byte} {m : Nat} (hp : q.phase = .data h m) :
    q.step s = exec .decBlock (({ s with seq := some { q with phase := .dataDone h m } }).attempt m) := by
  refine sequencer_command ?_
  simp only [Sequencer.command, hp]

theorem sequencer_headerDone (hp : q.phase = .headerDone) : q.step s = .next (q.judge s q.headerResult) := by
  simp only [Sequencer.step, hp]

theorem sequencer_dataDone {h : List Byte} {m : Nat} (hp : q.phase = .dataDone h m) :
    q.step s = .next (q.judge s fun t => q.dataResult t h m) := by
  simp only [Sequencer.step, hp]

end Phases

/-- Settles O54: the four phases one by one, the header attempt by the count it gave and the size it says. -/
theorem recordSequencerFollowsRules : Obligations.RecordSequencerFollowsRules := by
  intro s q hrun hq n size status res goesTo answers attempt stopped failed rejected recorded
  rw [step_sequencer hrun hq]
  refine ⟨sequencer_header, fun hp aborted => ?_, fun hp opened => ?_, fun h m => sequencer_data,
    fun h m hp => ⟨fun aborted => ?_, fun opened => ?_⟩⟩
  · rw [sequencer_headerDone hp, judge_aborted q s _ aborted]
  · rw [sequencer_headerDone hp, judge_open q s _ opened]
    refine ⟨fun empty => ?_, fun pos short => ?_, fun whole small => ?_, fun whole large => ?_⟩
    · rw [headerResult_stop q (looked s) empty, conclude_stop_looked]
    · rw [headerResult_short q (looked s) pos short, conclude_reject_looked]
      rfl
    · rw [headerResult_small q (looked s) whole small, conclude_reject_looked]
      rfl
    · rw [headerResult_data q (looked s) whole large]
      rfl
  · rw [sequencer_dataDone hp, judge_aborted q s _ aborted]
  · rw [sequencer_dataDone hp, judge_open q s _ opened]
    exact congrArg _ (conclude_record_looked q s _)

end Sys2Proof.Proofs.RecordRecovery
end

section
/-! PROOF. The refusal mark, kept for the whole run (R256), and the ABORTED session, which only `CLOSE` ends (R255,
R261). -/

namespace Sys2Proof.Proofs.Exceptions

open Sys2Proof Sys2Proof.Machine Sys2Proof.Safety Sys2Proof.Laws Sys2Proof.Proofs.Session

/-! ## The refusal mark -/

theorem measureEnd_refusal {a : Activity} {s t : State} (h : MeasureEnd a s t) : t.refusal = s.refusal :=
  measure_keeps State.refusal h (fun _ hu => congrArg State.refusal hu :) (fun _ _ => rfl) (fun _ => rfl) fun _ => rfl

theorem blockEnd_refusal {s t : State} (h : BlockEnd s t) : t.refusal = s.refusal :=
  block_keeps State.refusal h (fun _ hu => congrArg State.refusal hu :) (fun _ => rfl) (fun _ => rfl) fun _ => rfl

theorem emissionEnd_refusal {i : Instr} {s t : State} (h : EmissionEnd i s t) : t.refusal = s.refusal :=
  emission_keeps State.refusal h (fun _ _ _ _ => rfl) fun _ _ _ => rfl

/-- An admitted command does not touch the mark (R256). -/
theorem effect_refusal {i : Instr} {s t : State} (h : Effect i s t) : t.refusal = s.refusal := by
  cases i
  case openSession =>
    obtain ⟨-, ⟨e, -, rfl⟩ | ⟨-, rfl⟩⟩ := h
    · rfl
    · rw [opened_frame]; rfl
  case closeSession =>
    rw [h, handBack_frame]; rfl
  case tmScale | tmUnscale | tmTol | decClassify =>
    obtain ⟨r, rfl⟩ := h
    rfl
  case encLevels | encCount =>
    obtain ⟨r, rh, rfl⟩ := h
    rfl
  case encFrame | encSilence | encCycle | encPilot | encByte | encBlock => exact emissionEnd_refusal h
  case clsSample => exact measureEnd_refusal (s := s.setCmd .clsSample) h
  case clsPulse => exact measureEnd_refusal (s := (s.setCmd .clsPulse).startPulse) h
  case decBlock => exact blockEnd_refusal (s := ((s.setCmd .decBlock).decReset s.io.arg0).startPulse) h
  case fltClear | decReset =>
    rw [h]; rfl
  case decStep =>
    obtain ⟨p, rfl⟩ := h
    rw [setResNat_eq, decStep_frame]; rfl

theorem exec_keeps_refusal {i : Instr} {s t : State} {r : Refusal} (h : exec i s = .next t)
    (hr : s.refusal = some r) : t.refusal = some r := by
  rcases exec_cases h with ⟨q, rfl⟩ | ⟨-, he⟩
  · exact refuse_keeps s q r hr
  · rw [effect_refusal he, hr]

theorem resume_keeps_refusal (a : Activity) {s : State} {r : Refusal} (hr : s.refusal = some r) :
    (a.resume s).refusal = some r := by
  obtain ⟨u, hu, h⟩ := resume_cases a s
  have hur : u.refusal = some r := by rwa [hu]
  rcases h with ⟨b, -, h⟩ | ⟨-, h⟩ | h
  · rw [measureEnd_refusal h, hur]
  · rw [blockEnd_refusal h, hur]
  · rw [h]
    exact refuse_keeps s _ r hr

theorem step_keeps_refusal {s t : State} {r : Refusal} (h : step s = .next t) (hr : s.refusal = some r) :
    t.refusal = some r := by
  rcases step_cases h with ⟨a, -, rfl⟩ | ⟨-, h | ⟨i, u, hu, he⟩⟩
  · exact resume_keeps_refusal a hr
  · exact h.refusal r hr
  · exact exec_keeps_refusal he (hu.refusal r hr)

/-- Settles O7: the first reason is kept by a later refusal, and no command or host access writes the mark. -/
theorem refusalMarkIsKept : Obligations.RefusalMarkIsKept :=
  ⟨fun _ _ _ => step_keeps_refusal, fun s r => ⟨refuse_ne_none s r, refuse_frame s r⟩⟩

/-! ## The ABORTED session -/

/-- An admitted `CLOSE` ends the session and is the last command (R120, R261). -/
theorem effect_closeSession {s t : State} (h : Effect .closeSession s t) :
    t.status.session = .closed ∧ t.io.cmd = Instr.code .closeSession := by
  rw [h, handBack_frame]
  exact ⟨rfl, rfl⟩

/-- A step inside an aborted session leaves it aborted. -/
theorem inSession_aborted {s t : State} (h : InSession s t) (ha : s.status.session = .aborted) :
    t.status.session = .aborted := by
  rcases h.status with ⟨hs, -⟩ | ⟨hs, -⟩
  · exact hs.trans ha
  · exact hs

theorem exec_aborted {i : Instr} {s t : State} (h : exec i s = .next t) (ha : s.status.session = .aborted) :
    t.status.session = .aborted ∨ (t.status.session = .closed ∧ t.io.cmd = Instr.code .closeSession) := by
  rcases exec_cases h with ⟨r, rfl⟩ | ⟨hp, he⟩
  · exact .inl ha
  rcases session_of_admitted hp with ⟨-, hs⟩ | ⟨ho, -⟩
  · exact absurd (ha.symm.trans hs) (by decide)
  by_cases hc : i = .closeSession
  · subst hc
    exact .inr (effect_closeSession he)
  · exact .inl (inSession_aborted (effect_inSession hp he ho hc) ha)

/-- Settles O11: no command waits in an aborted session, a host access does not write `STATUS`, and a command is
refused, is `CLOSE`, or stays in the session. -/
theorem abortedLeftOnlyByClose : Obligations.AbortedLeftOnlyByClose := by
  rintro s t ⟨-, -, hp⟩ h ha
  rcases step_cases h with ⟨a, hr, -⟩ | ⟨-, h | ⟨i, u, hu, he⟩⟩
  · have opened : s.status.session = .opened := (hp (by simp [hr])).1
    exact absurd (ha.symm.trans opened) (by decide)
  · exact .inl (by rw [h.status, ha])
  · exact exec_aborted he (by rw [hu.status, ha])

end Sys2Proof.Proofs.Exceptions
end

section
/-! PROOF. One access a step (R293): the loops of a measurement and of a block load, and the writes of an emission,
compose; and a step that is not refused is one or more accesses. -/

namespace Sys2Proof.Proofs.Accesses

open Sys2Proof Sys2Proof.Machine Sys2Proof.Safety Sys2Proof.Laws

/-! ## Reading commands (R183) -/

/-- `m + n` accesses of a reading command are `m` accesses and then `n`. -/
theorem activityLoop_add (a : Activity) (m n : Nat) : ∀ s : State,
    activityLoop a (m + n) s = match activityLoop a m s with
      | .waiting _ t => activityLoop a n t
      | other => other := by
  induction m with
  | zero =>
    intro s
    rw [Nat.zero_add]
    cases a <;> rfl
  | succ m ih =>
    intro s
    rw [Nat.succ_add, activityLoop_succ, activityLoop_succ a m]
    cases activityLoop a 1 s with
    | waiting b t => exact ih t
    | done t => rfl
    | overflow => rfl

/-- A step of a reading command in progress consumes at most one frame and writes none. -/
theorem fineStep_reading_reads {s : State} {a : Activity} (h : s.running = some a) :
    ∃ m : FineState, fineStep ⟨s, none⟩ = .next m ∧ m.emitting = none ∧
      (m.state.inPos = s.inPos ∨ m.state.inPos = s.inPos + 1) ∧ m.state.out = s.out := by
  have hpos : s.askInput.inPos = s.inPos := by rw [askInput_frame]
  have hout : s.askInput.out = s.out := by rw [askInput_frame]
  have reads := activityLoop_reads a s.askInput s hpos.symm hout.symm
  rw [hpos, hout] at reads
  exact ⟨_, fineStep_reading s a h, rfl, reads⟩

/-! ## Emission commands (R146) -/

/-- Going on with an emission, or completing it, moves no stream. -/
theorem continue_streams (e : Emission) (s : State) :
    (e.continue s).state.inPos = s.inPos ∧ (e.continue s).state.out = s.out := by
  unfold Emission.continue
  split <;> exact ⟨rfl, rfl⟩

/-- A step of an emission command in progress appends its next frame, or the part of it the sink took. -/
theorem fineStep_emitting (s : State) (f : Frame) (fs : List Frame) (n : Nat) :
    ∃ m : FineState, fineStep ⟨s, some ⟨f :: fs, n⟩⟩ = .next m ∧ m.state.inPos = s.inPos ∧
      ∃ b, b <+: f ∧ m.state.out = s.out ++ b := by
  refine ⟨Emission.access ⟨f :: fs, n⟩ s, rfl, ?_⟩
  unfold Emission.access
  rcases outWrite_cases s f with ⟨k, d, h⟩ | ⟨taken, k, d, h⟩ | h
  · obtain ⟨hpos, hout⟩ := continue_streams ⟨fs, n⟩ { wrote s [f] k with draws := d }
    simp only [h]
    exact ⟨hpos, f, List.prefix_rfl, hout.trans (by simp [wrote])⟩
  · simp only [h]
    exact ⟨rfl, f.take taken, List.take_prefix taken f, by simp [wrote]⟩
  · simp only [h]
    exact ⟨rfl, [], List.nil_prefix, (List.append_nil _).symm⟩

/-! ## Steps -/

/-- With nothing in progress and no command next, a step is one step of this machine. -/
theorem fineStep_host {s t : State} (hr : s.running = none) (hn : s.nextCommand = none) (h : step s = .next t) :
    fineStep ⟨s, none⟩ = .next ⟨t, none⟩ := by
  simp only [fineStep, hr, hn, h]

/-- With nothing in progress, the next command is started. -/
theorem fineStep_start {s u : State} {i : Instr} (hr : s.running = none) (hn : s.nextCommand = some (i, u)) :
    fineStep ⟨s, none⟩ = startCommand i u := by
  simp only [fineStep, hr, hn]

/-- A step that ends without a refusal is one or more accesses: of the command in progress, of the command it starts,
or the one host access it is. -/
theorem step_fine {s t : State} (h : step s = .next t) (ht : t.refusal = none) :
    ∃ n, 0 < n ∧ fineSteps n ⟨s, none⟩ = .next ⟨t, none⟩ := by
  cases hr : s.running with
  | some a =>
    obtain rfl : a.resume s = t := Host.Outcome.next.inj ((step_running s a hr).symm.trans h)
    exact resume_fine a s hr ht
  | none =>
    cases hn : s.nextCommand with
    | none => exact ⟨1, Nat.one_pos, fineSteps_succ 0 (fineStep_host hr hn h)⟩
    | some iu =>
      obtain ⟨i, u⟩ := iu
      rw [step_nextCommand hr hn] at h
      obtain ⟨m, hm, k, hk⟩ := start_fine h ht
      exact ⟨k + 1, k.succ_pos, (fineSteps_succ k ((fineStep_start hr hn).trans hm)).trans hk⟩

/-- Settles O39: the loops of `CLS.PULSE` and `DEC.BLOCK` are two cases of one loop, composed by induction on its first
part; a step that is not refused is split by what is in progress when it begins. -/
theorem accessesCompose : Obligations.AccessesCompose := by
  refine ⟨fun m n s => ⟨activityLoop_add .pulse m n s, activityLoop_add .block m n s⟩, fun fs gs s => ?_,
    fun _ _ => fineStep_reading_reads, fineStep_emitting, fun _ _ => step_fine⟩
  rw [emit_append]
  cases s.emit fs <;> rfl

end Sys2Proof.Proofs.Accesses
end
